-- ==== Sys2Proof/Word.lean ====
section
/-! DEFINITION. The two word types of the block: bytes and 32-bit words (spec/00_scope.md R7, R8). -/

namespace Sys2Proof

/-- A byte: 8 bits, bit 0 the least significant (R8). Also the width of a channel and of a channel integer (R7, `CH_W`). -/
abbrev Byte := BitVec 8

/-- A command word, and the data of a response: 32 bits (R7, R80, R83). -/
abbrev Word := BitVec 32

/-- A line of container text, or a captured string: a byte string with no terminator (R12, R150). -/
abbrev Bytes := List Byte

end Sys2Proof
end

