-- ==== Sys2Proof/Syntax.lean ====
section
/-! DEFINITION. The twenty commands of spec/30_encoding.md R84, one constructor per row of spec/opcode_table.json,
and the assembler lines of R87 and R88 with their operands as written, before any range is checked. -/

namespace Sys2Proof

/-- A command, its operands at the widths of its format (R81, R82). The widths are the ranges R87 gives the
operands, so every value of this type has an encoding. -/
inductive Instr
  /-- `SRST`, soft reset (R200). -/
  | srst
  /-- `ABORT code4`, record a fault raised outside the block (R201). -/
  | abort (code4 : BitVec 4)
  /-- `RD imm8`, read one register (R202). -/
  | rd (imm8 : BitVec 8)
  /-- `RD.STR sel, idx`, read one byte of a string register (R203). -/
  | rdStr (sel : BitVec 4) (idx : BitVec 16)
  /-- `PB.CLR`, empty the payload buffer and rewind the cursor (R180). -/
  | pbClr
  /-- `PB.PUSH imm8`, append one byte to the payload (R181). -/
  | pbPush (imm8 : BitVec 8)
  /-- `CB.CLR`, empty the channel-integer buffer (R182). -/
  | cbClr
  /-- `CB.PUSH imm8`, append one channel integer (R183). -/
  | cbPush (imm8 : BitVec 8)
  /-- `LB.CLR`, empty the line buffer (R184). -/
  | lbClr
  /-- `LB.PUSH imm8`, append one byte to the current line (R185). -/
  | lbPush (imm8 : BitVec 8)
  /-- `PQ.POP`, remove and return the oldest pixel (R186). -/
  | pqPop
  /-- `OB.POP`, remove and return the oldest decoded byte (R187). -/
  | obPop
  /-- `ENC.START mode24`, begin an encode (R112). -/
  | encStart (mode24 : BitVec 24)
  /-- `ENC.PIX`, one pixel in the response (R118). -/
  | encPix
  /-- `ENC.RUN`, pixels to the queue (R119). -/
  | encRun
  /-- `DEC.RUN mode24`, decode the channel integers (R131). -/
  | decRun (mode24 : BitVec 24)
  /-- `DEC.RUNH`, decode at the header's mode (R132). -/
  | decRunh
  /-- `HDR.START`, arm the header parser (R155). -/
  | hdrStart
  /-- `HDR.LINE`, present the line to the parser (R156). -/
  | hdrLine
  /-- `HDR.EOS`, end of the line stream (R163). -/
  | hdrEos
deriving DecidableEq, Repr

/-- A line of assembler text (R87) or one of the four pseudo-commands (R88), its operands the numbers as written:
nothing says yet that they are in range. The text of `LINE` is its character codes. -/
inductive AsmLine
  | srst
  | abort (code4 : Nat)
  | rd (imm8 : Nat)
  | rdStr (sel idx : Nat)
  | pbClr
  | pbPush (imm8 : Nat)
  | cbClr
  | cbPush (imm8 : Nat)
  | lbClr
  | lbPush (imm8 : Nat)
  | pqPop
  | obPop
  | encStart (mode24 : Nat)
  | encPix
  | encRun
  | decRun (mode24 : Nat)
  | decRunh
  | hdrStart
  | hdrLine
  | hdrEos
  /-- Pseudo-command `PB.LOAD b0, b1, …` (R88). -/
  | pbLoad (bytes : List Nat)
  /-- Pseudo-command `CB.LOAD v0, v1, …` (R88). -/
  | cbLoad (values : List Nat)
  /-- Pseudo-command `LINE "text"` (R88). -/
  | line (text : List Nat)
  /-- Pseudo-command `ENCODE m` (R88). -/
  | encode (mode24 : Nat)
deriving DecidableEq, Repr

end Sys2Proof
end

