-- ==== Sys2Proof/WellFormed.lean ====
section
/-! DEFINITION. Which assembler lines are well formed: every operand in the range R87 gives it ("a value out of
range is an assembler error, never truncated"). A command of type `Instr` carries its ranges in its operands'
widths; `Instr.wf` says so by writing it as an assembler line. -/

namespace Sys2Proof

/-- `imm8` is 0 to 255 (R87). -/
def imm8InRange (n : Nat) : Bool := decide (n < 256)

/-- `mode24` is 0 to 16777215 (R87). -/
def mode24InRange (n : Nat) : Bool := decide (n < 16777216)

/-- `sel` is 0 to 15 (R87). -/
def selInRange (n : Nat) : Bool := decide (n < 16)

/-- `idx` is 0 to 65535 (R87). -/
def idxInRange (n : Nat) : Bool := decide (n < 65536)

/-- `code4` is 0 to 15 (R87). -/
def code4InRange (n : Nat) : Bool := decide (n < 16)

/-- A character of `LINE "text"` stands for its ASCII code (R88), which is 0 to 127. -/
def asciiInRange (n : Nat) : Bool := decide (n < 128)

/-- Every operand of the line is in its range (R87, R88). -/
def AsmLine.wf : AsmLine → Bool
  | .srst | .pbClr | .cbClr | .lbClr | .pqPop | .obPop => true
  | .encPix | .encRun | .decRunh | .hdrStart | .hdrLine | .hdrEos => true
  | .abort c => code4InRange c
  | .rd a => imm8InRange a
  | .rdStr sel idx => selInRange sel && idxInRange idx
  | .pbPush b => imm8InRange b
  | .cbPush v => imm8InRange v
  | .lbPush b => imm8InRange b
  | .encStart m => mode24InRange m
  | .decRun m => mode24InRange m
  | .pbLoad bs => bs.all imm8InRange
  | .cbLoad vs => vs.all imm8InRange
  | .line t => t.all asciiInRange
  | .encode m => mode24InRange m

/-- The assembler line of a command (R87). -/
def Instr.asm : Instr → AsmLine
  | .srst => .srst
  | .abort c => .abort c.toNat
  | .rd a => .rd a.toNat
  | .rdStr sel idx => .rdStr sel.toNat idx.toNat
  | .pbClr => .pbClr
  | .pbPush b => .pbPush b.toNat
  | .cbClr => .cbClr
  | .cbPush v => .cbPush v.toNat
  | .lbClr => .lbClr
  | .lbPush b => .lbPush b.toNat
  | .pqPop => .pqPop
  | .obPop => .obPop
  | .encStart m => .encStart m.toNat
  | .encPix => .encPix
  | .encRun => .encRun
  | .decRun m => .decRun m.toNat
  | .decRunh => .decRunh
  | .hdrStart => .hdrStart
  | .hdrLine => .hdrLine
  | .hdrEos => .hdrEos

/-- A command is well formed when its assembler line is (R87). -/
def Instr.wf (i : Instr) : Bool := i.asm.wf

end Sys2Proof
end

