-- ==== Sys2Proof/Decode.lean ====
section
/-! DEFINITION. From a command word to a command and back (spec/30_encoding.md R80 to R88): the decoder, total on
all 2^32 words and refusing by name; the encoder; the opcode table with its match and mask; the assembler. -/

namespace Sys2Proof

/-! ## The decoder -/

/-- Why a word is illegal (R85). -/
inductive Illegal
  /-- The opcode byte is assigned to no command; 0x00 is among these. -/
  | unassignedOpcode
  /-- The opcode is assigned, and a bit its format requires to be 0 is 1. -/
  | mustBeZero
deriving DecidableEq, Repr

/-- What decoding a word gives: the command, or the reason there is none. -/
inductive Decoded
  | instr (i : Instr)
  | illegal (why : Illegal)
deriving DecidableEq, Repr

/-- `OPC`, bits 31:24 (R80). -/
def opcOf (w : Word) : Byte := w.extractLsb' 24 8

/-- `OPD`, bits 23:0 (R80); also the operand `mode24` (R82). -/
def opdOf (w : Word) : BitVec 24 := w.extractLsb' 0 24

/-- The operand `imm8 = word[7:0]` (R82). -/
def imm8Of (w : Word) : Byte := w.extractLsb' 0 8

/-- The operand `sel = word[19:16]` (R82). -/
def selOf (w : Word) : BitVec 4 := w.extractLsb' 16 4

/-- The operand `idx = word[15:0]` (R82). -/
def idxOf (w : Word) : BitVec 16 := w.extractLsb' 0 16

/-- The operand `code4 = word[3:0]` (R82). -/
def code4Of (w : Word) : BitVec 4 := w.extractLsb' 0 4

/-- The command `i` if the part of the word that must be zero is zero, else the refusal by name (R81, R85). -/
def requireZero {n : Nat} (field : BitVec n) (i : Instr) : Decoded :=
  if field = 0 then .instr i else .illegal .mustBeZero

/-- Format `Z`: bits 23:0 must be 0 (R81). -/
def formatZ (w : Word) (i : Instr) : Decoded := requireZero (opdOf w) i

/-- Format `B`: bits 23:8 must be 0 (R81). -/
def formatB (w : Word) (f : BitVec 8 → Instr) : Decoded := requireZero (w.extractLsb' 8 16) (f (imm8Of w))

/-- Format `M`: bits 23:0 are `mode24` (R81). -/
def formatM (w : Word) (f : BitVec 24 → Instr) : Decoded := .instr (f (opdOf w))

/-- Format `S`: bits 23:20 must be 0 (R81). -/
def formatS (w : Word) (f : BitVec 4 → BitVec 16 → Instr) : Decoded :=
  requireZero (w.extractLsb' 20 4) (f (selOf w) (idxOf w))

/-- Format `K`: bits 23:4 must be 0 (R81). -/
def formatK (w : Word) (f : BitVec 4 → Instr) : Decoded := requireZero (w.extractLsb' 4 20) (f (code4Of w))

/-- The command a word stands for, by the opcode map of R84; a word that matches no row is illegal (R85). -/
def decode (w : Word) : Decoded :=
  match (opcOf w).toNat with
  | 0x01 => formatZ w .srst
  | 0x02 => formatK w .abort
  | 0x03 => formatB w .rd
  | 0x04 => formatS w .rdStr
  | 0x10 => formatZ w .pbClr
  | 0x11 => formatB w .pbPush
  | 0x12 => formatZ w .cbClr
  | 0x13 => formatB w .cbPush
  | 0x14 => formatZ w .lbClr
  | 0x15 => formatB w .lbPush
  | 0x16 => formatZ w .pqPop
  | 0x17 => formatZ w .obPop
  | 0x20 => formatM w .encStart
  | 0x21 => formatZ w .encPix
  | 0x22 => formatZ w .encRun
  | 0x30 => formatM w .decRun
  | 0x31 => formatZ w .decRunh
  | 0x40 => formatZ w .hdrStart
  | 0x41 => formatZ w .hdrLine
  | 0x42 => formatZ w .hdrEos
  | _ => .illegal .unassignedOpcode

/-! ## The encoder -/

/-- `OPC << 24 | OPD` for format `Z` (R81, R87). -/
def wordZ (opc : Byte) : Word := opc ++ (0 : BitVec 24)

/-- The word of format `B` (R81, R87). -/
def wordB (opc : Byte) (imm8 : BitVec 8) : Word := opc ++ (0 : BitVec 16) ++ imm8

/-- The word of format `M` (R81, R87). -/
def wordM (opc : Byte) (mode24 : BitVec 24) : Word := opc ++ mode24

/-- The word of format `S` (R81, R87). -/
def wordS (opc : Byte) (sel : BitVec 4) (idx : BitVec 16) : Word := opc ++ (0 : BitVec 4) ++ sel ++ idx

/-- The word of format `K` (R81, R87). -/
def wordK (opc : Byte) (code4 : BitVec 4) : Word := opc ++ (0 : BitVec 20) ++ code4

/-- The word of a command (R84, R87). -/
def encode : Instr → Word
  | .srst => wordZ 0x01
  | .abort c => wordK 0x02 c
  | .rd a => wordB 0x03 a
  | .rdStr sel idx => wordS 0x04 sel idx
  | .pbClr => wordZ 0x10
  | .pbPush b => wordB 0x11 b
  | .cbClr => wordZ 0x12
  | .cbPush v => wordB 0x13 v
  | .lbClr => wordZ 0x14
  | .lbPush b => wordB 0x15 b
  | .pqPop => wordZ 0x16
  | .obPop => wordZ 0x17
  | .encStart m => wordM 0x20 m
  | .encPix => wordZ 0x21
  | .encRun => wordZ 0x22
  | .decRun m => wordM 0x30 m
  | .decRunh => wordZ 0x31
  | .hdrStart => wordZ 0x40
  | .hdrLine => wordZ 0x41
  | .hdrEos => wordZ 0x42

/-! ## The opcode table -/

/-- A row of the opcode table of R84. -/
structure OpcodeRow where
  mnemonic : String
  pattern : Word
  mask : Word
deriving DecidableEq, Repr

/-- The word matches the row: `(w & mask) = match` (R84). -/
def OpcodeRow.matchedBy (r : OpcodeRow) (w : Word) : Prop := w &&& r.mask = r.pattern

/-- The twenty rows of R84, in its order. -/
def opcodeRows : List OpcodeRow := [
  ⟨"SRST", 0x01000000, 0xFFFFFFFF⟩,
  ⟨"ABORT", 0x02000000, 0xFFFFFFF0⟩,
  ⟨"RD", 0x03000000, 0xFFFFFF00⟩,
  ⟨"RD.STR", 0x04000000, 0xFFF00000⟩,
  ⟨"PB.CLR", 0x10000000, 0xFFFFFFFF⟩,
  ⟨"PB.PUSH", 0x11000000, 0xFFFFFF00⟩,
  ⟨"CB.CLR", 0x12000000, 0xFFFFFFFF⟩,
  ⟨"CB.PUSH", 0x13000000, 0xFFFFFF00⟩,
  ⟨"LB.CLR", 0x14000000, 0xFFFFFFFF⟩,
  ⟨"LB.PUSH", 0x15000000, 0xFFFFFF00⟩,
  ⟨"PQ.POP", 0x16000000, 0xFFFFFFFF⟩,
  ⟨"OB.POP", 0x17000000, 0xFFFFFFFF⟩,
  ⟨"ENC.START", 0x20000000, 0xFF000000⟩,
  ⟨"ENC.PIX", 0x21000000, 0xFFFFFFFF⟩,
  ⟨"ENC.RUN", 0x22000000, 0xFFFFFFFF⟩,
  ⟨"DEC.RUN", 0x30000000, 0xFF000000⟩,
  ⟨"DEC.RUNH", 0x31000000, 0xFFFFFFFF⟩,
  ⟨"HDR.START", 0x40000000, 0xFFFFFFFF⟩,
  ⟨"HDR.LINE", 0x41000000, 0xFFFFFFFF⟩,
  ⟨"HDR.EOS", 0x42000000, 0xFFFFFFFF⟩]

/-- The mnemonic of a command (R84). -/
def Instr.mnemonic : Instr → String
  | .srst => "SRST"
  | .abort _ => "ABORT"
  | .rd _ => "RD"
  | .rdStr _ _ => "RD.STR"
  | .pbClr => "PB.CLR"
  | .pbPush _ => "PB.PUSH"
  | .cbClr => "CB.CLR"
  | .cbPush _ => "CB.PUSH"
  | .lbClr => "LB.CLR"
  | .lbPush _ => "LB.PUSH"
  | .pqPop => "PQ.POP"
  | .obPop => "OB.POP"
  | .encStart _ => "ENC.START"
  | .encPix => "ENC.PIX"
  | .encRun => "ENC.RUN"
  | .decRun _ => "DEC.RUN"
  | .decRunh => "DEC.RUNH"
  | .hdrStart => "HDR.START"
  | .hdrLine => "HDR.LINE"
  | .hdrEos => "HDR.EOS"

/-! ## The assembler -/

/-- The commands a line stands for when its operands are in range: one command, or the expansion of a
pseudo-command in the order R88 shows. -/
def AsmLine.expand : AsmLine → List Instr
  | .srst => [.srst]
  | .abort c => [.abort (BitVec.ofNat 4 c)]
  | .rd a => [.rd (BitVec.ofNat 8 a)]
  | .rdStr sel idx => [.rdStr (BitVec.ofNat 4 sel) (BitVec.ofNat 16 idx)]
  | .pbClr => [.pbClr]
  | .pbPush b => [.pbPush (BitVec.ofNat 8 b)]
  | .cbClr => [.cbClr]
  | .cbPush v => [.cbPush (BitVec.ofNat 8 v)]
  | .lbClr => [.lbClr]
  | .lbPush b => [.lbPush (BitVec.ofNat 8 b)]
  | .pqPop => [.pqPop]
  | .obPop => [.obPop]
  | .encStart m => [.encStart (BitVec.ofNat 24 m)]
  | .encPix => [.encPix]
  | .encRun => [.encRun]
  | .decRun m => [.decRun (BitVec.ofNat 24 m)]
  | .decRunh => [.decRunh]
  | .hdrStart => [.hdrStart]
  | .hdrLine => [.hdrLine]
  | .hdrEos => [.hdrEos]
  | .pbLoad bs => .pbClr :: bs.map fun b => .pbPush (BitVec.ofNat 8 b)
  | .cbLoad vs => .cbClr :: vs.map fun v => .cbPush (BitVec.ofNat 8 v)
  | .line t => .lbClr :: t.map (fun ch => .lbPush (BitVec.ofNat 8 ch)) ++ [.hdrLine]
  | .encode m => [.encStart (BitVec.ofNat 24 m), .encRun]

/-- The commands of a line, or none: an operand out of range is an assembler error, never truncated (R87). -/
def assemble (l : AsmLine) : Option (List Instr) :=
  if l.wf then some l.expand else none

/-- The words of a line (R87, R88). -/
def assembleWords (l : AsmLine) : Option (List Word) :=
  (assemble l).map fun is => is.map encode

/-! ## The table's words, as the host numbers them -/

/-- The command word whose low `nbits` bits are `w` and whose other bits are 0; none if that is wider than a
command word. A command word is one 32-bit parallel value, not a sequence of bytes (R62, R80), so no byte order
enters. -/
def tableWord (nbits w : Nat) : Option Word :=
  let v := w % 2 ^ nbits
  if v < 2 ^ 32 then some (BitVec.ofNat 32 v) else none

/-- The command the decoder reads from such a word, none where it refuses. -/
def decodeTableWord (nbits w : Nat) : Option Instr :=
  match tableWord nbits w with
  | none => none
  | some v =>
    match decode v with
    | .instr i => some i
    | .illegal _ => none

end Sys2Proof
end

