-- ==== Sys2Proof/Config.lean ====
section
/-! DEFINITION. What is fixed when a block is built and the spec leaves OPEN (spec/00_scope.md R7): the capacities,
the version keys and the five line matchers. `Config.params` is one opaque set of them: nothing in Lean can say
what it is, so a claim that is proved holds for every block. -/

namespace Sys2Proof

/-- The seven header fields of R153, in the order of their ids 0 to 6. -/
inductive FieldId
  | scale
  | bitsPerPixel
  | timestamp
  | source
  | filter
  | logicGateName
  | logicOperand
deriving DecidableEq, Repr

/-- The type of a field's value (R153): an integer below 2^32, a byte string, or a byte. -/
abbrev FieldId.Val : FieldId → Type
  | .scale => Word
  | .bitsPerPixel => Word
  | .timestamp => Bytes
  | .source => Bytes
  | .filter => Bytes
  | .logicGateName => Bytes
  | .logicOperand => Byte

/-- The three rows of the version table (R152). -/
inductive Version
  | a
  | b
  | c
deriving DecidableEq, Repr

/-- The OPEN parameters of R7. A capacity is held as its value less one, so that its range (1 to 2^32 - 1, or 1 to
65535 for `STR_MAX`) holds by its type; the keys are made legal by `Params.key` below. The matchers are total
functions on lines (R151), `fieldMatch` giving a value already typed and in range. -/
structure Params where
  pbufTop : Fin 4294967295
  pixqTop : Fin 4294967295
  cbufTop : Fin 4294967295
  obufTop : Fin 4294967295
  lbufTop : Fin 4294967295
  strTop : Fin 65535
  rawKeyA : Bytes
  rawKeyB : Bytes
  rawKeyC : Bytes
  dimMatch : Bytes → Bool
  openMatch : Bytes → Bool
  verMatch : Bytes → Option Bytes
  fieldMatch : (f : FieldId) → Bytes → Option f.Val
  closeMatch : Bytes → Bool
deriving Inhabited

/-- The parameters of the block (R7, DESIGN CHOICE of log 5: one opaque constant). -/
opaque Config.params : Params

/-- `PBUF_SIZE`, capacity of the payload buffer in bytes (R7). -/
def Params.pbufSize (p : Params) : Nat := p.pbufTop.val + 1

/-- `PIXQ_SIZE`, capacity of the pixel queue in pixels (R7). -/
def Params.pixqSize (p : Params) : Nat := p.pixqTop.val + 1

/-- `CBUF_SIZE`, capacity of the channel-integer buffer (R7). -/
def Params.cbufSize (p : Params) : Nat := p.cbufTop.val + 1

/-- `OBUF_SIZE`, capacity of the output byte queue (R7). -/
def Params.obufSize (p : Params) : Nat := p.obufTop.val + 1

/-- `LBUF_SIZE`, capacity of the line buffer in bytes (R7). -/
def Params.lbufSize (p : Params) : Nat := p.lbufTop.val + 1

/-- `STR_MAX`, capacity of each string register in bytes (R7). -/
def Params.strMax (p : Params) : Nat := p.strTop.val + 1

/-- The keys are pairwise distinct and each at most `STR_MAX` bytes (R7, R152). -/
def Params.keysLegal (p : Params) : Bool :=
  decide (p.rawKeyA ≠ p.rawKeyB ∧ p.rawKeyA ≠ p.rawKeyC ∧ p.rawKeyB ≠ p.rawKeyC ∧
    p.rawKeyA.length ≤ p.strMax ∧ p.rawKeyB.length ≤ p.strMax ∧ p.rawKeyC.length ≤ p.strMax)

/-- `VKEY_A`, `VKEY_B`, `VKEY_C` (R152). Keys that break R7's condition are replaced by three that keep it, so
that the condition holds of every parameter set and every legal choice of keys is reached (log 6). -/
def Params.key (p : Params) : Version → Bytes
  | .a => if p.keysLegal then p.rawKeyA else []
  | .b => if p.keysLegal then p.rawKeyB else [0]
  | .c => if p.keysLegal then p.rawKeyC else [1]

end Sys2Proof
end

