-- ==== Sys2Proof/Machine/State.lean ====
section
/-! DEFINITION. The state of the block: every register and memory of spec/10_state.md, what the host presents on its
ports, and the last response; and the state after reset (spec/70_reset_and_hazards.md R281). -/

namespace Sys2Proof.Machine

/-- The four response statuses (spec/30_encoding.md R83); `RespStatus.code` gives their 2-bit codes. -/
inductive RespStatus
  /-- Code 0: the command executed. -/
  | ok
  /-- Code 1: it executed and found nothing to return. -/
  | empty
  /-- Code 2: it raised a fault. -/
  | err
  /-- Code 3: the block was already faulted and the command was not executed. -/
  | dead
deriving DecidableEq, Repr

/-- A response `(st, data)` (R83). -/
structure Response where
  st : RespStatus
  data : Word
deriving DecidableEq, Repr

/-- A pixel (spec/41_encode.md R111): three channels and `nv`, how many of them consumed payload. -/
structure Pixel where
  nv : BitVec 2
  r : Byte
  g : Byte
  b : Byte
deriving DecidableEq, Repr

/-- A BitCursor: the registers `BYTEIDX` and `BITIDX` (R22, R100). -/
structure Cursor where
  byteIdx : BitVec 32
  bitIdx : BitVec 3
deriving DecidableEq, Repr

/-- The five memory spaces (R32), each the list of its entries from index 0 up; the length of a list is the space's
length register (R27). Entries at or beyond the length do not exist (log 8). -/
structure Memory where
  pbuf : List Byte
  pixq : List Pixel
  cbuf : List Byte
  obuf : List Byte
  lbuf : List Byte
deriving DecidableEq, Repr

/-- No space holds more entries than its capacity (R34). Two memories with the same entries are the same data. -/
abbrev Memory.wf (p : Params) (m : Memory) : Prop :=
  m.pbuf.length ≤ p.pbufSize ∧ m.pixq.length ≤ p.pixqSize ∧ m.cbuf.length ≤ p.cbufSize ∧
    m.obuf.length ≤ p.obufSize ∧ m.lbuf.length ≤ p.lbufSize

/-- The parser's states (spec/43_header.md R154), in the order of their codes 0 to 4 (R28). -/
inductive HState
  | scanDimensions
  | scanCommentOpen
  | scanVersion
  | scanFields
  | done
deriving DecidableEq, Repr

/-- The header parser's registers: sequencing (R28), integer fields (R29) and string registers (R31), the length of
each string being its `SLEN`. -/
structure HdrRegs where
  hstate : HState
  fidx : BitVec 3
  fcnt : BitVec 3
  veridx : BitVec 2
  hvalid : BitVec 7
  scale : Word
  bpp : Word
  operand : Byte
  timestamp : Bytes
  source : Bytes
  filter : Bytes
  gateName : Bytes
  formatVersion : Bytes
deriving DecidableEq, Repr

/-- What the host does at the block's ports (R292): presents a command word, or pulses `RESET` (R280, log 4). -/
inductive PortEvent
  | command (w : Word)
  | reset
deriving DecidableEq, Repr

/-- The state of the block. `port` and `resp` are the two ports of R292: what the host presents, oldest first, and
the response of the last command; they are the model's own fields (log 1, log 2). -/
structure State where
  /-- `BYTEIDX`, `BITIDX` (R22). -/
  cursor : Cursor
  /-- `EMODE` (R23). -/
  emode : BitVec 8
  /-- PBUF, PIXQ, CBUF, OBUF, LBUF with their lengths (R27, R32). -/
  mem : Memory
  /-- `STATUS.FAULT` (R25). -/
  fault : Bool
  /-- `ERR` (R26). -/
  err : BitVec 4
  /-- `ERRINFO` (R26). -/
  errInfo : Word
  /-- The header parser (R28, R29, R31). -/
  hdr : HdrRegs
  /-- The command port and the `RESET` input: what the host presents, oldest first. -/
  port : List PortEvent
  /-- The response port: the last command's response, none before the first. -/
  resp : Option Response
deriving DecidableEq, Repr

/-- A fresh cursor, (0, 0) (R281). -/
def Cursor.zero : Cursor := { byteIdx := 0, bitIdx := 0 }

/-- All five spaces empty (R281). -/
def Memory.empty : Memory := { pbuf := [], pixq := [], cbuf := [], obuf := [], lbuf := [] }

/-- The parser armed in ScanDimensions with no header (R155, R281). -/
def HdrRegs.armed : HdrRegs :=
  { hstate := .scanDimensions, fidx := 0, fcnt := 0, veridx := 0, hvalid := 0, scale := 0, bpp := 0, operand := 0,
    timestamp := [], source := [], filter := [], gateName := [], formatVersion := [] }

/-- The state after reset (R281, R35), with nothing presented yet and no response yet (log 1, log 2). -/
def State.reset : State :=
  { cursor := Cursor.zero, emode := 0, mem := Memory.empty, fault := false, err := 0, errInfo := 0,
    hdr := HdrRegs.armed, port := [], resp := none }

/-- The ways a step could stop with a fault of the model. There are none: the step function of the block is total
(spec/70_reset_and_hazards.md R288, R293), and the faults of spec/60_exceptions.md are next states in which `FAULT`
is latched (R260). Nobody raises one, so nothing false can be proved from one (safe, log 17). -/
inductive Fault
deriving DecidableEq, Repr

/-- The ways a step could be refused. -/
inductive Refusal
  /-- Raised only by an arm of `exec` whose command has no meaning yet; no arm is such. Safe: the run stops. -/
  | notModelled (mnemonic : String)
deriving DecidableEq, Repr

end Sys2Proof.Machine
end

