-- ==== Sys2Proof/Machine/Cursor.lean ====
section
/-! DEFINITION. The BitCursor unit CUR: `Mask`, `Advance` and `AtEnd` (spec/40_cursor.md R100 to R104). -/

namespace Sys2Proof.Machine

/-- `Mask(b) = 0x80 >> b`: cursor bit index 0 is the most significant bit of a byte (R9, R61, R100). -/
def mask (b : BitVec 3) : Byte := (0x80 : Byte) >>> b.toNat

/-- The cursor read as one number, `8 * byteIndex + bitIndex` (R100). -/
def Cursor.pos (c : Cursor) : Nat := 8 * c.byteIdx.toNat + c.bitIdx.toNat

/-- The cursor at bit position `n`: `n div 8` and `n mod 8` (R101). -/
def Cursor.ofPos (n : Nat) : Cursor := { byteIdx := BitVec.ofNat 32 (n / 8), bitIdx := BitVec.ofNat 3 (n % 8) }

/-- `Advance(n)` (R101). -/
def Cursor.advance (n : Nat) (c : Cursor) : Cursor := Cursor.ofPos (c.pos + n)

/-- `AtEnd()` for a buffer of `len` bytes: the byte index is at or past its end (R102). -/
def Cursor.atEnd (len : Nat) (c : Cursor) : Bool := decide (len ≤ c.byteIdx.toNat)

/-- The byte under the cursor, none at the end: no rule reads past it (R66, R103). -/
def byteUnder (buf : List Byte) (c : Cursor) : Option Byte := buf[c.byteIdx.toNat]?

end Sys2Proof.Machine
end

