-- ==== Sys2Proof/Machine/Ops.lean ====
section
/-! DEFINITION. The shared operations: reading and writing the memory spaces (spec/20_memory.md R60), responding
(spec/30_encoding.md R83), entering the faulted state and leaving it (spec/60_exceptions.md R260 to R263), and
taking the next event from the ports (spec/70_reset_and_hazards.md R292). -/

namespace Sys2Proof.Machine

/-! ## Memory spaces -/

/-- The four spaces whose entries are bytes (R32). -/
inductive ByteSpace
  | pbuf
  | cbuf
  | obuf
  | lbuf
deriving DecidableEq, Repr

/-- The entries of a byte space. -/
def Memory.bytes (m : Memory) : ByteSpace → List Byte
  | .pbuf => m.pbuf
  | .cbuf => m.cbuf
  | .obuf => m.obuf
  | .lbuf => m.lbuf

/-- The memory with the entries of one byte space replaced. -/
def Memory.setBytes (m : Memory) (l : List Byte) : ByteSpace → Memory
  | .pbuf => { m with pbuf := l }
  | .cbuf => { m with cbuf := l }
  | .obuf => { m with obuf := l }
  | .lbuf => { m with lbuf := l }

/-- `MemRead(S:i, 1)`: the entry at index `i`, none at or beyond the length (R10, R32, R60). -/
def Memory.read (m : Memory) (sp : ByteSpace) (i : Nat) : Option Byte := (m.bytes sp)[i]?

/-- `MemRead(PIXQ:i, 1)` (R10, R60). -/
def Memory.readPixel (m : Memory) (i : Nat) : Option Pixel := m.pixq[i]?

/-- `Append(S, v)`: a write at the length, which grows by one (R10, R60). -/
def Memory.append (m : Memory) (sp : ByteSpace) (b : Byte) : Memory := m.setBytes (m.bytes sp ++ [b]) sp

/-- The length register of a byte space, 32 bits (R27). -/
def lengthReg (m : Memory) (sp : ByteSpace) : Word := BitVec.ofNat 32 (m.bytes sp).length

/-! ## Responses and faults -/

/-- `Resp(st, data)` (R83). -/
def respond (st : RespStatus) (data : Word) (s : State) : State := { s with resp := some { st, data } }

/-- The named causes of R250. -/
inductive Cause
  | formatError
  | unknownVersionError
  | headerIncompleteError
  | noTerminatorError
  | boundsError
  | operandError
  | ioError
  | capacityFault
  | illegalCommand
deriving DecidableEq, Repr

/-- The code of a cause (R250). -/
def Cause.code : Cause → BitVec 4
  | .formatError => 1
  | .unknownVersionError => 2
  | .headerIncompleteError => 3
  | .noTerminatorError => 4
  | .boundsError => 5
  | .operandError => 6
  | .ioError => 7
  | .capacityFault => 8
  | .illegalCommand => 9

/-- Fault entry with a cause code and an information word (R260, R266): the fault registers and the response, and
nothing else. -/
def latch (code : BitVec 4) (info : Word) (s : State) : State :=
  { s with fault := true, err := code, errInfo := info, resp := some { st := .err, data := code.setWidth 32 } }

/-- `raise E(info)` (R260). -/
def raise (c : Cause) (info : Word) (s : State) : State := latch c.code info s

/-- A command that does not execute in the faulted state: there it is answered `(DEAD, ERR)` and changes nothing
(R86 step 1, R261). -/
def whenHealthy (f : State → State) (s : State) : State :=
  if s.fault then respond .dead (s.err.setWidth 32) s else f s

/-- A word that matches no row of the opcode table (R85, R86 step 3, R259). -/
def illegalCommand (w : Word) (s : State) : State := whenHealthy (raise .illegalCommand w) s

/-- The way out of the faulted state (R263): every register and length takes its reset value (R35, R281); what the
host has yet to present, and the response port, are not the block's state. -/
def resetBlock (s : State) : State := { State.reset with port := s.port, resp := s.resp }

/-- A pulse of the `RESET` input (R280): the reset state, with no response, since no command was taken (log 4). -/
def hardReset (s : State) : State := { resetBlock s with resp := none }

/-! ## Buffers -/

/-- The buffer id that `CapacityFault` carries for a byte space (R250, R258). -/
def ByteSpace.bufferId : ByteSpace → Word
  | .pbuf => 1
  | .cbuf => 2
  | .lbuf => 3
  | .obuf => 4

/-- Append one byte to a space of the given capacity, or `CapacityFault` when it is full (R67, R181, R183, R185). -/
def pushByte (sp : ByteSpace) (size : Nat) (b : Byte) (s : State) : State :=
  if (s.mem.bytes sp).length = size then raise .capacityFault sp.bufferId s
  else respond .ok 0 { s with mem := s.mem.append sp b }

/-- Set a space's length to 0 (R180, R182, R184). -/
def clearBytes (sp : ByteSpace) (s : State) : State := respond .ok 0 { s with mem := s.mem.setBytes [] sp }

/-! ## The ports -/

/-- The next event at the ports and the state without it, none when the host presents nothing (R292, log 1). -/
def takeEvent (s : State) : Option (PortEvent × State) :=
  match s.port with
  | [] => none
  | e :: rest => some (e, { s with port := rest })

/-- The `FAULT` output line, equal to `STATUS.FAULT` at all times (R265). -/
def faultLine (s : State) : Bool := s.fault

end Sys2Proof.Machine
end

