-- ==== Sys2Proof/Machine/Flags.lean ====
section
/-! DEFINITION. The flags of `STATUS` (spec/10_state.md R25): only `FAULT` is stored, the others are computed. -/

namespace Sys2Proof.Machine

/-- `E_ATEND`, bit 1: `BYTEIDX ≥ PLEN` (R25, R102). -/
def flagEAtEnd (s : State) : Bool := s.cursor.atEnd s.mem.pbuf.length

/-- `H_DONE`, bit 2: `HSTATE = 4` (R25). -/
def flagHDone (s : State) : Bool := decide (s.hdr.hstate = .done)

/-- `PQ_NE`, bit 3: `PQCNT > 0` (R25). -/
def flagPqNe (s : State) : Bool := decide (0 < s.mem.pixq.length)

/-- `OB_NE`, bit 4: `OLEN > 0` (R25). -/
def flagObNe (s : State) : Bool := decide (0 < s.mem.obuf.length)

/-- `STATUS`: bits 31:5 read as 0 (R25). -/
def statusWord (s : State) : Word :=
  (0 : BitVec 27) ++ BitVec.ofBool (flagObNe s) ++ BitVec.ofBool (flagPqNe s) ++ BitVec.ofBool (flagHDone s) ++
    BitVec.ofBool (flagEAtEnd s) ++ BitVec.ofBool s.fault

end Sys2Proof.Machine
end

