-- ==== Sys2Proof/Machine/Operands.lean ====
section
/-! DEFINITION. What operands and register contents stand for: modes (spec/41_encode.md R110), packed pixels (R111),
register addresses (spec/10_state.md R30), string selectors (R31), parser state codes and field ids (R28, R153). -/

namespace Sys2Proof.Machine

/-! ## Modes -/

/-- `ValidMode(m)`: 1, or a multiple of 3 from 3 to 24 (R110). -/
def validMode (m : Nat) : Bool := decide (m = 1 ∨ (m % 3 = 0 ∧ 3 ≤ m ∧ m ≤ 24))

/-- `K(m) = m div 3`, the payload bits per channel (R110). -/
def bitsPerChannel (m : Nat) : Nat := m / 3

/-! ## Pixels -/

/-- The 26-bit pixel, `nv` in bits 25:24, `r` in 23:16, `g` in 15:8, `b` in 7:0 (R111). -/
def Pixel.pack (px : Pixel) : BitVec 26 := px.nv ++ px.r ++ px.g ++ px.b

/-- The pixel in a 32-bit response, as `Pixel.pack` lays it out (R111, R186). -/
def Pixel.unpack (data : Word) : Pixel :=
  { nv := data.extractLsb' 24 2, r := data.extractLsb' 16 8, g := data.extractLsb' 8 8, b := data.extractLsb' 0 8 }

/-- The full channel integers: all three, in the order r, g, b (R111). -/
def Pixel.fullInts (px : Pixel) : List Byte := [px.r, px.g, px.b]

/-- The channel integers: the first `nv` channels (R111). -/
def Pixel.chanInts (px : Pixel) : List Byte := px.fullInts.take px.nv.toNat

/-! ## The header parser's codes -/

/-- The code of a parser state in `HSTATE` (R28). -/
def HState.code : HState → BitVec 3
  | .scanDimensions => 0
  | .scanCommentOpen => 1
  | .scanVersion => 2
  | .scanFields => 3
  | .done => 4

/-- The field with a given id; ids run from 0 to 6 (R153). -/
def fieldOfId (n : Nat) : Option FieldId :=
  match n with
  | 0 => some .scale
  | 1 => some .bitsPerPixel
  | 2 => some .timestamp
  | 3 => some .source
  | 4 => some .filter
  | 5 => some .logicGateName
  | 6 => some .logicOperand
  | _ => none

/-- `VERIDX` of a version (R152). -/
def versionIndex : Version → BitVec 2
  | .a => 0
  | .b => 1
  | .c => 2

/-- `FCNT` of a version: how many fields it requires (R152). -/
def versionFields : Version → BitVec 3
  | .a => 2
  | .b => 5
  | .c => 7

/-- `Lookup(v)`: the version whose key equals `v` byte for byte, or none (R152). -/
def lookupVersion (p : Params) (v : Bytes) : Option Version :=
  if v = p.key .a then some .a
  else if v = p.key .b then some .b
  else if v = p.key .c then some .c
  else none

/-! ## Response statuses -/

/-- `st`, the 2 bits of a response's status (R83). -/
def RespStatus.code : RespStatus → BitVec 2
  | .ok => 0
  | .empty => 1
  | .err => 2
  | .dead => 3

/-! ## Register addresses and string selectors -/

/-- The identity word (R30). -/
def idWord : Word := 0x474E5601

/-- The string register a selector names (R31). -/
def stringReg (h : HdrRegs) (sel : BitVec 4) : Option Bytes :=
  match sel.toNat with
  | 2 => some h.timestamp
  | 3 => some h.source
  | 4 => some h.filter
  | 5 => some h.gateName
  | 8 => some h.formatVersion
  | _ => none

/-- `SLEN[sel]`, 16 bits, zero-extended (R30, R31). -/
def slen (str : Bytes) : Word := (BitVec.ofNat 16 str.length).setWidth 32

/-- The register at an address of R30's map, zero-extended to 32 bits; none at an unassigned address. -/
def readReg (s : State) (addr : Byte) : Option Word :=
  match addr.toNat with
  | 0x00 => some idWord
  | 0x01 => some (statusWord s)
  | 0x02 => some (s.err.setWidth 32)
  | 0x03 => some s.errInfo
  | 0x04 => some (s.emode.setWidth 32)
  | 0x05 => some s.cursor.byteIdx
  | 0x06 => some (s.cursor.bitIdx.setWidth 32)
  | 0x07 => some (lengthReg s.mem .pbuf)
  | 0x08 => some (BitVec.ofNat 32 s.mem.pixq.length)
  | 0x09 => some (lengthReg s.mem .cbuf)
  | 0x0A => some (lengthReg s.mem .obuf)
  | 0x0B => some (lengthReg s.mem .lbuf)
  | 0x10 => some (s.hdr.hstate.code.setWidth 32)
  | 0x11 => some (s.hdr.fidx.setWidth 32)
  | 0x12 => some (s.hdr.fcnt.setWidth 32)
  | 0x13 => some (s.hdr.veridx.setWidth 32)
  | 0x14 => some (s.hdr.hvalid.setWidth 32)
  | 0x15 => some s.hdr.scale
  | 0x16 => some s.hdr.bpp
  | 0x17 => some (s.hdr.operand.setWidth 32)
  | 0x22 => some (slen s.hdr.timestamp)
  | 0x23 => some (slen s.hdr.source)
  | 0x24 => some (slen s.hdr.filter)
  | 0x25 => some (slen s.hdr.gateName)
  | 0x28 => some (slen s.hdr.formatVersion)
  | _ => none

/-- The byte `RD.STR sel, idx` reads; none for a bad selector or an index at or beyond `SLEN[sel]` (R203). -/
def readString (h : HdrRegs) (sel : BitVec 4) (idx : BitVec 16) : Option Byte :=
  match stringReg h sel with
  | none => none
  | some str => str[idx.toNat]?

/-- Answer `(OK, data)` where there is something to return and `(EMPTY, 0)` where there is not (R83). -/
def respondWith (found : Option Word) (s : State) : State :=
  match found with
  | some data => respond .ok data s
  | none => respond .empty 0 s

end Sys2Proof.Machine
end

