-- ==== Sys2Proof/Machine/Buffers.lean ====
section
/-! DEFINITION. The buffer commands PB.*, CB.*, LB.*, PQ.POP, OB.POP (spec/44_buffers.md). -/

namespace Sys2Proof.Machine

/-- `PB.CLR` on a healthy block: the payload goes and the cursor is rewound (R180). -/
def clearPayload (s : State) : State := clearBytes .pbuf { s with cursor := Cursor.zero }

/-- `PB.CLR` (R180). -/
def execPbClr (s : State) : Host.Outcome State Fault Refusal :=
  .next (whenHealthy clearPayload s)

/-- `PB.PUSH imm8` (R181). -/
def execPbPush (imm8 : BitVec 8) (s : State) : Host.Outcome State Fault Refusal :=
  .next (whenHealthy (pushByte .pbuf Config.params.pbufSize imm8) s)

/-- `CB.CLR` (R182). -/
def execCbClr (s : State) : Host.Outcome State Fault Refusal :=
  .next (whenHealthy (clearBytes .cbuf) s)

/-- `CB.PUSH imm8` (R183). -/
def execCbPush (imm8 : BitVec 8) (s : State) : Host.Outcome State Fault Refusal :=
  .next (whenHealthy (pushByte .cbuf Config.params.cbufSize imm8) s)

/-- `LB.CLR` (R184). -/
def execLbClr (s : State) : Host.Outcome State Fault Refusal :=
  .next (whenHealthy (clearBytes .lbuf) s)

/-- `LB.PUSH imm8` (R185). -/
def execLbPush (imm8 : BitVec 8) (s : State) : Host.Outcome State Fault Refusal :=
  .next (whenHealthy (pushByte .lbuf Config.params.lbufSize imm8) s)

/-- `PQ.POP`: `PopFront(PIXQ)` and the pixel packed, or EMPTY (R186). -/
def popPixel (s : State) : State :=
  match s.mem.pixq with
  | [] => respond .empty 0 s
  | px :: rest => respond .ok (px.pack.setWidth 32) { s with mem.pixq := rest }

/-- `PQ.POP` (R186), in the faulted state too (R262). -/
def execPqPop (s : State) : Host.Outcome State Fault Refusal :=
  .next (popPixel s)

/-- `OB.POP`: `PopFront(OBUF)`, or EMPTY (R187). -/
def popOutput (s : State) : State :=
  match s.mem.obuf with
  | [] => respond .empty 0 s
  | v :: rest => respond .ok (v.setWidth 32) { s with mem.obuf := rest }

/-- `OB.POP` (R187), in the faulted state too (R262). -/
def execObPop (s : State) : Host.Outcome State Fault Refusal :=
  .next (popOutput s)

end Sys2Proof.Machine
end

