-- ==== Sys2Proof/Machine/Codec.lean ====
section
/-! DEFINITION. The pixel codec as functions on buffers: the encoder's pixel step and its iterations
(spec/41_encode.md R113 to R120), and the three decoders (spec/42_decode.md R130, R135 to R139). -/

namespace Sys2Proof.Machine

/-! ## Encoding -/

/-- `Chan(k)` from the accumulator `c`: OR together the next `k` payload bits, each at its own position, stopping
at the end of the payload (R116). -/
def chan (buf : List Byte) : (k : Nat) → (c : Byte) → Cursor → Byte × Cursor
  | 0, c, cur => (c, cur)
  | k + 1, c, cur =>
    match byteUnder buf cur with
    | none => (c, cur)
    | some b => chan buf k (c ||| (b &&& mask cur.bitIdx)) (cur.advance 1)

/-- `NextPixel()` for the modes 3k: three channels in turn, `nv` always 3 (R117). -/
def nextPixelGrouped (buf : List Byte) (k : Nat) (cur : Cursor) : Pixel × Cursor :=
  let (r, cur1) := chan buf k 0 cur
  let (g, cur2) := chan buf k 0 cur1
  let (b, cur3) := chan buf k 0 cur2
  ({ nv := 3, r, g, b }, cur3)

/-- `NextPixel()` for mode 1: white if the bit under the cursor is set, else black (R115). At the end, where R113
never calls it, it takes nothing. -/
def nextPixelMono (buf : List Byte) (cur : Cursor) : Pixel × Cursor :=
  match byteUnder buf cur with
  | none => ({ nv := 3, r := 0, g := 0, b := 0 }, cur)
  | some v =>
    let ch : Byte := if v &&& mask cur.bitIdx = 0 then 0x00 else 0xFF
    ({ nv := 3, r := ch, g := ch, b := ch }, cur.advance 1)

/-- One channel of mode 24: a whole byte if there is one, else 0 and nothing consumed (R114). -/
def takeByte (buf : List Byte) (cur : Cursor) : Byte × BitVec 2 × Cursor :=
  match byteUnder buf cur with
  | none => (0, 0, cur)
  | some v => (v, 1, cur.advance 8)

/-- `NextPixel()` for mode 24: up to three bytes, `nv` counting them (R114). -/
def nextPixelBytes (buf : List Byte) (cur : Cursor) : Pixel × Cursor :=
  let (r, n0, cur1) := takeByte buf cur
  let (g, n1, cur2) := takeByte buf cur1
  let (b, n2, cur3) := takeByte buf cur2
  ({ nv := n0 + n1 + n2, r, g, b }, cur3)

/-- `NextPixel()`, dispatched on the mode (R113). -/
def nextPixel (buf : List Byte) (m : Nat) (cur : Cursor) : Pixel × Cursor :=
  if m = 24 then nextPixelBytes buf cur
  else if m = 1 then nextPixelMono buf cur
  else nextPixelGrouped buf (bitsPerChannel m) cur

/-- The loop of `ENC.RUN`: pixels while payload is left and the queue has room, and the cursor after them (R119).
The first argument bounds the turns; `8 * PLEN` is enough, each turn consuming a bit (R113, log 12). -/
def encodeRun (buf : List Byte) (m : Nat) : (turns : Nat) → (room : Nat) → Cursor → List Pixel × Cursor
  | 0, _, cur => ([], cur)
  | turns + 1, room, cur =>
    if cur.atEnd buf.length = false ∧ 0 < room then
      let (px, cur1) := nextPixel buf m cur
      let (rest, cur2) := encodeRun buf m turns (room - 1) cur1
      (px :: rest, cur2)
    else ([], cur)

/-- The pixels that repeated `NextPixel()` returns from a cursor until the end of the payload (R120). -/
def encodeFrom (buf : List Byte) (m : Nat) : (turns : Nat) → Cursor → List Pixel
  | 0, _ => []
  | turns + 1, cur =>
    if cur.atEnd buf.length then []
    else
      let (px, cur1) := nextPixel buf m cur
      px :: encodeFrom buf m turns cur1

/-- `Encode(p, m)`: the pixels from cursor (0, 0) (R120). -/
def codecEncode (p : List Byte) (m : Nat) : List Pixel := encodeFrom p m (8 * p.length) Cursor.zero

/-! ## Decoding -/

/-- The decoder's transient state (R33): the accumulating byte, the shift counter modulo 8, the bytes completed. -/
structure DecAcc where
  acc : Byte
  s : BitVec 3
  out : List Byte
deriving DecidableEq, Repr

/-- The decoder's state at the start of a decode (R136, R137). -/
def DecAcc.start : DecAcc := { acc := 0, s := 0, out := [] }

/-- Take the bit of `v` at the position the shift counter names, keeping it there; when the counter wraps, the byte
is complete (R136). -/
def DecAcc.takeBit (v : Byte) (a : DecAcc) : DecAcc :=
  let acc := a.acc ||| (v &&& mask a.s)
  if a.s + 1 = 0 then { acc := 0, s := 0, out := a.out ++ [acc] }
  else { acc, s := a.s + 1, out := a.out }

/-- Take `k` bits of one integer (R136). -/
def DecAcc.takeBits (v : Byte) : (k : Nat) → DecAcc → DecAcc
  | 0, a => a
  | k + 1, a => DecAcc.takeBits v k (a.takeBit v)

/-- The end of the input: a nonzero partial byte is emitted, an all-zero one is dropped (R137, R139). -/
def DecAcc.finish (a : DecAcc) : List Byte :=
  if a.s ≠ 0 ∧ a.acc ≠ 0 then a.out ++ [a.acc] else a.out

/-- `Decode(c, 3k)` for k from 1 to 7 (R136). -/
def decodeGrouped (k : Nat) (c : List Byte) : List Byte :=
  (c.foldl (fun a v => a.takeBits v k) DecAcc.start).finish

/-- The red channels: the first of each triple, the first of a short last group too (R137). -/
def redSamples : List Byte → List Byte
  | [] => []
  | [r] => [r]
  | [r, _] => [r]
  | r :: _ :: _ :: rest => r :: redSamples rest

/-- `Decode(c, 1)`: sample `j` sets bit `7 - (j mod 8)` when it is nonzero (R137). -/
def decodeMono (c : List Byte) : List Byte :=
  ((redSamples c).foldl (fun a r => a.takeBit (if r = 0 then 0x00 else 0xFF)) DecAcc.start).finish

/-- `Decode(c, m)` for a valid mode: a copy for 24 (R135), R137 for 1, R136 for the others (R130, R133). -/
def codecDecode (c : List Byte) (m : Nat) : List Byte :=
  if m = 24 then c
  else if m = 1 then decodeMono c
  else decodeGrouped (bitsPerChannel m) c

end Sys2Proof.Machine
end

