-- ==== Sys2Proof/Machine/Decoder.lean ====
section
/-! DEFINITION. The decoder commands DEC.RUN, DEC.RUNH (spec/42_decode.md). -/

namespace Sys2Proof.Machine

/-- The shared body of both decodes (R131, R133): the mode check first, then the capacity of OBUF, then all the bytes
at once. The mode is a natural number, its information word `m` zero-extended. -/
def decodeAt (size : Nat) (m : Nat) (s : State) : State :=
  if validMode m then
    let out := codecDecode s.mem.cbuf m
    if size < s.mem.obuf.length + out.length then raise .capacityFault ByteSpace.obuf.bufferId s
    else respond .ok (BitVec.ofNat 32 out.length) { s with mem.obuf := s.mem.obuf ++ out }
  else raise .formatError (BitVec.ofNat 32 m) s

/-- `DEC.RUN mode24` (R131). -/
def execDecRun (mode24 : BitVec 24) (s : State) : Host.Outcome State Fault Refusal :=
  .next (whenHealthy (decodeAt Config.params.obufSize mode24.toNat) s)

/-- `HVALID[1]`: the BitsPerPixel field has been stored (R28, R132). -/
def bppKnown (s : State) : Bool := s.hdr.hvalid.getLsbD 1

/-- `DEC.RUNH` on a healthy block: the mode is `HDR_BPP`, and `FormatError(0)` where the header has not supplied it
(R132). -/
def decodeAtHeader (size : Nat) (s : State) : State :=
  if bppKnown s then decodeAt size s.hdr.bpp.toNat s else raise .formatError 0 s

/-- `DEC.RUNH` (R132). -/
def execDecRunh (s : State) : Host.Outcome State Fault Refusal :=
  .next (whenHealthy (decodeAtHeader Config.params.obufSize) s)

end Sys2Proof.Machine
end

