-- ==== Sys2Proof/Machine/Encoder.lean ====
section
/-! DEFINITION. The encoder commands ENC.START, ENC.PIX, ENC.RUN (spec/41_encode.md). -/

namespace Sys2Proof.Machine

/-- `ENC.START m` on a healthy block (R112): `m[7:0]` is latched and the cursor starts at (0, 0). -/
def startEncode (m : BitVec 24) (s : State) : State :=
  if validMode m.toNat then respond .ok 0 { s with emode := m.setWidth 8, cursor := Cursor.zero }
  else raise .formatError (m.setWidth 32) s

/-- `ENC.START mode24` (R112). -/
def execEncStart (mode24 : BitVec 24) (s : State) : Host.Outcome State Fault Refusal :=
  .next (whenHealthy (startEncode mode24) s)

/-- A command that needs a latched mode: `FormatError(EMODE)` when there is none (R118, R119, R251). -/
def withMode (f : Nat → State → State) (s : State) : State :=
  if validMode s.emode.toNat then f s.emode.toNat s else raise .formatError (s.emode.setWidth 32) s

/-- `ENC.PIX` at a valid mode: EMPTY at the end of the payload, else the next pixel in the response (R118). -/
def onePixel (m : Nat) (s : State) : State :=
  if s.cursor.atEnd s.mem.pbuf.length then respond .empty 0 s
  else
    let (px, cur) := nextPixel s.mem.pbuf m s.cursor
    respond .ok (px.pack.setWidth 32) { s with cursor := cur }

/-- `ENC.PIX` (R118). -/
def execEncPix (s : State) : Host.Outcome State Fault Refusal :=
  .next (whenHealthy (withMode onePixel) s)

/-- `ENC.RUN` at a valid mode: pixels are appended to PIXQ until the payload is exhausted or the queue holds `size`
of them; the response counts them (R119). -/
def runEncode (size : Nat) (m : Nat) (s : State) : State :=
  let (pixels, cur) := encodeRun s.mem.pbuf m (8 * s.mem.pbuf.length) (size - s.mem.pixq.length) s.cursor
  respond .ok (BitVec.ofNat 32 pixels.length) { s with mem.pixq := s.mem.pixq ++ pixels, cursor := cur }

/-- `ENC.RUN` (R119). -/
def execEncRun (s : State) : Host.Outcome State Fault Refusal :=
  .next (whenHealthy (withMode (runEncode Config.params.pixqSize)) s)

end Sys2Proof.Machine
end

