-- ==== Sys2Proof/Machine/Parser.lean ====
section
/-! DEFINITION. One step of the header parser on a line (spec/43_header.md R156 to R162), and the store of a matched
field (R164), over a parameter set. -/

namespace Sys2Proof.Machine

/-- What a line does to the parser (R156): the registers after it and whether the line was taken, or the fault. -/
inductive LineResult
  | stepped (hit : Bool) (h : HdrRegs)
  | raised (c : Cause) (info : Word)
deriving DecidableEq, Repr

/-- `Store(f, val)`: the registers with the field stored, none when a string is longer than `STR_MAX` (R164). -/
def storeField (strMax : Nat) : (f : FieldId) → f.Val → HdrRegs → Option HdrRegs
  | .scale, v, h => some { h with scale := v }
  | .bitsPerPixel, v, h => some { h with bpp := v }
  | .timestamp, v, h => if strMax < v.length then none else some { h with timestamp := v }
  | .source, v, h => if strMax < v.length then none else some { h with source := v }
  | .filter, v, h => if strMax < v.length then none else some { h with filter := v }
  | .logicGateName, v, h => if strMax < v.length then none else some { h with gateName := v }
  | .logicOperand, v, h => some { h with operand := v }

/-- `HVALID[FIDX] <- 1 ; FIDX <- FIDX + 1` (R160). -/
def markStored (h : HdrRegs) : HdrRegs :=
  { h with hvalid := h.hvalid ||| ((1 : BitVec 7) <<< h.fidx.toNat), fidx := h.fidx + 1 }

/-- State ScanFields, the non-match: the comment-close test (R161). -/
def scanClose (p : Params) (line : Bytes) (h : HdrRegs) : LineResult :=
  if p.closeMatch line then
    if h.fidx < h.fcnt then .raised .headerIncompleteError (h.fidx.setWidth 32)
    else .stepped true { h with hstate := .done }
  else .stepped false h

/-- The field the parser waits for, none when every required field is stored (R160). -/
def expectedField (h : HdrRegs) : Option FieldId :=
  if h.fidx < h.fcnt then fieldOfId h.fidx.toNat else none

/-- State ScanFields: the matcher of the next expected field first, then the comment-close test (R160, R161). -/
def scanFields (p : Params) (line : Bytes) (h : HdrRegs) : LineResult :=
  match expectedField h with
  | none => scanClose p line h
  | some f =>
    match p.fieldMatch f line with
    | none => scanClose p line h
    | some v =>
      match storeField p.strMax f v h with
      | none => .raised .capacityFault 5
      | some stored => .stepped true (markStored stored)

/-- State ScanVersion: a version tag is looked up; a line that is none is skipped (R159). -/
def scanVersion (p : Params) (line : Bytes) (h : HdrRegs) : LineResult :=
  match p.verMatch line with
  | none => .stepped false h
  | some v =>
    match lookupVersion p v with
    | none => .raised .unknownVersionError 0
    | some ver =>
      .stepped true
        { h with formatVersion := v, veridx := versionIndex ver, fcnt := versionFields ver, fidx := 0,
                 hstate := .scanFields }

/-- One parser step on a line, by the state it meets (R156 to R162). -/
def parseLine (p : Params) (line : Bytes) (h : HdrRegs) : LineResult :=
  match h.hstate with
  | .scanDimensions => if p.dimMatch line then .stepped true { h with hstate := .scanCommentOpen } else .stepped false h
  | .scanCommentOpen => if p.openMatch line then .stepped true { h with hstate := .scanVersion } else .stepped false h
  | .scanVersion => scanVersion p line h
  | .scanFields => scanFields p line h
  | .done => .stepped false h

/-- The data of the `HDR.LINE` response: `hit` in bit 8, five zero bits, `HSTATE` after the step in bits 2:0
(R156). -/
def lineData (hit : Bool) (st : HState) : Word :=
  (BitVec.ofBool hit ++ (0 : BitVec 5) ++ st.code).setWidth 32

end Sys2Proof.Machine
end

