-- ==== Sys2Proof/Machine/Header.lean ====
section
/-! DEFINITION. The header commands HDR.START, HDR.LINE, HDR.EOS (spec/43_header.md). -/

namespace Sys2Proof.Machine

/-- `HDR.START` on a healthy block: the old header is discarded whole and the parser armed; LBUF is not touched
(R155). -/
def startHeader (s : State) : State := respond .ok 0 { s with hdr := HdrRegs.armed }

/-- `HDR.START` (R155). -/
def execHdrStart (s : State) : Host.Outcome State Fault Refusal :=
  .next (whenHealthy startHeader s)

/-- `HDR.LINE` on a healthy block: the line in LBUF goes to the parser, and LBUF is emptied unless a rule raised
(R156). -/
def presentLine (p : Params) (s : State) : State :=
  match parseLine p s.mem.lbuf s.hdr with
  | .raised c info => raise c info s
  | .stepped hit h => respond .ok (lineData hit h.hstate) { s with hdr := h, mem.lbuf := [] }

/-- `HDR.LINE` (R156). -/
def execHdrLine (s : State) : Host.Outcome State Fault Refusal :=
  .next (whenHealthy (presentLine Config.params) s)

/-- `HDR.EOS` on a healthy block: `NoTerminatorError(HSTATE)` before Done (R163). -/
def endOfStream (s : State) : State :=
  if s.hdr.hstate = .done then respond .ok 0 s
  else raise .noTerminatorError (s.hdr.hstate.code.setWidth 32) s

/-- `HDR.EOS` (R163). -/
def execHdrEos (s : State) : Host.Outcome State Fault Refusal :=
  .next (whenHealthy endOfStream s)

end Sys2Proof.Machine
end

