-- ==== Sys2Proof/Machine/System.lean ====
section
/-! DEFINITION. The system commands SRST, ABORT, RD, RD.STR (spec/45_system.md). -/

namespace Sys2Proof.Machine

/-- `SRST` (R200), in the faulted state too (R262). -/
def execSrst (s : State) : Host.Outcome State Fault Refusal :=
  .next (respond .ok 0 (resetBlock s))

/-- `ABORT c` on a healthy block (R201): code 0 cannot be injected, and is `IllegalCommand` with the command's word
(log 14). -/
def abortWith (c : BitVec 4) (s : State) : State :=
  if c = 0 then raise .illegalCommand (encode (.abort c)) s else latch c 0 s

/-- `ABORT code4` (R201, R266). -/
def execAbort (code4 : BitVec 4) (s : State) : Host.Outcome State Fault Refusal :=
  .next (whenHealthy (abortWith code4) s)

/-- `RD imm8` (R202), in the faulted state too (R262). -/
def execRd (imm8 : BitVec 8) (s : State) : Host.Outcome State Fault Refusal :=
  .next (respondWith (readReg s imm8) s)

/-- `RD.STR sel, idx` (R203), in the faulted state too (R262). -/
def execRdStr (sel : BitVec 4) (idx : BitVec 16) (s : State) : Host.Outcome State Fault Refusal :=
  .next (respondWith ((readString s.hdr sel idx).map (BitVec.setWidth 32)) s)

end Sys2Proof.Machine
end

