-- ==== Sys2Proof/Machine/Dispatch.lean ====
section
/-! DEFINITION. One arm per command, each a direct call of its meaning. -/

namespace Sys2Proof.Machine

def exec (i : Instr) (s : State) : Host.Outcome State Fault Refusal :=
  match i with
  | .srst => Sys2Proof.Machine.execSrst s
  | .abort code4 => Sys2Proof.Machine.execAbort code4 s
  | .rd imm8 => Sys2Proof.Machine.execRd imm8 s
  | .rdStr sel idx => Sys2Proof.Machine.execRdStr sel idx s
  | .pbClr => Sys2Proof.Machine.execPbClr s
  | .pbPush imm8 => Sys2Proof.Machine.execPbPush imm8 s
  | .cbClr => Sys2Proof.Machine.execCbClr s
  | .cbPush imm8 => Sys2Proof.Machine.execCbPush imm8 s
  | .lbClr => Sys2Proof.Machine.execLbClr s
  | .lbPush imm8 => Sys2Proof.Machine.execLbPush imm8 s
  | .pqPop => Sys2Proof.Machine.execPqPop s
  | .obPop => Sys2Proof.Machine.execObPop s
  | .encStart mode24 => Sys2Proof.Machine.execEncStart mode24 s
  | .encPix => Sys2Proof.Machine.execEncPix s
  | .encRun => Sys2Proof.Machine.execEncRun s
  | .decRun mode24 => Sys2Proof.Machine.execDecRun mode24 s
  | .decRunh => Sys2Proof.Machine.execDecRunh s
  | .hdrStart => Sys2Proof.Machine.execHdrStart s
  | .hdrLine => Sys2Proof.Machine.execHdrLine s
  | .hdrEos => Sys2Proof.Machine.execHdrEos s

end Sys2Proof.Machine
end

