-- ==== Sys2Proof/Machine/Step.lean ====
section
/-! DEFINITION. One step of the block: the next event at its ports (spec/30_encoding.md R86, spec/70_reset_and_hazards.md
R280, R292). -/

namespace Sys2Proof.Machine

/-- A command word (R86): step 2 executes its command, whose meaning makes the dead-state test of step 1 (log 15);
an illegal word is step 3, with the same test before it. -/
def stepCommand (w : Word) (s : State) : Host.Outcome State Fault Refusal :=
  match decode w with
  | .instr i => exec i s
  | .illegal _ => .next (illegalCommand w s)

/-- One step: the oldest event the host presents; with none, the block waits unchanged (R290, log 3). -/
def step (s : State) : Host.Outcome State Fault Refusal :=
  match takeEvent s with
  | none => .next s
  | some (.reset, s') => .next (hardReset s')
  | some (.command w, s') => stepCommand w s'

/-- The state with a command word presented before everything else, so that the next step takes it (log 18). A number
wider than a command word is no command and is not presented. -/
def State.withFetchWord (s : State) (nbits w : Nat) : State :=
  match tableWord nbits w with
  | none => s
  | some v => { s with port := .command v :: s.port }

end Sys2Proof.Machine
end

