-- ==== Sys2Proof/Machine/Boundary.lean ====
section
/-! DEFINITION. The host's side of the boundary (spec/48_boundary_contract.md): none of it is inside the block
(spec/00_scope.md R5) and no command uses it. The logic transforms, the row reassembler, the header writer, the
forward and the reverse flow over a container, and the command lists of the host are here as functions, so that a claim
about a whole run can be stated (log 19, log 24). The host programs that drive the block by its responses are in
Recipes.lean. -/

namespace Sys2Proof.Machine

/-! ## LogicTransform -/

/-- The names of R210. -/
inductive Gate
  | xor
  | or
  | and
  | not
  | nand
  | none
deriving DecidableEq, Repr

/-- `f_name(b, op)` (R211 to R216); `nand` is `b & ¬op`, as R215 defines it. -/
def Gate.apply (g : Gate) (b op : Byte) : Byte :=
  match g with
  | .xor => b ^^^ op
  | .or => b ||| op
  | .and => b &&& op
  | .not => ~~~b
  | .nand => b &&& ~~~op
  | .none => b

/-- The transformed payload: the same length, each byte independent of the others (R210). -/
def transformPayload (g : Gate) (op : Byte) (p : List Byte) : List Byte := p.map fun b => g.apply b op

/-- The operand of a transform as configured: a number, or text that is none. Out of byte range or unparsable is
`OperandError` (R219). -/
def checkOperand (n : Option Int) : Except Cause Byte :=
  match n with
  | .none => .error .operandError
  | .some v => if 0 ≤ v ∧ v < 256 then .ok (BitVec.ofNat 8 v.toNat) else .error .operandError

/-! ## Rows of pixels -/

/-- A pixel declaration of the container's body, `(x, y, r, g, b)` (R221, R227). -/
structure PixelDecl where
  x : Nat
  y : Nat
  r : Byte
  g : Byte
  b : Byte
deriving DecidableEq, Repr

/-- The write path: pixel `j` of a packet at `x = j`, `y = rowIndex` (R220, R223). A declaration has five values, so a
short last pixel is written with its zero channels (DESIGN CHOICE of log 19; spec/93_implementation_defined.md U12).
What is done with a packet of more pixels than the x-limit is not stated (R220; spec/91_not_in_source.md N15): no limit
is applied here and every pixel is written (DESIGN CHOICE of log 24). -/
def writeRow (rowIndex : Nat) (pixels : List Pixel) : List PixelDecl :=
  pixels.zipIdx.map fun (px, j) => { x := j, y := rowIndex, r := px.r, g := px.g, b := px.b }

/-- The integers of one declaration, in the order r, g, b (R221). -/
def PixelDecl.ints (d : PixelDecl) : List Byte := [d.r, d.g, d.b]

/-- The row reassembler on the read path (R222): the y of the row being accumulated, its integers so far, and the
rows flushed. -/
structure Reassembler where
  y : Option Nat
  ints : List Byte
  rows : List (List Byte)
deriving DecidableEq, Repr

/-- Before the first triple. -/
def Reassembler.start : Reassembler := { y := none, ints := [], rows := [] }

/-- One triple (R222): a change of y flushes the row before it; the first triple flushes nothing. -/
def Reassembler.feed (a : Reassembler) (d : PixelDecl) : Reassembler :=
  if a.y = none ∨ a.y = some d.y then { a with y := some d.y, ints := a.ints ++ d.ints }
  else { y := some d.y, ints := d.ints, rows := a.rows ++ [a.ints] }

/-- End of stream: a non-empty pending row is flushed once more (R225). -/
def Reassembler.finish (a : Reassembler) : List (List Byte) := if a.ints = [] then a.rows else a.rows ++ [a.ints]

/-- The rows of a body, and whether a declaration with `x ≥ limit` ended it: then no further row is flushed
(R224). -/
def reassemble (limit : Nat) : List PixelDecl → Reassembler → List (List Byte) × Bool
  | [], a => (a.finish, true)
  | d :: rest, a => if limit ≤ d.x then (a.rows, false) else reassemble limit rest (a.feed d)

/-- The rows of a body, each decoded at a mode (R222, R225); `reverseRun` takes the mode from the header (R229). -/
def reconstruct (limit m : Nat) (body : List PixelDecl) : List (List Byte) :=
  (reassemble limit body Reassembler.start).1.map fun c => codecDecode c m

/-! ## The header writer -/

/-- The ids of the fields a version requires, in order (R152). -/
def requiredFields : Version → List FieldId
  | .a => [.scale, .bitsPerPixel]
  | .b => [.scale, .bitsPerPixel, .timestamp, .source, .filter]
  | .c => [.scale, .bitsPerPixel, .timestamp, .source, .filter, .logicGateName, .logicOperand]

/-- The lines a writer has for a header (R226), their text the container format's (R227), which the spec leaves
open. -/
structure HeaderText where
  version : Version
  dimLine : Bytes
  openLine : Bytes
  versionLine : Bytes
  fieldLine : FieldId → Bytes
  closeLine : Bytes

/-- The header lines in the order of R226: dimensions, comment-open, version tag, each required field, comment-close. -/
def HeaderText.lines (t : HeaderText) : List Bytes :=
  [t.dimLine, t.openLine, t.versionLine] ++ (requiredFields t.version).map t.fieldLine ++ [t.closeLine]

/-- Lines fed to the parser one after another, until the first fault (R156, R167). -/
def parseLines (p : Params) : List Bytes → HdrRegs → LineResult
  | [], h => .stepped false h
  | l :: rest, h =>
    match parseLine p l h with
    | .raised c info => .raised c info
    | .stepped _ h1 => parseLines p rest h1

/-- A header read line by line until `Done`, and the lines after it, which are the container's body (R161, R237); lines
that run out before `Done` are `NoTerminatorError` (R163). -/
def parseHeader (p : Params) : List Bytes → HdrRegs → Except (Cause × Word) (HdrRegs × List Bytes)
  | [], h => if h.hstate = .done then .ok (h, []) else .error (.noTerminatorError, h.hstate.code.setWidth 32)
  | l :: rest, h =>
    match parseLine p l h with
    | .raised c info => .error (c, info)
    | .stepped _ h1 => if h1.hstate = .done then .ok (h1, rest) else parseHeader p rest h1

/-! ## Containers -/

/-- What a line of a container's body is to its reader (R227). -/
inductive BodyLine
  | pixel (d : PixelDecl)
  | terminator
  | other
deriving DecidableEq, Repr

/-- The text of a body's lines, which the spec leaves open (R227; spec/91_not_in_source.md N10): how a writer spells a
declaration and the body terminator, and what a reader takes a line for. -/
structure BodyFormat where
  declLine : PixelDecl → Bytes
  terminatorLine : Bytes
  readLine : Bytes → BodyLine

/-- The declarations of a body. It ends at the terminator or where the lines end, and a line that is neither a
declaration nor the terminator is skipped (DESIGN CHOICE of log 24; spec/91_not_in_source.md N26). -/
def readBody (f : BodyFormat) : List Bytes → List PixelDecl
  | [] => []
  | l :: rest =>
    match f.readLine l with
    | .pixel d => d :: readBody f rest
    | .terminator => []
    | .other => readBody f rest

/-- What a flow hands to its sink, and the first error if one ended it (R233): its cause and information word. What
was handed over before the error stays. -/
structure FlowResult (α : Type) where
  out : List α
  error : Option (Cause × Word)
deriving DecidableEq, Repr

/-! ## The forward flow -/

/-- A captured packet (R234). -/
structure Capture where
  timestampMicros : BitVec 64
  payload : List Byte
deriving DecidableEq, Repr

/-- What a source signals after its last item (R234). -/
inductive SourceEnd
  | endOfStream
  | error
deriving DecidableEq, Repr

/-- A capture or parse source: the items it yields, then its signal (R234). -/
structure CaptureSource where
  packets : List Capture
  ending : SourceEnd
deriving DecidableEq, Repr

/-- The layout modes of the write path (R223). The time-sliced row function is its caller's, of the time elapsed since
the first packet (spec/93_implementation_defined.md U10). -/
inductive Layout
  | fixed
  | timeSliced (rowOf : Int → Nat)

/-- `rowIndex` of packet number `j` (R223). Packets are numbered from 0, so the first row of the fixed layout is row 0
(DESIGN CHOICE of log 24). -/
def Layout.rowIndex (l : Layout) (first : Capture) (j : Nat) (c : Capture) : Nat :=
  match l with
  | .fixed => j
  | .timeSliced rowOf => rowOf (c.timestampMicros.toInt - first.timestampMicros.toInt)

/-- The text of a header's lines as a writer spells it, which the spec leaves open (R227; spec/91_not_in_source.md N10,
N13, N20, N29): the marker lines, a line for each version tag and for each field with its value, the name of a gate. -/
structure HeaderFormat where
  dimLine : Bytes
  openLine : Bytes
  versionLine : Version → Bytes
  fieldLine : (f : FieldId) → f.Val → Bytes
  closeLine : Bytes
  gateName : Gate → Bytes

/-- What a forward run is configured with: the transform, the mode and the layout, and what else its container's header
says (R153). Where a writer has its version, Scale, Timestamp, Source and Filter and its dimension line from is not stated
(R234; spec/91_not_in_source.md N14, N16, N20): here all are configured (DESIGN CHOICE of log 26). -/
structure ForwardConfig where
  gate : Gate
  operand : Byte
  mode : BitVec 24
  layout : Layout
  version : Version
  scale : Word
  timestamp : Bytes
  source : Bytes
  filter : Bytes
  headerFormat : HeaderFormat
  format : BodyFormat

/-- The value the header records for a field (R153): the mode of the encodes as BitsPerPixel (R229), and the run's own
transform, its name and its operand (R217). The captures' timestamps feed the Timestamp string in a form that is not
stated (R234; spec/91_not_in_source.md N16): here it is the configured string, tied to no capture (DESIGN CHOICE of
log 26). -/
def ForwardConfig.fieldVal (cfg : ForwardConfig) : (f : FieldId) → f.Val
  | .scale => cfg.scale
  | .bitsPerPixel => cfg.mode.setWidth 32
  | .timestamp => cfg.timestamp
  | .source => cfg.source
  | .filter => cfg.filter
  | .logicGateName => cfg.headerFormat.gateName cfg.gate
  | .logicOperand => cfg.operand

/-- The header a forward run writes (R226). The transform is in it where the version has fields for it (R152). -/
def ForwardConfig.headerText (cfg : ForwardConfig) : HeaderText :=
  { version := cfg.version, dimLine := cfg.headerFormat.dimLine, openLine := cfg.headerFormat.openLine,
    versionLine := cfg.headerFormat.versionLine cfg.version,
    fieldLine := fun f => cfg.headerFormat.fieldLine f (cfg.fieldVal f), closeLine := cfg.headerFormat.closeLine }

/-- LogicTransform, then Encode, then the row's declarations (R210, R223, R228). -/
def packetDecls (cfg : ForwardConfig) (rowIndex : Nat) (payload : List Byte) : List PixelDecl :=
  writeRow rowIndex (codecEncode (transformPayload cfg.gate cfg.operand payload) cfg.mode.toNat)

/-- Each packet with the row index it is written at, packets counted from `j` and times from `first` (R223). -/
def packetRows (cfg : ForwardConfig) (first : Capture) : (j : Nat) → List Capture → List (Nat × List Byte)
  | _, [] => []
  | j, c :: rest => (cfg.layout.rowIndex first j c, c.payload) :: packetRows cfg first (j + 1) rest

/-- The rows of a capture: none, or counted from its first packet. -/
def captureRows (cfg : ForwardConfig) (packets : List Capture) : List (Nat × List Byte) :=
  match packets with
  | [] => []
  | first :: _ => packetRows cfg first 0 packets

/-- The body of a container, row after row (R223, R228). -/
def forwardBody (cfg : ForwardConfig) (packets : List Capture) : List PixelDecl :=
  (captureRows cfg packets).flatMap fun row => packetDecls cfg row.1 row.2

/-- The forward flow (R228): the header's lines before any body content (R226), the declaration lines, the body
terminator (R227). An invalid mode is `FormatError` at the first encode (R112, R251), and a source that signals an error
is `IOError` (R234, R257) after the packets before it; what was written before an error stays (R233), and no terminator
follows it (DESIGN CHOICE of log 24). -/
def forwardRun (cfg : ForwardConfig) (src : CaptureSource) : FlowResult Bytes :=
  let header := cfg.headerText.lines
  if src.packets = [] ∨ validMode cfg.mode.toNat = true then
    let rows := (forwardBody cfg src.packets).map cfg.format.declLine
    match src.ending with
    | .endOfStream => { out := header ++ rows ++ [cfg.format.terminatorLine], error := none }
    | .error => { out := header ++ rows, error := some (.ioError, 0) }
  else { out := header, error := some (.formatError, cfg.mode.setWidth 32) }

/-! ## The reverse flow -/

/-- An item of the packet sink (R235). -/
structure SinkItem where
  timestampMicros : BitVec 64
  payload : List Byte
deriving DecidableEq, Repr

/-- The item of one flushed row (R235). "timestamp-or-zero" is zero: a body has no timestamps (DESIGN CHOICE of
log 25). -/
def sinkItem (payload : List Byte) : SinkItem := { timestampMicros := 0, payload }

/-- The reverse flow over a body at the header's mode (R222, R224, R225, R229): each row is one item of the sink (R235). A flush at an
invalid mode is `FormatError` with that mode (R132, R251), so the first flush ends the flow; else a declaration out of
bounds ends it after the rows flushed before it. -/
def reverseBody (limit : Nat) (mode : Word) (body : List PixelDecl) : FlowResult SinkItem :=
  let flushed := reassemble limit body Reassembler.start
  if flushed.1 = [] ∨ validMode mode.toNat = true then
    { out := (reconstruct limit mode.toNat body).map sinkItem,
      error := if flushed.2 then none else some (.boundsError, 0) }
  else { out := [], error := some (.formatError, mode) }

/-- The reverse flow over a container's lines (R229): the header is parsed, and its BitsPerPixel is the mode of every
row. -/
def reverseRun (p : Params) (f : BodyFormat) (limit : Nat) (lines : List Bytes) : FlowResult SinkItem :=
  match parseHeader p lines HdrRegs.armed with
  | .error e => { out := [], error := some e }
  | .ok (h, rest) => reverseBody limit h.bpp (readBody f rest)

/-! ## Command lists -/

/-- Commands as the host presents them, one word each (R80, R292). -/
def present (is : List Instr) : List PortEvent := is.map fun i => .command (encode i)

/-- The forward recipe up to its first `ENC.RUN` (R236): the transformed payload is loaded and an encode begun. The
whole recipe, which depends on the responses, is `forwardScript`. -/
def forwardRecipe (q : List Byte) (m : BitVec 24) : List Instr :=
  .pbClr :: q.map .pbPush ++ [.encStart m, .encRun]

/-- One pixel declaration on the reverse path: three pushes, or `ABORT 5` when x is at or past the limit
(R221, R224). -/
def pixelRecipe (limit : Nat) (d : PixelDecl) : List Instr :=
  if limit ≤ d.x then [.abort Cause.boundsError.code] else [.cbPush d.r, .cbPush d.g, .cbPush d.b]

/-- A flush of one row that decodes to `n` bytes (R222): decode, pop the bytes, clear. -/
def flushRecipe (m : BitVec 24) (n : Nat) : List Instr := .decRun m :: List.replicate n .obPop ++ [.cbClr]

/-- One header line (R88, R237). -/
def lineRecipe (text : Bytes) : List Instr := .lbClr :: text.map .lbPush ++ [.hdrLine]

/-- A header given line by line (R237); `reverseScript` is the recipe that stops at Done. -/
def headerRecipe (lines : List Bytes) : List Instr := .hdrStart :: lines.flatMap lineRecipe

end Sys2Proof.Machine
end

