-- ==== Sys2Proof/Machine/Recipes.lean ====
section
/-! DEFINITION. The host's recipes as programs that drive the block by its responses (spec/48_boundary_contract.md R222,
R228, R229, R236, R237). A program issues one command at a time and sees nothing of the block but the response
(spec/70_reset_and_hazards.md R292); it hands over its output as it goes (log 19, log 24). -/

namespace Sys2Proof.Machine

/-! ## Host programs -/

/-- A host's program: it ends, hands over one output, or issues a command and goes on by the response. -/
inductive Script (α : Type) where
  | done
  | emit (a : α) (next : Script α)
  | ask (i : Instr) (next : Response → Script α)

/-- What a host's program did: its outputs, the data of the response that ended it early, the block after it. -/
structure ScriptRun (α : Type) where
  out : List α
  fault : Option Word
  block : State
deriving DecidableEq, Repr

/-- One command presented and answered: the response and the block after it (R292). Every command is answered
(`Obligations.EveryCommandAnswersOnce`), so the other cases do not arise. -/
def answer (i : Instr) (s : State) : Response × State :=
  match step { s with port := .command (encode i) :: s.port } with
  | .next t => (t.resp.getD { st := .dead, data := 0 }, t)
  | .fault _ => ({ st := .dead, data := 0 }, s)
  | .refused _ => ({ st := .dead, data := 0 }, s)

/-- The response says that a fault is latched (R83). -/
def Response.faulted (r : Response) : Bool := decide (r.st = .err ∨ r.st = .dead)

/-- A program run on the block. The first fault ends it, with the cause code that the response carries (R233). -/
def Script.run {α : Type} : Script α → State → ScriptRun α
  | .done, s => { out := [], fault := none, block := s }
  | .emit a next, s =>
    let r := next.run s
    { r with out := a :: r.out }
  | .ask i next, s =>
    let (r, t) := answer i s
    if r.faulted then { out := [], fault := some r.data, block := t } else (next r).run t

/-- Commands issued one after another, whatever they answer. -/
def Script.asks {α : Type} : List Instr → Script α → Script α
  | [], next => next
  | i :: rest, next => .ask i fun _ => Script.asks rest next

/-- Outputs handed over one after another. -/
def Script.emits {α : Type} : List α → Script α → Script α
  | [], next => next
  | a :: rest, next => .emit a (Script.emits rest next)

/-- A program whose collaborator (a source, the container's I/O or a sink) fails after `n` of its actions: the host
records `IOError` with `ABORT 7` and goes no further; what was handed over stays (R233, R257). -/
def Script.failAfter {α : Type} : (n : Nat) → Script α → Script α
  | 0, _ => .ask (.abort Cause.ioError.code) fun _ => .done
  | _ + 1, .done => .done
  | n + 1, .emit a next => .emit a (Script.failAfter n next)
  | n + 1, .ask i next => .ask i fun r => Script.failAfter n (next r)

/-! ## Forward -/

/-- The test that ends the forward recipe, on the word that `RD STATUS` answers: `E_ATEND = 1` and PIXQ empty (R25,
R236). -/
def encodeDrained (status : Word) : Bool := status.getLsbD 1 && !status.getLsbD 3

/-- The declaration of pop number `j` (R223, R236). -/
def popDecl (rowIndex j : Nat) (data : Word) : PixelDecl :=
  let px := Pixel.unpack data
  { x := j, y := rowIndex, r := px.r, g := px.g, b := px.b }

/-- `ENC.RUN` and `PQ.POP` repeated until the payload is at its end and PIXQ is empty; pop number `j` goes out as the
line of the declaration at `x = j`, and `EMPTY` is no pop (R236). The first argument of the recursion bounds the turns:
every turn but one of an empty payload pops a pixel. -/
def drainEncode {α : Type} (line : PixelDecl → α) (rowIndex : Nat) (next : Script α) :
    (turns : Nat) → (j : Nat) → Script α
  | 0, _ => next
  | turns + 1, j =>
    let untilDrained (popped : Nat) : Script α :=
      .ask (.rd 0x01) fun status =>
        if encodeDrained status.data then next else drainEncode line rowIndex next turns popped
    .ask .encRun fun _ => .ask .pqPop fun px =>
      if px.st = .ok then .emit (line (popDecl rowIndex j px.data)) (untilDrained (j + 1)) else untilDrained j

/-- The forward recipe for one packet (R236): `PB.LOAD q`, `ENC.START m`, then the repeated `ENC.RUN` and `PQ.POP`. An
encode of `n` bytes has at most `8 n` pixels (R120). -/
def forwardScript {α : Type} (line : PixelDecl → α) (m : BitVec 24) (rowIndex : Nat) (q : List Byte)
    (next : Script α) : Script α :=
  Script.asks (.pbClr :: q.map .pbPush ++ [.encStart m]) (drainEncode line rowIndex next (8 * q.length + 1) 0)

/-- The recipe for each packet in turn (R210, R228, R236). -/
def forwardRows (cfg : ForwardConfig) (next : Script Bytes) : List (Nat × List Byte) → Script Bytes
  | [] => next
  | row :: rest =>
    forwardScript cfg.format.declLine cfg.mode row.1 (transformPayload cfg.gate cfg.operand row.2)
      (forwardRows cfg next rest)

/-- What follows the last packet: the body terminator at the end of the stream (R227), and `ABORT 7` where the source
signals an error (R234, R257). -/
def forwardEnd (cfg : ForwardConfig) : SourceEnd → Script Bytes
  | .endOfStream => .emit cfg.format.terminatorLine .done
  | .error => .ask (.abort Cause.ioError.code) fun _ => .done

/-- A whole forward run on the block (R228): the header's lines first (R226), then the packets, then the end. -/
def forwardContainer (cfg : ForwardConfig) (src : CaptureSource) : Script Bytes :=
  Script.emits cfg.headerText.lines (forwardRows cfg (forwardEnd cfg src.ending) (captureRows cfg src.packets))

/-! ## Reverse -/

/-- Bytes popped from OBUF, as many as the response of the decode counted (R131, R222). -/
def popBytes {α : Type} (next : List Byte → Script α) : (n : Nat) → (popped : List Byte) → Script α
  | 0, popped => next popped
  | n + 1, popped => .ask .obPop fun v => popBytes next n (popped ++ [v.data.setWidth 8])

/-- A flush (R222, R229): decode at the header's mode, pop the bytes, hand them to the sink as one item (R235), clear. -/
def flushScript (next : Script SinkItem) : Script SinkItem :=
  .ask .decRunh fun counted =>
    popBytes (fun packet => .emit (sinkItem packet) (.ask .cbClr fun _ => next)) counted.data.toNat []

/-- The body of a container (R237): x is checked first (R224), then a change of y flushes the row before it (R222), then
the three integers are pushed (R221); at the end a row still pending is flushed once more (R225). -/
def bodyScript (limit : Nat) : (y : Option Nat) → List PixelDecl → Script SinkItem
  | _, [] => .ask (.rd 0x09) fun pending => if pending.data = 0 then .done else flushScript .done
  | y, d :: rest =>
    let push : Script SinkItem := Script.asks (d.ints.map .cbPush) (bodyScript limit (some d.y) rest)
    if limit ≤ d.x then .ask (.abort Cause.boundsError.code) fun _ => .done
    else if y = none ∨ y = some d.y then push
    else flushScript push

/-- The header of a container (R237): `LINE` per header line until the response shows `HSTATE = 4`, and `HDR.EOS` when
the lines run out. The lines after Done go to the body. -/
def headerScript {α : Type} (body : List Bytes → Script α) : List Bytes → Script α
  | [] => .ask .hdrEos fun _ => body []
  | l :: rest =>
    Script.asks (.lbClr :: l.map .lbPush)
      (.ask .hdrLine fun r => if r.data.extractLsb' 0 3 = HState.done.code then body rest else headerScript body rest)

/-- The reverse recipe for one container (R237). -/
def reverseScript (f : BodyFormat) (limit : Nat) (lines : List Bytes) : Script SinkItem :=
  .ask .hdrStart fun _ => headerScript (fun rest => bodyScript limit none (readBody f rest)) lines

end Sys2Proof.Machine
end

