-- ==== Sys2Proof/Safety.lean ====
section
/-! DEFINITION. The terms claims are stated in: a healthy state, the invariant of spec/10_state.md R34, and what a
payload's bits are. -/

namespace Sys2Proof.Machine

/-- No fault is latched (spec/60_exceptions.md R261). -/
def Healthy (s : State) : Prop := s.fault = false

/-- A run of the machine that ends in a state with no fault latched. -/
def HealthyRun (k : Nat) (s t : State) : Prop := Sys2Proof.core.run k s = .next t ∧ Healthy t

/-- The commands that execute in the faulted state (R262). -/
def survivesFault : Instr → Bool
  | .srst | .rd _ | .rdStr _ _ | .pqPop | .obPop => true
  | .abort _ | .pbClr | .pbPush _ | .cbClr | .cbPush _ | .lbClr | .lbPush _ => false
  | .encStart _ | .encPix | .encRun | .decRun _ | .decRunh | .hdrStart | .hdrLine | .hdrEos => false

/-- The string registers, with the field that fills each; `formatVersion` has none (R31, R153). -/
def HdrRegs.strings (h : HdrRegs) : List Bytes := [h.timestamp, h.source, h.filter, h.gateName, h.formatVersion]

/-- The header half of the invariant (R34), with R28, R29, R159 and R166 beside it. -/
structure HdrInv (p : Params) (h : HdrRegs) : Prop where
  /-- `SLEN[sel] ≤ STR_MAX`. -/
  strings_fit : ∀ str ∈ h.strings, str.length ≤ p.strMax
  /-- `FIDX ≤ FCNT`. -/
  fidx_le : h.fidx.toNat ≤ h.fcnt.toNat
  /-- `FCNT ∈ 0, 2, 5, 7`. -/
  fcnt_legal : h.fcnt.toNat = 0 ∨ h.fcnt.toNat = 2 ∨ h.fcnt.toNat = 5 ∨ h.fcnt.toNat = 7
  /-- `FCNT = 0` exactly when `HSTATE ≤ 2`. -/
  fcnt_zero : h.fcnt = 0 ↔ h.hstate.code.toNat ≤ 2
  /-- `HVALID = 2^FIDX - 1`. -/
  hvalid_eq : h.hvalid.toNat = 2 ^ h.fidx.toNat - 1
  /-- In Done every required field is stored (R166). -/
  done_full : h.hstate = .done → h.fidx = h.fcnt
  /-- Once a version is resolved, `VERIDX`, `FCNT` and `STR[8]` are that version's (R159). -/
  version_resolved : 3 ≤ h.hstate.code.toNat →
    ∃ v : Version, h.veridx = versionIndex v ∧ h.fcnt = versionFields v ∧ h.formatVersion = p.key v
  /-- Before a version is resolved, `VERIDX` is 0 and `STR[8]` is empty. -/
  version_unresolved : h.hstate.code.toNat ≤ 2 → h.veridx = 0 ∧ h.formatVersion = []
  /-- A value register whose `HVALID` bit is 0 reads 0 (R29); a string field not stored is empty. -/
  scale_unset : h.hvalid.getLsbD 0 = false → h.scale = 0
  bpp_unset : h.hvalid.getLsbD 1 = false → h.bpp = 0
  timestamp_unset : h.hvalid.getLsbD 2 = false → h.timestamp = []
  source_unset : h.hvalid.getLsbD 3 = false → h.source = []
  filter_unset : h.hvalid.getLsbD 4 = false → h.filter = []
  gateName_unset : h.hvalid.getLsbD 5 = false → h.gateName = []
  operand_unset : h.hvalid.getLsbD 6 = false → h.operand = 0

/-- The invariant of R34. -/
structure Inv (p : Params) (s : State) : Prop where
  /-- `BYTEIDX ≤ PLEN`. -/
  cursor_le : s.cursor.byteIdx.toNat ≤ s.mem.pbuf.length
  /-- At the end of the payload the cursor is byte-aligned (R120, R283). -/
  cursor_aligned_at_end : s.cursor.byteIdx.toNat = s.mem.pbuf.length → s.cursor.bitIdx = 0
  /-- No space exceeds its capacity. -/
  mem_wf : s.mem.wf p
  /-- `EMODE = 0` or `ValidMode(EMODE)`. -/
  emode_legal : s.emode = 0 ∨ validMode s.emode.toNat = true
  /-- If `EMODE = 24` then `BITIDX = 0`. -/
  bytes_mode_aligned : s.emode = 24 → s.cursor.bitIdx = 0
  /-- `FAULT = 1` exactly when `ERR ≠ 0`. -/
  fault_iff : s.fault = true ↔ s.err ≠ 0
  hdr_inv : HdrInv p s.hdr

/-- The three units that have commands of their own (R2, R20). -/
inductive BlockUnit
  | enc
  | dec
  | hdr
deriving DecidableEq, Repr

/-- The unit a command belongs to; the system commands belong to none (R20, R287). -/
def unitOf : Instr → Option BlockUnit
  | .srst | .abort _ | .rd _ | .rdStr _ _ => none
  | .pbClr | .pbPush _ | .pqPop | .encStart _ | .encPix | .encRun => some .enc
  | .cbClr | .cbPush _ | .obPop | .decRun _ | .decRunh => some .dec
  | .lbClr | .lbPush _ | .hdrStart | .hdrLine | .hdrEos => some .hdr

/-- Two states hold the same state of a unit: ENC has PBUF, the cursor, EMODE and PIXQ, DEC has CBUF and OBUF, HDR has
LBUF and the header registers (R20). -/
def AgreeOn (u : BlockUnit) (s s' : State) : Prop :=
  match u with
  | .enc => s.cursor = s'.cursor ∧ s.emode = s'.emode ∧ s.mem.pbuf = s'.mem.pbuf ∧ s.mem.pixq = s'.mem.pixq
  | .dec => s.mem.cbuf = s'.mem.cbuf ∧ s.mem.obuf = s'.mem.obuf
  | .hdr => s.mem.lbuf = s'.mem.lbuf ∧ s.hdr = s'.hdr

/-- Two states hold the same fault registers: the fault latch is shared by all units (R287). -/
def AgreeOnFault (s s' : State) : Prop := s.fault = s'.fault ∧ s.err = s'.err ∧ s.errInfo = s'.errInfo

/-- How many zero bytes follow the payload when the full channel integers of its encode are decoded (R140). -/
def roundTripZeros (m n : Nat) : Nat :=
  if m = 1 then 0
  else if m = 24 then (3 - n % 3) % 3
  else (m * ((8 * n + m - 1) / m) - 8 * n) / 8

/-- Bit `q` of a byte string, counted from the most significant bit of byte 0 (R61, R100); 0 past its end. -/
def bitAt (p : List Byte) (q : Nat) : Bool := (p.getD (q / 8) 0).getMsbD (q % 8)

end Sys2Proof.Machine
end

