-- ==== Sys2Proof/Certificates/Slice0/Obligations.lean ====
section
/-! DEFINITION. The statements for the provers. Each docstring names the rule it states, or says what it is derived
from and which log entry a model's choice in it has. -/

open Sys2Proof Sys2Proof.Machine

/-! ## Words and commands -/

/-- Decoding and encoding are inverse on legal words: a word decodes to a command exactly when it is that command's
word, so no bit of an encoding is dropped and no other word is taken (derived from R81, R84, R85, R87). -/
def Obligations.DecodeReadsExactlyTheEncodings : Prop :=
  ∀ (w : Word) (i : Instr), decode w = .instr i ↔ w = encode i

/-- R84: of the twenty rows, a word is the command of a row exactly when `(w & mask) = match`; a word that matches no
row is no command (R85). -/
def Obligations.WordIsRowsCommandExactlyWhenMasked : Prop :=
  opcodeRows.length = 20 ∧
  (∀ (w : Word) (row : OpcodeRow), row ∈ opcodeRows →
    (w &&& row.mask = row.pattern ↔ ∃ i, decode w = .instr i ∧ i.mnemonic = row.mnemonic)) ∧
  ∀ w : Word, (∀ row ∈ opcodeRows, w &&& row.mask ≠ row.pattern) ↔ ∃ why, decode w = .illegal why

/-- Words written out in the spec (95_test_vectors.md 3.6, R87) decode to the commands they stand for, and illegal
ones to none. -/
def Obligations.SpecWordsDecode : Prop :=
  decode 0x01000000 = .instr .srst ∧ decode 0x02000005 = .instr (.abort 5) ∧
  decode 0x03000016 = .instr (.rd 0x16) ∧ decode 0x04040002 = .instr (.rdStr 4 2) ∧
  decode 0x110000A5 = .instr (.pbPush 0xA5) ∧ decode 0x130000E9 = .instr (.cbPush 233) ∧
  decode 0x16000000 = .instr .pqPop ∧ decode 0x2000000C = .instr (.encStart 12) ∧
  decode 0x30000001 = .instr (.decRun 1) ∧ decode 0x41000000 = .instr .hdrLine ∧
  decode 0x00000000 = .illegal .unassignedOpcode ∧ decode 0x01000001 = .illegal .mustBeZero ∧
  decode 0x04100000 = .illegal .mustBeZero ∧ decode 0x02000010 = .illegal .mustBeZero

/-! ## The step -/

/-- A step takes the oldest word the host presents and runs the command it decodes to, on the state without that word
(derived from R86 step 2, R292; the list of presented events is the model's own choice, log 1). On a faulted block, where
R86 step 1 comes first for the commands that do not survive, the statement holds because `exec` itself makes that test
and answers `DEAD`, which is how the model reads R86 (log 15). -/
def Obligations.StepRunsDecodedCommand : Prop :=
  ∀ (s : State) (w : Word) (rest : List PortEvent) (i : Instr),
    s.port = .command w :: rest → decode w = .instr i → step s = exec i { s with port := rest }

/-- The three steps of R86 in their order, over the match and mask of R84 (derived from R86). The words of the five
commands of step 1 are told by their rows. That a step takes the word off the list of presented events, also where R86
changes nothing, is the model's choice (log 1). -/
def Obligations.DecodingProcedureHasThreeSteps : Prop :=
  ∀ (s : State) (w : Word) (rest : List PortEvent), s.port = .command w :: rest →
    let survives := ∃ row ∈ opcodeRows, row.mnemonic ∈ ["SRST", "RD", "RD.STR", "PQ.POP", "OB.POP"] ∧
      w &&& row.mask = row.pattern
    (s.fault = true → ¬ survives →
      step s = .next { s with port := rest, resp := some ⟨.dead, s.err.setWidth 32⟩ }) ∧
    ((s.fault = false ∨ survives) →
      (∀ i, decode w = .instr i → step s = exec i { s with port := rest }) ∧
      ((∀ row ∈ opcodeRows, w &&& row.mask ≠ row.pattern) →
        step s = .next { s with port := rest, fault := true, err := 9, errInfo := w, resp := some ⟨.err, 9⟩ }))

/-- `IllegalCommand` (code 9) for a word that matches no row, and for `ABORT 0`; `ERRINFO` is the word (derived from
R259). That the step also takes the word off the list of presented events is the model's choice (log 1). -/
def Obligations.IllegalCommandCarriesTheWord : Prop :=
  (∀ (s : State) (w : Word) (rest : List PortEvent), Healthy s → s.port = .command w :: rest →
    (∀ row ∈ opcodeRows, w &&& row.mask ≠ row.pattern) →
    step s = .next { s with port := rest, fault := true, err := 9, errInfo := w, resp := some ⟨.err, 9⟩ }) ∧
  ∀ s : State, Healthy s →
    exec (.abort 0) s =
      .next { s with fault := true, err := 9, errInfo := 0x02000000, resp := some ⟨.err, 9⟩ }

/-- Every command on every state answers a next state with one response, and leaves what the host has yet to present
(derived from R83, R288, R293; the port is the model's own field, log 1). -/
def Obligations.EveryCommandAnswersOnce : Prop :=
  (∀ (i : Instr) (s : State), ∃ t, exec i s = .next t ∧ t.resp.isSome = true ∧ t.port = s.port) ∧
  ∀ s : State, ∃ t, step s = .next t

/-- The model's choice (log 3): with nothing presented, the block waits unchanged (R290 gives no halt). -/
def Obligations.IdleBlockWaits : Prop :=
  ∀ s : State, s.port = [] → step s = .next s

/-! ## Faults -/

/-- Whichever command or word raises, nothing changes but the fault registers and the response, which carries the code
(derived from R260). That the host's event is gone from the list of presented events is the model's choice (log 1). -/
def Obligations.FaultEntryChangesNothingElse : Prop :=
  ∀ s t : State, Healthy s → step s = .next t → t.fault = true →
    t.err ≠ 0 ∧
    t = { s with port := s.port.tail, fault := true, err := t.err, errInfo := t.errInfo,
                 resp := some ⟨.err, t.err.setWidth 32⟩ }

/-- R263: the only ways out of the faulted state are `SRST` and `RESET`, and both restore the full reset state; every
other step keeps the first fault. -/
def Obligations.OnlyResetLeavesTheFaultedState : Prop :=
  ∀ s t : State, s.fault = true → step s = .next t →
    (t.fault = true ∧ t.err = s.err ∧ t.errInfo = s.errInfo) ∨
    (((∃ rest, s.port = .reset :: rest) ∨ ∃ rest, s.port = .command 0x01000000 :: rest) ∧
      t = { State.reset with port := t.port, resp := t.resp })

/-- Which commands raise which cause, with which information (derived from the table of R250; R255 to R257: the block
raises none of 5, 6, 7). `ABORT` has its own statement. -/
def Obligations.EachCauseIsRaisedOnlyByItsCommands : Prop :=
  ∀ (i : Instr) (s t : State), Healthy s → exec i s = .next t → t.fault = true → (∀ c, i ≠ .abort c) →
    (t.err = 1 ∧
      ((∃ m, i = .encStart m ∧ t.errInfo = m.setWidth 32) ∨ (i = .encPix ∧ t.errInfo = s.emode.setWidth 32) ∨
        (i = .encRun ∧ t.errInfo = s.emode.setWidth 32) ∨ (∃ m, i = .decRun m ∧ t.errInfo = m.setWidth 32) ∨
        (i = .decRunh ∧ t.errInfo = if s.hdr.hvalid.getLsbD 1 then s.hdr.bpp else 0))) ∨
    (t.err = 2 ∧ i = .hdrLine ∧ s.hdr.hstate = .scanVersion ∧ t.errInfo = 0) ∨
    (t.err = 3 ∧ i = .hdrLine ∧ s.hdr.hstate = .scanFields ∧ t.errInfo = s.hdr.fidx.setWidth 32) ∨
    (t.err = 4 ∧ i = .hdrEos ∧ s.hdr.hstate ≠ .done ∧ t.errInfo = s.hdr.hstate.code.setWidth 32) ∨
    (t.err = 8 ∧
      ((∃ b, i = .pbPush b ∧ t.errInfo = 1) ∨ (∃ v, i = .cbPush v ∧ t.errInfo = 2) ∨
        (∃ b, i = .lbPush b ∧ t.errInfo = 3) ∨ (∃ m, i = .decRun m ∧ t.errInfo = 4) ∨
        (i = .decRunh ∧ t.errInfo = 4) ∨ (i = .hdrLine ∧ s.hdr.hstate = .scanFields ∧ t.errInfo = 5)))

/-! ## Reset -/

/-- R200: `SRST`, faulted or not, gives every register and length its reset value and answers (OK, 0). The port is the
host's, not the block's (log 1). -/
def Obligations.SoftResetClearsEverything : Prop :=
  ∀ s : State, ∃ t, exec .srst s = .next t ∧ t.resp = some ⟨.ok, 0⟩ ∧ t.port = s.port ∧
    t.cursor.byteIdx = 0 ∧ t.cursor.bitIdx = 0 ∧ t.emode = 0 ∧
    t.mem.pbuf = [] ∧ t.mem.pixq = [] ∧ t.mem.cbuf = [] ∧ t.mem.obuf = [] ∧ t.mem.lbuf = [] ∧
    t.hdr.hstate = .scanDimensions ∧ t.hdr.fidx = 0 ∧ t.hdr.fcnt = 0 ∧ t.hdr.veridx = 0 ∧ t.hdr.hvalid = 0 ∧
    t.hdr.scale = 0 ∧ t.hdr.bpp = 0 ∧ t.hdr.operand = 0 ∧
    t.hdr.timestamp = [] ∧ t.hdr.source = [] ∧ t.hdr.filter = [] ∧ t.hdr.gateName = [] ∧ t.hdr.formatVersion = [] ∧
    t.fault = false ∧ t.err = 0 ∧ t.errInfo = 0

/-- R281: the values after reset, with `STATUS` reading 0x00000002, `ID` its constant, the `FAULT` line low, and the
invariants of R34 (in `Inv`). -/
def Obligations.ResetStateHasTheTablesValues : Prop :=
  let s := State.reset
  s.fault = false ∧ s.err = 0 ∧ s.errInfo = 0 ∧ s.cursor.byteIdx = 0 ∧ s.cursor.bitIdx = 0 ∧ s.emode = 0 ∧
  s.mem.pbuf.length = 0 ∧ s.mem.pixq.length = 0 ∧ s.mem.cbuf.length = 0 ∧ s.mem.obuf.length = 0 ∧
  s.mem.lbuf.length = 0 ∧ s.hdr.hstate = .scanDimensions ∧ s.hdr.fidx = 0 ∧ s.hdr.fcnt = 0 ∧ s.hdr.veridx = 0 ∧
  s.hdr.hvalid = 0 ∧ s.hdr.scale = 0 ∧ s.hdr.bpp = 0 ∧ s.hdr.operand = 0 ∧
  s.hdr.timestamp.length = 0 ∧ s.hdr.source.length = 0 ∧ s.hdr.filter.length = 0 ∧ s.hdr.gateName.length = 0 ∧
  s.hdr.formatVersion.length = 0 ∧ faultLine s = false ∧
  exec (.rd 0x01) s = .next { s with resp := some ⟨.ok, 0x00000002⟩ } ∧
  exec (.rd 0x00) s = .next { s with resp := some ⟨.ok, 0x474E5601⟩ } ∧ Inv Config.params s

/-- The `RESET` input has the effect of `SRST` on the block (derived from R280). That it is one event, that it leaves
no response and that later events wait behind it is the model's choice (log 4). -/
def Obligations.ResetInputRestoresResetState : Prop :=
  ∀ (s : State) (rest : List PortEvent), s.port = .reset :: rest →
    step s = .next { State.reset with port := rest } ∧
    ∃ t, exec .srst { s with port := rest } = .next t ∧ { t with resp := none } = { State.reset with port := rest }

/-- The invariant of R34 holds after reset (derived from R34, R281). -/
def Obligations.InvariantHoldsAtReset : Prop :=
  Inv Config.params State.reset

/-- Every step keeps the invariant of R34, from every state that has it (derived from R34; with R28, R29, R120, R159
and R166 in `HdrInv` and `Inv`). -/
def Obligations.EveryStepKeepsTheInvariant : Prop :=
  ∀ s t : State, Inv Config.params s → step s = .next t → Inv Config.params t

/-! ## System commands -/

/-- R201: `ABORT c` latches `c` with `ERRINFO` 0 and answers (ERR, c); `ABORT 0` is `IllegalCommand`; on a faulted
block the first fault stays. -/
def Obligations.AbortLatchesItsCode : Prop :=
  ∀ (s : State) (c : BitVec 4),
    (Healthy s → c ≠ 0 →
      exec (.abort c) s =
        .next { s with fault := true, err := c, errInfo := 0, resp := some ⟨.err, c.setWidth 32⟩ }) ∧
    (Healthy s → c = 0 →
      exec (.abort c) s =
        .next { s with fault := true, err := 9, errInfo := 0x02000000, resp := some ⟨.err, 9⟩ }) ∧
    (s.fault = true → exec (.abort c) s = .next { s with resp := some ⟨.dead, s.err.setWidth 32⟩ })

/-- R202 over the map of R30: `RD` answers (OK, value) at each of the 25 addresses and (EMPTY, 0) at every other,
faulted or not, and changes nothing but the response. -/
def Obligations.ReadRegisterAnswersTheMap : Prop :=
  ∀ s : State,
    let status : Nat := (if s.fault then 1 else 0) + (if s.mem.pbuf.length ≤ s.cursor.byteIdx.toNat then 2 else 0) +
      (if s.hdr.hstate = .done then 4 else 0) + (if s.mem.pixq = [] then 0 else 8) + (if s.mem.obuf = [] then 0 else 16)
    let map : List (BitVec 8 × Nat) := [
      (0x00, 0x474E5601), (0x01, status), (0x02, s.err.toNat), (0x03, s.errInfo.toNat), (0x04, s.emode.toNat),
      (0x05, s.cursor.byteIdx.toNat), (0x06, s.cursor.bitIdx.toNat), (0x07, s.mem.pbuf.length),
      (0x08, s.mem.pixq.length), (0x09, s.mem.cbuf.length), (0x0A, s.mem.obuf.length), (0x0B, s.mem.lbuf.length),
      (0x10, s.hdr.hstate.code.toNat), (0x11, s.hdr.fidx.toNat), (0x12, s.hdr.fcnt.toNat), (0x13, s.hdr.veridx.toNat),
      (0x14, s.hdr.hvalid.toNat), (0x15, s.hdr.scale.toNat), (0x16, s.hdr.bpp.toNat), (0x17, s.hdr.operand.toNat),
      (0x22, s.hdr.timestamp.length % 65536), (0x23, s.hdr.source.length % 65536),
      (0x24, s.hdr.filter.length % 65536), (0x25, s.hdr.gateName.length % 65536),
      (0x28, s.hdr.formatVersion.length % 65536)]
    (∀ av ∈ map, exec (.rd av.1) s = .next { s with resp := some ⟨.ok, BitVec.ofNat 32 av.2⟩ }) ∧
    ∀ a : BitVec 8, a ∉ map.map Prod.fst → exec (.rd a) s = .next { s with resp := some ⟨.empty, 0⟩ }

/-- R203: `RD.STR` answers the byte of a string register below its length and (EMPTY, 0) otherwise, faulted or not,
and changes nothing but the response. -/
def Obligations.ReadStringAnswersItsByte : Prop :=
  ∀ (s : State) (sel : BitVec 4) (idx : BitVec 16),
    let strings : List (BitVec 4 × Bytes) := [(2, s.hdr.timestamp), (3, s.hdr.source), (4, s.hdr.filter),
      (5, s.hdr.gateName), (8, s.hdr.formatVersion)]
    (∀ str, (sel, str) ∈ strings → idx.toNat < str.length →
      exec (.rdStr sel idx) s = .next { s with resp := some ⟨.ok, BitVec.ofNat 32 (str.getD idx.toNat 0).toNat⟩ }) ∧
    ((∀ str, (sel, str) ∈ strings → str.length ≤ idx.toNat) →
      exec (.rdStr sel idx) s = .next { s with resp := some ⟨.empty, 0⟩ })

/-! ## Buffer commands -/

/-- R180, R182, R184: the clears empty their buffer, `PB.CLR` also rewinds the cursor; nothing else changes. -/
def Obligations.ClearCommandsEmptyTheirBuffer : Prop :=
  ∀ s : State, Healthy s →
    exec .pbClr s = .next { s with mem.pbuf := [], cursor := ⟨0, 0⟩, resp := some ⟨.ok, 0⟩ } ∧
    exec .cbClr s = .next { s with mem.cbuf := [], resp := some ⟨.ok, 0⟩ } ∧
    exec .lbClr s = .next { s with mem.lbuf := [], resp := some ⟨.ok, 0⟩ }

/-- R181, R183, R185: a push appends its byte, or raises `CapacityFault` with the buffer's id when the buffer is full;
nothing else changes. -/
def Obligations.PushCommandsAppendOrOverflow : Prop :=
  ∀ (s : State) (b : Byte), Healthy s →
    let overflow (id : Word) : State := { s with fault := true, err := 8, errInfo := id, resp := some ⟨.err, 8⟩ }
    (s.mem.pbuf.length ≠ Config.params.pbufSize →
      exec (.pbPush b) s = .next { s with mem.pbuf := s.mem.pbuf ++ [b], resp := some ⟨.ok, 0⟩ }) ∧
    (s.mem.pbuf.length = Config.params.pbufSize → exec (.pbPush b) s = .next (overflow 1)) ∧
    (s.mem.cbuf.length ≠ Config.params.cbufSize →
      exec (.cbPush b) s = .next { s with mem.cbuf := s.mem.cbuf ++ [b], resp := some ⟨.ok, 0⟩ }) ∧
    (s.mem.cbuf.length = Config.params.cbufSize → exec (.cbPush b) s = .next (overflow 2)) ∧
    (s.mem.lbuf.length ≠ Config.params.lbufSize →
      exec (.lbPush b) s = .next { s with mem.lbuf := s.mem.lbuf ++ [b], resp := some ⟨.ok, 0⟩ }) ∧
    (s.mem.lbuf.length = Config.params.lbufSize → exec (.lbPush b) s = .next (overflow 3))

/-- The entry a push writes is the one at the old length of its own space; every other entry of every space reads as
before (derived from R60, R181, R183, R185). -/
def Obligations.PushWritesOneEntry : Prop :=
  ∀ (s t : State) (b : Byte) (sp : ByteSpace) (i : Instr), Healthy s →
    (i = .pbPush b ∧ sp = .pbuf) ∨ (i = .cbPush b ∧ sp = .cbuf) ∨ (i = .lbPush b ∧ sp = .lbuf) →
    exec i s = .next t → t.fault = false →
    (∀ (sp' : ByteSpace) (n : Nat), t.mem.read sp' n =
      if sp' = sp ∧ n = (s.mem.bytes sp).length then some b else s.mem.read sp' n) ∧
    ∀ n, t.mem.readPixel n = s.mem.readPixel n

/-- R186, R187: a pop removes the oldest entry and answers it, or answers (EMPTY, 0); faulted or not, and nothing else
changes. -/
def Obligations.PopCommandsTakeTheOldest : Prop :=
  ∀ s : State,
    (s.mem.pixq = [] → exec .pqPop s = .next { s with resp := some ⟨.empty, 0⟩ }) ∧
    (∀ px rest, s.mem.pixq = px :: rest →
      exec .pqPop s = .next { s with mem.pixq := rest, resp := some ⟨.ok, BitVec.ofNat 32
        (px.nv.toNat * 2 ^ 24 + px.r.toNat * 2 ^ 16 + px.g.toNat * 2 ^ 8 + px.b.toNat)⟩ }) ∧
    (s.mem.obuf = [] → exec .obPop s = .next { s with resp := some ⟨.empty, 0⟩ }) ∧
    (∀ v rest, s.mem.obuf = v :: rest →
      exec .obPop s = .next { s with mem.obuf := rest, resp := some ⟨.ok, BitVec.ofNat 32 v.toNat⟩ })

/-! ## Cursor and encoder -/

/-- `Advance(n)` moves to `div 8` and `mod 8` of the position, two advances add up, which the spec itself derives
(R104), and `AtEnd` compares the byte index alone (derived from R101, R102, R104). The bound says that the position
stays in the 32-bit range of `BYTEIDX` (log 11). -/
def Obligations.CursorAdvancesByPositions : Prop :=
  (∀ (c : Cursor) (n : Nat), 8 * c.byteIdx.toNat + c.bitIdx.toNat + n < 2 ^ 35 →
    (c.advance n).byteIdx.toNat = (8 * c.byteIdx.toNat + c.bitIdx.toNat + n) / 8 ∧
    (c.advance n).bitIdx.toNat = (8 * c.byteIdx.toNat + c.bitIdx.toNat + n) % 8) ∧
  (∀ (c : Cursor) (a b : Nat), 8 * c.byteIdx.toNat + c.bitIdx.toNat + (a + b) < 2 ^ 35 →
    (c.advance a).advance b = c.advance (a + b)) ∧
  ∀ (c : Cursor) (len : Nat), c.atEnd len = true ↔ len ≤ c.byteIdx.toNat

/-- R110: the valid modes are nine, and `K(m)` is in 1 to 8 for those that are multiples of 3. -/
def Obligations.ValidModesAreNine : Prop :=
  (∀ m : Nat, validMode m = true ↔ m ∈ [1, 3, 6, 9, 12, 15, 18, 21, 24]) ∧
  ∀ m : Nat, m ∈ [3, 6, 9, 12, 15, 18, 21, 24] →
    3 * bitsPerChannel m = m ∧ 1 ≤ bitsPerChannel m ∧ bitsPerChannel m ≤ 8

/-- R112: `ENC.START` latches a valid mode and sets the cursor to (0, 0), or raises `FormatError(m)`; nothing else
changes. -/
def Obligations.StartLatchesModeOrFails : Prop :=
  ∀ (s : State) (m : BitVec 24), Healthy s →
    (m.toNat ∈ [1, 3, 6, 9, 12, 15, 18, 21, 24] →
      exec (.encStart m) s =
        .next { s with emode := BitVec.ofNat 8 m.toNat, cursor := ⟨0, 0⟩, resp := some ⟨.ok, 0⟩ }) ∧
    (m.toNat ∉ [1, 3, 6, 9, 12, 15, 18, 21, 24] →
      exec (.encStart m) s =
        .next { s with fault := true, err := 1, errInfo := BitVec.ofNat 32 m.toNat, resp := some ⟨.err, 1⟩ })

/-- R118: `ENC.PIX` without a valid mode raises `FormatError(EMODE)`, at the end of the payload answers (EMPTY, 0), and
otherwise answers the next pixel and moves the cursor; PIXQ is not touched. -/
def Obligations.OnePixelOrEmptyOrFormatError : Prop :=
  ∀ s : State, Healthy s →
    (validMode s.emode.toNat = false →
      exec .encPix s = .next { s with fault := true, err := 1, errInfo := s.emode.setWidth 32,
                                      resp := some ⟨.err, 1⟩ }) ∧
    (validMode s.emode.toNat = true → s.mem.pbuf.length ≤ s.cursor.byteIdx.toNat →
      exec .encPix s = .next { s with resp := some ⟨.empty, 0⟩ }) ∧
    (validMode s.emode.toNat = true → s.cursor.byteIdx.toNat < s.mem.pbuf.length →
      exec .encPix s = .next { s with
        cursor := (nextPixel s.mem.pbuf s.emode.toNat s.cursor).2,
        resp := some ⟨.ok, (nextPixel s.mem.pbuf s.emode.toNat s.cursor).1.pack.setWidth 32⟩ })

/-- R114: a pixel of mode 24 holds the next up to three payload bytes, `nv` counting them, missing channels 0. -/
def Obligations.BytesModePixelTakesThreeBytes : Prop :=
  ∀ s : State, Healthy s → s.emode = 24 → s.cursor.bitIdx = 0 → s.mem.pbuf.length < 2 ^ 32 →
    s.cursor.byteIdx.toNat < s.mem.pbuf.length →
    let i := s.cursor.byteIdx.toNat
    let n := s.mem.pbuf.length
    let px : Pixel := { nv := BitVec.ofNat 2 (min 3 (n - i)), r := s.mem.pbuf.getD i 0,
                        g := s.mem.pbuf.getD (i + 1) 0, b := s.mem.pbuf.getD (i + 2) 0 }
    exec .encPix s = .next { s with cursor := ⟨BitVec.ofNat 32 (min (i + 3) n), 0⟩,
                                    resp := some ⟨.ok, px.pack.setWidth 32⟩ }

/-- R115: a pixel of mode 1 is white when the bit under the cursor is set and black when it is not, and consumes one
bit. -/
def Obligations.MonoModePixelTakesOneBit : Prop :=
  ∀ s : State, Healthy s → s.emode = 1 → s.mem.pbuf.length < 2 ^ 32 →
    s.cursor.byteIdx.toNat < s.mem.pbuf.length →
    exec .encPix s = .next { s with
      cursor := Cursor.ofPos (s.cursor.pos + 1),
      resp := some ⟨.ok, if bitAt s.mem.pbuf s.cursor.pos then 0x03FFFFFF else 0x03000000⟩ }

/-- Modes 3 to 21: each channel has exactly the payload bits of its own k positions, each at its own place, as far as
the payload goes; `nv` is 3 and the cursor moves 3k bits or to the end (derived from R116, R117, R121). -/
def Obligations.GroupedModePixelKeepsNativePositions : Prop :=
  ∀ s : State, Healthy s → s.emode.toNat ∈ [3, 6, 9, 12, 15, 18, 21] → s.mem.pbuf.length < 2 ^ 32 →
    s.cursor.byteIdx.toNat < s.mem.pbuf.length →
    let k := s.emode.toNat / 3
    let pos := s.cursor.pos
    let last := 8 * s.mem.pbuf.length
    let lane (first : Nat) (v : Byte) : Prop := ∀ j < 8, (v.getMsbD j = true ↔
      ∃ q, first ≤ q ∧ q < min (first + k) last ∧ q % 8 = j ∧ bitAt s.mem.pbuf q = true)
    ∃ px : Pixel, px.nv = 3 ∧ lane pos px.r ∧ lane (pos + k) px.g ∧ lane (pos + 2 * k) px.b ∧
      exec .encPix s = .next { s with cursor := Cursor.ofPos (min (pos + 3 * k) last),
                                      resp := some ⟨.ok, px.pack.setWidth 32⟩ }

/-- R119: `ENC.RUN` appends the pixels of the encode, as many as the queue has room for, counts them in its response,
ends at the end of the payload or with PIXQ full, and the encode resumes where it stopped; without a valid mode it
raises `FormatError(EMODE)`. -/
def Obligations.RunAppendsPixelsUntilFullOrDone : Prop :=
  ∀ s : State, Healthy s →
    (validMode s.emode.toNat = false →
      exec .encRun s = .next { s with fault := true, err := 1, errInfo := s.emode.setWidth 32,
                                      resp := some ⟨.err, 1⟩ }) ∧
    (validMode s.emode.toNat = true → Inv Config.params s →
      let turns := 8 * s.mem.pbuf.length
      let all := encodeFrom s.mem.pbuf s.emode.toNat turns s.cursor
      let n := min (Config.params.pixqSize - s.mem.pixq.length) all.length
      ∃ t : State, exec .encRun s = .next t ∧
        t = { s with mem.pixq := s.mem.pixq ++ all.take n,
                     cursor := (fun c => (nextPixel s.mem.pbuf s.emode.toNat c).2)^[n] s.cursor,
                     resp := some ⟨.ok, BitVec.ofNat 32 n⟩ } ∧
        (t.mem.pbuf.length ≤ t.cursor.byteIdx.toNat ∨ t.mem.pixq.length = Config.params.pixqSize) ∧
        encodeFrom s.mem.pbuf s.emode.toNat turns t.cursor = all.drop n)

/-- The number of pixels of an encode: `ceil(n / 3)` at mode 24, `8n` at mode 1, `ceil(8n / 3k)` at mode 3k (derived
from R120). -/
def Obligations.EncodeLengthIsTheTables : Prop :=
  ∀ (p : List Byte) (m : Nat), validMode m = true → p.length < 2 ^ 32 →
    (codecEncode p m).length =
      if m = 24 then (p.length + 2) / 3 else if m = 1 then 8 * p.length else (8 * p.length + m - 1) / m

/-! ## Decoder -/

/-- R131: `DEC.RUN m` raises `FormatError(m)` first, then `CapacityFault(4)`, and otherwise appends the decode of CBUF
to OBUF and answers its length; nothing else changes. -/
def Obligations.DecodeAppendsOrFails : Prop :=
  ∀ (s : State) (m : BitVec 24), Healthy s →
    let out := codecDecode s.mem.cbuf m.toNat
    (validMode m.toNat = false →
      exec (.decRun m) s =
        .next { s with fault := true, err := 1, errInfo := m.setWidth 32, resp := some ⟨.err, 1⟩ }) ∧
    (validMode m.toNat = true → Config.params.obufSize < s.mem.obuf.length + out.length →
      exec (.decRun m) s = .next { s with fault := true, err := 8, errInfo := 4, resp := some ⟨.err, 8⟩ }) ∧
    (validMode m.toNat = true → s.mem.obuf.length + out.length ≤ Config.params.obufSize →
      exec (.decRun m) s =
        .next { s with mem.obuf := s.mem.obuf ++ out, resp := some ⟨.ok, BitVec.ofNat 32 out.length⟩ })

/-- R132: `DEC.RUNH` is `DEC.RUN` at `HDR_BPP`, and `FormatError(0)` where `HVALID[1]` is 0. -/
def Obligations.HeaderDecodeUsesHeaderMode : Prop :=
  ∀ s : State, Healthy s →
    let m := s.hdr.bpp
    let out := codecDecode s.mem.cbuf m.toNat
    (s.hdr.hvalid.getLsbD 1 = false →
      exec .decRunh s = .next { s with fault := true, err := 1, errInfo := 0, resp := some ⟨.err, 1⟩ }) ∧
    (s.hdr.hvalid.getLsbD 1 = true → validMode m.toNat = false →
      exec .decRunh s = .next { s with fault := true, err := 1, errInfo := m, resp := some ⟨.err, 1⟩ }) ∧
    (s.hdr.hvalid.getLsbD 1 = true → validMode m.toNat = true →
      Config.params.obufSize < s.mem.obuf.length + out.length →
      exec .decRunh s = .next { s with fault := true, err := 8, errInfo := 4, resp := some ⟨.err, 8⟩ }) ∧
    (s.hdr.hvalid.getLsbD 1 = true → validMode m.toNat = true →
      s.mem.obuf.length + out.length ≤ Config.params.obufSize →
      exec .decRunh s =
        .next { s with mem.obuf := s.mem.obuf ++ out, resp := some ⟨.ok, BitVec.ofNat 32 out.length⟩ })

/-- The spec's worked decodes (R131, R135, R137, R141): the mode-12 literal with its first byte, both mode-1
sequences, a mode-24 copy. -/
def Obligations.WorkedDecodesComeOut : Prop :=
  codecDecode [0, 1, 1, 2, 3, 5, 8, 13, 21, 34, 55, 89, 144, 233] 12 = [1, 2, 5, 13, 18, 57, 153] ∧
  codecDecode (List.replicate 21 0 ++ List.replicate 3 255 ++ List.replicate 13 0 ++ List.replicate 3 255 ++
    List.replicate 8 0) 1 = [0x01, 0x04] ∧
  codecDecode (List.replicate 21 0 ++ List.replicate 3 255 ++ List.replicate 12 0 ++ List.replicate 3 255 ++
    List.replicate 9 0) 1 = [0x01, 0x08] ∧
  codecDecode [1, 2, 3, 4, 5] 24 = [1, 2, 3, 4, 5]

/-- R136, R139: at mode 3k, bit `q` of the output is the bit of integer `q div k` at position `q mod 8`, every complete
byte is emitted, and the partial byte at the end is emitted exactly when it is nonzero. -/
def Obligations.GroupedDecodeReadsNativePositions : Prop :=
  ∀ (k : Nat) (c : List Byte), 1 ≤ k → k ≤ 7 →
    let total := k * c.length
    let bit (q : Nat) : Bool := (c.getD (q / k) 0).getMsbD (q % 8)
    let out := codecDecode c (3 * k)
    ((∃ q, 8 * (total / 8) ≤ q ∧ q < total ∧ bit q = true) → out.length = total / 8 + 1) ∧
    ((∀ q, 8 * (total / 8) ≤ q → q < total → bit q = false) → out.length = total / 8) ∧
    ∀ q < 8 * out.length, bitAt out q = (decide (q < total) && bit q)

/-- R137: at mode 1, bit `j` of the output says whether the red channel of triple `j` is nonzero; the other two
channels are ignored, a short last triple is sampled, every complete byte is emitted and the partial byte exactly when
it is nonzero. -/
def Obligations.MonoDecodeSamplesRed : Prop :=
  ∀ c : List Byte,
    let total := (c.length + 2) / 3
    let bit (j : Nat) : Bool := decide (c.getD (3 * j) 0 ≠ 0)
    let out := codecDecode c 1
    ((∃ j, 8 * (total / 8) ≤ j ∧ j < total ∧ bit j = true) → out.length = total / 8 + 1) ∧
    ((∀ j, 8 * (total / 8) ≤ j → j < total → bit j = false) → out.length = total / 8) ∧
    ∀ j < 8 * out.length, bitAt out j = (decide (j < total) && bit j)

/-- The round-trip law: decoding the full channel integers of an encode gives the payload and at most two zero bytes,
and at mode 24 the first `nv` channels of each pixel give the payload exactly (derived from R140). -/
def Obligations.DecodeOfEncodeRecoversThePayload : Prop :=
  ∀ (m : Nat) (p : List Byte), validMode m = true → p.length < 2 ^ 32 →
    codecDecode ((codecEncode p m).flatMap Pixel.fullInts) m = p ++ List.replicate (roundTripZeros m p.length) 0 ∧
    roundTripZeros m p.length ≤ 2 ∧
    codecDecode ((codecEncode p 24).flatMap Pixel.chanInts) 24 = p

/-! ## Header parser -/

/-- R155: `HDR.START` gives every header register its reset value and leaves LBUF and all else alone. -/
def Obligations.HeaderStartArmsTheParser : Prop :=
  ∀ s : State, Healthy s →
    exec .hdrStart s = .next { s with
      hdr := { hstate := .scanDimensions, fidx := 0, fcnt := 0, veridx := 0, hvalid := 0, scale := 0, bpp := 0,
               operand := 0, timestamp := [], source := [], filter := [], gateName := [], formatVersion := [] },
      resp := some ⟨.ok, 0⟩ }

/-- R157, R158 with the response and the emptied LBUF of R156: a line that matches moves the parser on, any other is
skipped. -/
def Obligations.DimensionAndOpenLinesMoveOn : Prop :=
  ∀ s : State, Healthy s →
    (s.hdr.hstate = .scanDimensions →
      exec .hdrLine s = .next
        (if Config.params.dimMatch s.mem.lbuf then
          { s with hdr.hstate := .scanCommentOpen, mem.lbuf := [], resp := some ⟨.ok, 0x101⟩ }
        else { s with mem.lbuf := [], resp := some ⟨.ok, 0x000⟩ })) ∧
    (s.hdr.hstate = .scanCommentOpen →
      exec .hdrLine s = .next
        (if Config.params.openMatch s.mem.lbuf then
          { s with hdr.hstate := .scanVersion, mem.lbuf := [], resp := some ⟨.ok, 0x102⟩ }
        else { s with mem.lbuf := [], resp := some ⟨.ok, 0x001⟩ }))

/-- R159: in ScanVersion a version tag with a known key resolves the version, one with any other string raises
`UnknownVersionError(0)`, and a line that is no version tag is skipped. -/
def Obligations.VersionLineResolvesOrFails : Prop :=
  ∀ s : State, Healthy s → s.hdr.hstate = .scanVersion →
    let resolved (ver : Version) (index : BitVec 2) (count : BitVec 3) : State :=
      { s with hdr.formatVersion := Config.params.key ver, hdr.veridx := index, hdr.fcnt := count, hdr.fidx := 0,
               hdr.hstate := .scanFields, mem.lbuf := [], resp := some ⟨.ok, 0x103⟩ }
    exec .hdrLine s = .next
      (match Config.params.verMatch s.mem.lbuf with
        | none => { s with mem.lbuf := [], resp := some ⟨.ok, 0x002⟩ }
        | some v =>
          if v = Config.params.key .c then resolved .c 2 7
          else if v = Config.params.key .b then resolved .b 1 5
          else if v = Config.params.key .a then resolved .a 0 2
          else { s with fault := true, err := 2, errInfo := 0, resp := some ⟨.err, 2⟩ })

/-- R160, R161: in ScanFields the line is tried against the next expected field alone; a match stores the value and
advances, a string that does not fit is `CapacityFault(5)`; on a non-match, or with every field stored, a comment-close
line is `HeaderIncompleteError(FIDX)` or ends the header, and any other line is skipped. -/
def Obligations.FieldLineStoresOrCloses : Prop :=
  ∀ s : State, Healthy s → s.hdr.hstate = .scanFields →
    let line := s.mem.lbuf
    let notField : State :=
      if Config.params.closeMatch line then
        if s.hdr.fidx.toNat < s.hdr.fcnt.toNat then
          { s with fault := true, err := 3, errInfo := s.hdr.fidx.setWidth 32, resp := some ⟨.err, 3⟩ }
        else { s with hdr.hstate := .done, mem.lbuf := [], resp := some ⟨.ok, 0x104⟩ }
      else { s with mem.lbuf := [], resp := some ⟨.ok, 0x003⟩ }
    (∀ f, s.hdr.fidx.toNat < s.hdr.fcnt.toNat → fieldOfId s.hdr.fidx.toNat = some f →
      exec .hdrLine s = .next
        (match Config.params.fieldMatch f line with
          | none => notField
          | some v =>
            match storeField Config.params.strMax f v s.hdr with
            | none => { s with fault := true, err := 8, errInfo := 5, resp := some ⟨.err, 8⟩ }
            | some h => { s with hdr := { h with hvalid := s.hdr.hvalid ||| (1 : BitVec 7) <<< s.hdr.fidx.toNat,
                                                 fidx := s.hdr.fidx + 1 },
                                 mem.lbuf := [], resp := some ⟨.ok, 0x103⟩ })) ∧
    (s.hdr.fcnt.toNat ≤ s.hdr.fidx.toNat → exec .hdrLine s = .next notField)

/-- R164: each field goes to its destination register and nowhere else, strings only when they fit. -/
def Obligations.StoreWritesItsDestination : Prop :=
  ∀ (strMax : Nat) (h : HdrRegs),
    (∀ v, storeField strMax .scale v h = some { h with scale := v }) ∧
    (∀ v, storeField strMax .bitsPerPixel v h = some { h with bpp := v }) ∧
    (∀ v, storeField strMax .logicOperand v h = some { h with operand := v }) ∧
    (∀ v : Bytes, v.length ≤ strMax →
      storeField strMax .timestamp v h = some { h with timestamp := v } ∧
      storeField strMax .source v h = some { h with source := v } ∧
      storeField strMax .filter v h = some { h with filter := v } ∧
      storeField strMax .logicGateName v h = some { h with gateName := v }) ∧
    (∀ v : Bytes, strMax < v.length →
      storeField strMax .timestamp v h = none ∧ storeField strMax .source v h = none ∧
      storeField strMax .filter v h = none ∧ storeField strMax .logicGateName v h = none)

/-- R162: in Done a line changes no parser state, and LBUF is emptied. -/
def Obligations.LineInDoneIsIgnored : Prop :=
  ∀ s : State, Healthy s → s.hdr.hstate = .done →
    exec .hdrLine s = .next { s with mem.lbuf := [], resp := some ⟨.ok, 0x004⟩ }

/-- R163: `HDR.EOS` raises `NoTerminatorError(HSTATE)` before Done, and in Done changes nothing. -/
def Obligations.EndOfStreamNeedsDone : Prop :=
  ∀ s : State, Healthy s →
    (s.hdr.hstate = .done → exec .hdrEos s = .next { s with resp := some ⟨.ok, 0⟩ }) ∧
    (s.hdr.hstate ≠ .done →
      exec .hdrEos s =
        .next { s with fault := true, err := 4, errInfo := s.hdr.hstate.code.setWidth 32, resp := some ⟨.err, 4⟩ })

/-- R154: only `HDR.LINE` moves the parser, one state forward at a time; `HDR.START` and `SRST` begin anew; a parse
error keeps `HSTATE`. -/
def Obligations.ParserOnlyMovesForward : Prop :=
  ∀ (i : Instr) (s t : State), exec i s = .next t →
    t.hdr.hstate = s.hdr.hstate ∨
    (i = .hdrLine ∧ t.fault = false ∧ t.hdr.hstate.code.toNat = s.hdr.hstate.code.toNat + 1) ∨
    ((i = .hdrStart ∨ i = .srst) ∧ t.hdr.hstate = .scanDimensions)

/-- In Done nothing but `HDR.START` and reset changes a header register (derived from R165, R71). -/
def Obligations.HeaderIsFrozenInDone : Prop :=
  ∀ s t : State, s.hdr.hstate = .done → step s = .next t →
    t.hdr = s.hdr ∨ (∃ rest, s.port = .reset :: rest) ∨
    ∃ w rest, s.port = .command w :: rest ∧ (w = 0x01000000 ∨ w = 0x40000000)

/-- Header lines written in the order of R226, each matching as intended in the state that meets it, bring the parser
from its reset state to Done with every register equal to the written value, for every parameter set (derived from
R167, R226). -/
def Obligations.WrittenHeaderParsesToDone : Prop :=
  ∀ (p : Params) (t : HeaderText) (vals : (f : FieldId) → f.Val),
    p.dimMatch t.dimLine = true → p.openMatch t.openLine = true →
    p.verMatch t.versionLine = some (p.key t.version) →
    (∀ f ∈ requiredFields t.version, p.fieldMatch f (t.fieldLine f) = some (vals f)) →
    (.timestamp ∈ requiredFields t.version → (vals .timestamp).length ≤ p.strMax) →
    (.source ∈ requiredFields t.version → (vals .source).length ≤ p.strMax) →
    (.filter ∈ requiredFields t.version → (vals .filter).length ≤ p.strMax) →
    (.logicGateName ∈ requiredFields t.version → (vals .logicGateName).length ≤ p.strMax) →
    p.closeMatch t.closeLine = true →
    ∃ hit h, parseLines p t.lines HdrRegs.armed = .stepped hit h ∧ h.hstate = .done ∧
      h.veridx = versionIndex t.version ∧ h.formatVersion = p.key t.version ∧
      h.hvalid.toNat = 2 ^ (requiredFields t.version).length - 1 ∧
      h.scale = vals .scale ∧ h.bpp = vals .bitsPerPixel ∧
      (.timestamp ∈ requiredFields t.version → h.timestamp = vals .timestamp) ∧
      (.source ∈ requiredFields t.version → h.source = vals .source) ∧
      (.filter ∈ requiredFields t.version → h.filter = vals .filter) ∧
      (.logicGateName ∈ requiredFields t.version → h.gateName = vals .logicGateName) ∧
      (.logicOperand ∈ requiredFields t.version → h.operand = vals .logicOperand)

/-! ## Units -/

/-- The units do not interfere: a command leaves the other units' state alone, and on states that agree on its own
unit and on the fault registers it gives the same unit state, response and fault registers; `DEC.RUNH` also reads HDR's
registers, and `SRST` resets all (derived from R287, R20). -/
def Obligations.UnitsDoNotInterfere : Prop :=
  (∀ (i : Instr) (u : BlockUnit) (s t : State), i ≠ .srst → unitOf i ≠ some u → exec i s = .next t →
    AgreeOn u s t) ∧
  ∀ (i : Instr) (u : BlockUnit) (s s' t t' : State), unitOf i = some u → AgreeOn u s s' → AgreeOnFault s s' →
    (i = .decRunh → AgreeOn .hdr s s') → exec i s = .next t → exec i s' = .next t' →
    AgreeOn u t t' ∧ AgreeOnFault t t' ∧ t.resp = t'.resp

/-! ## The boundary contract -/

/-- `xor`, `not` and `none` undo themselves on every payload; `or`, `and` and `nand` do not, the spec's counter-example
showing it (derived from R210 to R218). -/
def Obligations.ThreeGatesAreInvolutions : Prop :=
  (∀ (g : Gate) (op : Byte) (p : List Byte), g ∈ [Gate.xor, Gate.not, Gate.none] →
    transformPayload g op (transformPayload g op p) = p) ∧
  (∀ g ∈ [Gate.or, Gate.and, Gate.nand], transformPayload g 0x0F (transformPayload g 0x0F [0xA5]) ≠ [0xA5]) ∧
  [Gate.xor, .or, .and, .not, .nand, .none].map (fun g => g.apply 0xA5 0x0F) =
    [0xAA, 0xAF, 0x05, 0x5A, 0xA0, 0xA5]

/-- The read path regains the rows of the write path, and a declaration at or past the limit ends it with no further
row (derived from R221 to R225; that a short pixel is written with its zero channels is the model's choice, log 19). -/
def Obligations.ReassemblerRegainsTheRows : Prop :=
  (∀ (limit : Nat) (rows : List (List Pixel)), (∀ row ∈ rows, row ≠ [] ∧ row.length ≤ limit) →
    reassemble limit (rows.zipIdx.flatMap fun ry => writeRow ry.2 ry.1) Reassembler.start =
      (rows.map fun row => row.flatMap Pixel.fullInts, true)) ∧
  ∀ (limit : Nat) (d : PixelDecl) (rest : List PixelDecl) (a : Reassembler), limit ≤ d.x →
    reassemble limit (d :: rest) a = (a.rows, false)

/-- A reverse run over the body of a forward run at one mode gives each packet's transformed payload, not the original,
followed by the zero bytes of R140 (derived from R140, R217, R228, R229). That a short pixel of mode 24 is written with
its zero channels, which come back as zero bytes, is the model's choice (log 19). -/
def Obligations.ReconstructionGivesTransformedPayloads : Prop :=
  ∀ (m limit : Nat) (g : Gate) (op : Byte) (packets : List (List Byte)), validMode m = true →
    (∀ p ∈ packets, p ≠ [] ∧ p.length < 2 ^ 32 ∧ (codecEncode (transformPayload g op p) m).length ≤ limit) →
    reconstruct limit m
        ((packets.map fun p => codecEncode (transformPayload g op p) m).zipIdx.flatMap fun ry => writeRow ry.2 ry.1) =
      packets.map fun p => transformPayload g op p ++ List.replicate (roundTripZeros m p.length) 0

/-! ## Runs of the host's recipes -/

/-- The forward recipe on any healthy block, queue and buffer large enough: after it the encode of the payload stands
in PIXQ behind what was there, the cursor is at the end of the payload, and no other unit has changed (derived from
R236; the words stand in the port, log 1). -/
def Obligations.ForwardRecipeQueuesTheEncode : Prop :=
  ∀ (s : State) (q : List Byte) (m : BitVec 24) (rest : List PortEvent), Healthy s → validMode m.toNat = true →
    q.length ≤ Config.params.pbufSize →
    s.mem.pixq.length + (codecEncode q m.toNat).length ≤ Config.params.pixqSize →
    s.port = present (forwardRecipe q m) ++ rest →
    HealthyRun (q.length + 3) s { s with
      cursor := ⟨BitVec.ofNat 32 q.length, 0⟩, emode := BitVec.ofNat 8 m.toNat,
      mem := { s.mem with pbuf := q, pixq := s.mem.pixq ++ codecEncode q m.toNat },
      port := rest, resp := some ⟨.ok, BitVec.ofNat 32 (codecEncode q m.toNat).length⟩ }

/-- One pixel declaration of the reverse recipe pushes its three integers, as far as CBUF has room, where the next push
faults; at or past the limit it pushes none and faults the block with `BoundsError` through `ABORT 5` (derived from
R221, R224, R183; the words stand in the port, log 1). -/
def Obligations.PixelRecipePushesOrAborts : Prop :=
  ∀ (s : State) (limit : Nat) (d : PixelDecl) (rest : List PortEvent), Healthy s →
    s.mem.cbuf.length ≤ Config.params.cbufSize → s.port = present (pixelRecipe limit d) ++ rest →
    (d.x < limit →
      let room := Config.params.cbufSize - s.mem.cbuf.length
      ∃ t, Sys2Proof.core.run 3 s = .next t ∧
        t = { s with mem.cbuf := s.mem.cbuf ++ [d.r, d.g, d.b].take room, port := rest, fault := decide (room < 3),
                     err := if room < 3 then 8 else s.err, errInfo := if room < 3 then 2 else s.errInfo,
                     resp := t.resp }) ∧
    (limit ≤ d.x → Sys2Proof.core.run 1 s =
      .next { s with fault := true, err := 5, errInfo := 0, port := rest, resp := some ⟨.err, 5⟩ })

/-- The flush of a row: the pops answer the bytes of the decode one after another, and at the end OBUF is as before and
CBUF empty (derived from R222, R131, R187, R182; the words stand in the port, log 1). -/
def Obligations.FlushRecipePopsTheDecode : Prop :=
  ∀ (s : State) (m : BitVec 24) (rest : List PortEvent), Healthy s → validMode m.toNat = true → s.mem.obuf = [] →
    let out := codecDecode s.mem.cbuf m.toNat
    out.length ≤ Config.params.obufSize → s.port = present (flushRecipe m out.length) ++ rest →
    (∀ j < out.length, ∃ t, HealthyRun (j + 2) s t ∧ t.resp = some ⟨.ok, BitVec.ofNat 32 (out.getD j 0).toNat⟩) ∧
    HealthyRun (out.length + 2) s { s with mem.cbuf := [], port := rest, resp := some ⟨.ok, 0⟩ }

/-- A header given to the block line by line leaves it with the registers that the parser's steps on those lines give,
LBUF empty and no other unit changed, if no line raises (derived from R237, R88, R155, R156; the words stand in the
port, log 1). -/
def Obligations.HeaderRecipeFollowsTheLines : Prop :=
  ∀ (s : State) (line : Bytes) (lines : List Bytes) (rest : List PortEvent) (hit : Bool) (h : HdrRegs), Healthy s →
    (∀ l ∈ line :: lines, l.length ≤ Config.params.lbufSize) →
    s.port = present (headerRecipe (line :: lines)) ++ rest →
    parseLines Config.params (line :: lines) HdrRegs.armed = .stepped hit h →
    ∃ t, HealthyRun (headerRecipe (line :: lines)).length s t ∧
      t = { s with hdr := h, mem.lbuf := [], port := rest, resp := t.resp }

/-- The forward recipe, driven by the responses, on any healthy block with PIXQ empty, however small the queue: it hands
over the declarations of the packet's encode and leaves PIXQ empty, or ends with `FormatError` (derived from R236, R119,
R112); and the run over all packets hands over the lines of the forward flow, header first, and ends with its error
(derived from R226, R228), `IOError` with nothing after the packets before it where the source signals an error (derived
from R234, R257). That a short pixel of mode 24 is declared with its zero channels is the model's choice (log 19); so are
how many pixels a row may have, the first row number and what stays after an error (log 24), and that the header's other
values are configured (log 26). -/
def Obligations.ForwardRunDeliversTheContainer : Prop :=
  (∀ (s : State) (m : BitVec 24) (row : Nat) (q : List Byte), Healthy s → s.mem.pixq = [] →
    q.length ≤ Config.params.pbufSize →
    let got := (forwardScript id m row q .done).run s
    (validMode m.toNat = true →
      got.out = writeRow row (codecEncode q m.toNat) ∧ got.fault = none ∧
      got.block = { s with cursor := ⟨BitVec.ofNat 32 q.length, 0⟩, emode := m.setWidth 8, mem.pbuf := q,
                           resp := got.block.resp }) ∧
    (validMode m.toNat = false →
      got.out = [] ∧ got.fault = some 1 ∧
      got.block = { s with cursor := ⟨0, 0⟩, mem.pbuf := q, fault := true, err := 1, errInfo := m.setWidth 32,
                           resp := some ⟨.err, 1⟩ })) ∧
  ∀ (s : State) (cfg : ForwardConfig) (src : CaptureSource), Healthy s → s.mem.pixq = [] →
    (∀ c ∈ src.packets, c.payload.length ≤ Config.params.pbufSize) →
    let want := forwardRun cfg src
    let got := (forwardContainer cfg src).run s
    got.out = want.out ∧ got.fault = want.error.map (fun e => e.1.code.setWidth 32) ∧
    (∀ e, want.error = some e → got.block.err = e.1.code ∧ got.block.errInfo = e.2)

/-- The reverse recipe, driven by the responses, on a healthy block with CBUF and OBUF empty and with room for the lines,
the rows and their decodes: it hands over the items of the reverse flow, which decodes at the header's BitsPerPixel, and
ends with its error latched, or healthy with the container's header in the registers and both buffers empty (derived from
R221 to R225, R229, R235, R237, R132, R163, R201). Of the bodies it speaks of, those whose y decreases are outside what
R222 states, and that a decrease flushes like an increase is the model's choice (log 19); so are the skipping of unknown
body lines (log 24) and the zero timestamp of an item (log 25). -/
def Obligations.ReverseRunDeliversThePackets : Prop :=
  ∀ (s : State) (f : BodyFormat) (limit : Nat) (lines : List Bytes), Healthy s → s.mem.cbuf = [] → s.mem.obuf = [] →
    (∀ l ∈ lines, l.length ≤ Config.params.lbufSize) →
    (∀ h rest, parseHeader Config.params lines HdrRegs.armed = .ok (h, rest) →
      (∀ n, (((readBody f rest).take n).foldl Reassembler.feed Reassembler.start).ints.length
        ≤ Config.params.cbufSize) ∧
      (validMode h.bpp.toNat = true → ∀ row ∈ (reassemble limit (readBody f rest) Reassembler.start).1,
        (codecDecode row h.bpp.toNat).length ≤ Config.params.obufSize)) →
    let want := reverseRun Config.params f limit lines
    let got := (reverseScript f limit lines).run s
    got.out = want.out ∧ got.fault = want.error.map (fun e => e.1.code.setWidth 32) ∧
    (∀ e, want.error = some e → got.block.fault = true ∧ got.block.err = e.1.code ∧ got.block.errInfo = e.2) ∧
    (want.error = none → ∃ h rest, parseHeader Config.params lines HdrRegs.armed = .ok (h, rest) ∧
      got.block = { s with hdr := h, mem.lbuf := [], resp := got.block.resp })

/-- The reverse flow over the container that the forward flow wrote in the fixed layout gives each packet's transformed
payload with the zero bytes of R140, the mode taken from the written header's BitsPerPixel, for every parameter set and
every text that its reader reads back; and the header read back records that mode and, where the version has the fields,
the name and the operand of the run's own transform, which is not inverted (derived from R140, R217, R226, R228, R229,
R235). The zero channels of a short pixel, the zero timestamps and that the header's other values are configured are
the model's choices (log 19, log 25, log 26). -/
def Obligations.ContainerRoundTrip : Prop :=
  ∀ (p : Params) (cfg : ForwardConfig) (limit : Nat) (packets : List Capture),
    let text := cfg.headerText
    let fields := requiredFields cfg.version
    let container := forwardRun cfg ⟨packets, .endOfStream⟩
    p.dimMatch text.dimLine = true → p.openMatch text.openLine = true →
    p.verMatch text.versionLine = some (p.key cfg.version) →
    (∀ f ∈ fields, p.fieldMatch f (text.fieldLine f) = some (cfg.fieldVal f)) →
    (.timestamp ∈ fields → cfg.timestamp.length ≤ p.strMax) →
    (.source ∈ fields → cfg.source.length ≤ p.strMax) →
    (.filter ∈ fields → cfg.filter.length ≤ p.strMax) →
    (.logicGateName ∈ fields → (cfg.headerFormat.gateName cfg.gate).length ≤ p.strMax) →
    p.closeMatch text.closeLine = true → validMode cfg.mode.toNat = true →
    (∀ d, cfg.format.readLine (cfg.format.declLine d) = .pixel d) →
    cfg.format.readLine cfg.format.terminatorLine = .terminator →
    cfg.layout = .fixed →
    (∀ c ∈ packets, c.payload ≠ [] ∧ c.payload.length < 2 ^ 32 ∧
      (codecEncode (transformPayload cfg.gate cfg.operand c.payload) cfg.mode.toNat).length ≤ limit) →
    reverseRun p cfg.format limit container.out =
      { out := packets.map fun c => ⟨0, transformPayload cfg.gate cfg.operand c.payload ++
          List.replicate (roundTripZeros cfg.mode.toNat c.payload.length) 0⟩,
        error := none } ∧
    ∃ h rest, parseHeader p container.out HdrRegs.armed = .ok (h, rest) ∧ h.bpp = cfg.mode.setWidth 32 ∧
      (.logicGateName ∈ fields → h.gateName = cfg.headerFormat.gateName cfg.gate) ∧
      (.logicOperand ∈ fields → h.operand = cfg.operand)

/-! ## Responses -/

/-- What a response's 2-bit status says (derived from R83, with R86, R261 for 3, R260 for 2 and R118, R186, R187, R202,
R203 for 1): 3 exactly where a faulted block does not execute the command, whose data is `ERR`; 2 exactly where the
command raised, whose data is the cause now in `ERR`; 1 exactly where it found nothing to return, whose data is 0; else
0. -/
def Obligations.StatusCodeSaysWhatHappened : Prop :=
  ∀ (i : Instr) (s : State), ∃ (t : State) (r : Response), exec i s = .next t ∧ t.resp = some r ∧
    (r.st.code = 3 ↔ s.fault = true ∧ survivesFault i = false) ∧
    (r.st.code = 3 → r.data = s.err.setWidth 32 ∧ t = { s with resp := some r }) ∧
    (r.st.code = 2 ↔ s.fault = false ∧ t.fault = true) ∧
    (r.st.code = 2 → r.data = t.err.setWidth 32) ∧
    (r.st.code = 1 ↔
      (i = .encPix ∧ s.fault = false ∧ validMode s.emode.toNat = true ∧ s.mem.pbuf.length ≤ s.cursor.byteIdx.toNat) ∨
      (i = .pqPop ∧ s.mem.pixq = []) ∨ (i = .obPop ∧ s.mem.obuf = []) ∨
      (∃ a, i = .rd a ∧ readReg s a = none) ∨
      ∃ sel idx, i = .rdStr sel idx ∧ readString s.hdr sel idx = none) ∧
    (r.st.code = 1 → r.data = 0)
end

