-- ==== Sys2Proof/Laws/Cursor.lean ====
section
/-! SUPPORT. The cursor's arithmetic, by bit positions, and the bits of `mask`. -/

namespace Sys2Proof.Machine

theorem Cursor.pos_lt (c : Cursor) : c.pos < 2 ^ 35 := by
  have h1 := c.byteIdx.isLt
  have h2 := c.bitIdx.isLt
  simp only [Cursor.pos]
  omega

@[simp] theorem Cursor.ofPos_byteIdx (n : Nat) : (Cursor.ofPos n).byteIdx = BitVec.ofNat 32 (n / 8) := rfl
@[simp] theorem Cursor.ofPos_bitIdx (n : Nat) : (Cursor.ofPos n).bitIdx = BitVec.ofNat 3 (n % 8) := rfl

theorem Cursor.ofPos_bitIdx_toNat (n : Nat) : (Cursor.ofPos n).bitIdx.toNat = n % 8 := by
  simp

theorem Cursor.ofPos_byteIdx_toNat {n : Nat} (h : n < 2 ^ 35) : (Cursor.ofPos n).byteIdx.toNat = n / 8 := by
  simp
  omega

@[simp] theorem Cursor.pos_ofPos {n : Nat} (h : n < 2 ^ 35) : (Cursor.ofPos n).pos = n := by
  simp only [Cursor.pos, Cursor.ofPos_byteIdx_toNat h, Cursor.ofPos_bitIdx_toNat]
  omega

@[simp] theorem Cursor.ofPos_pos (c : Cursor) : Cursor.ofPos c.pos = c := by
  have h1 := c.byteIdx.isLt
  have h2 := c.bitIdx.isLt
  cases c with
  | mk b i =>
    simp only [Cursor.pos] at *
    simp only [Cursor.ofPos, Cursor.mk.injEq]
    constructor <;> apply BitVec.eq_of_toNat_eq <;> simp <;> omega

@[simp] theorem Cursor.zero_pos : Cursor.zero.pos = 0 := rfl

/-- The position after `Advance(n)`, where it does not leave the 32-bit range. -/
theorem Cursor.advance_pos {c : Cursor} {n : Nat} (h : c.pos + n < 2 ^ 35) : (c.advance n).pos = c.pos + n :=
  Cursor.pos_ofPos h

theorem Cursor.byteIdx_eq_div (c : Cursor) : c.byteIdx.toNat = c.pos / 8 := by
  have := c.bitIdx.isLt
  simp only [Cursor.pos]
  omega

theorem Cursor.bitIdx_eq_mod (c : Cursor) : c.bitIdx.toNat = c.pos % 8 := by
  have := c.bitIdx.isLt
  simp only [Cursor.pos]
  omega

/-- `AtEnd` in terms of positions. -/
theorem Cursor.atEnd_iff (c : Cursor) (len : Nat) : c.atEnd len = true ↔ 8 * len ≤ c.pos := by
  simp only [Cursor.atEnd, decide_eq_true_eq, c.byteIdx_eq_div]
  omega

theorem Cursor.not_atEnd_iff (c : Cursor) (len : Nat) : c.atEnd len = false ↔ c.pos < 8 * len := by
  rw [← Bool.not_eq_true, Cursor.atEnd_iff]
  omega

/-- The byte under the cursor exists exactly before the end. -/
theorem byteUnder_of_lt {buf : List Byte} {c : Cursor} (h : c.pos < 8 * buf.length) :
    byteUnder buf c = some (buf.getD (c.pos / 8) 0) := by
  have hlt : c.byteIdx.toNat < buf.length := by rw [c.byteIdx_eq_div]; omega
  simp only [byteUnder, List.getElem?_eq_getElem hlt, Option.some.injEq]
  rw [List.getD_eq_getElem?_getD, ← c.byteIdx_eq_div, List.getElem?_eq_getElem hlt, Option.getD_some]

theorem byteUnder_of_le {buf : List Byte} {c : Cursor} (h : 8 * buf.length ≤ c.pos) : byteUnder buf c = none := by
  simp only [byteUnder, List.getElem?_eq_none_iff, c.byteIdx_eq_div]
  omega

/-- `Mask(b)` has the one bit `b`, counted from the most significant. -/
theorem mask_getMsbD (b : BitVec 3) (j : Nat) (hj : j < 8) : (mask b).getMsbD j = decide (j = b.toNat) := by
  revert b j
  decide

end Sys2Proof.Machine
end

