-- ==== Sys2Proof/Laws/Codec.lean ====
section
/-! SUPPORT. What the codec's parts do, by bit positions: a channel collects the payload bits of an interval of
positions; a pixel moves the cursor by the mode, stopping at the end; the decoder's accumulator holds a prefix of the
stream of bits it took. -/

namespace Sys2Proof.Machine

/-! ## Encoding -/

/-- The bit under the cursor, masked, is at its own position. -/
theorem masked_bit {buf : List Byte} {cur : Cursor} {j : Nat} (hj : j < 8) :
    (buf.getD (cur.pos / 8) 0 &&& mask cur.bitIdx).getMsbD j = true ↔
      j = cur.pos % 8 ∧ bitAt buf cur.pos = true := by
  rw [BitVec.getMsbD_and, mask_getMsbD _ _ hj, cur.bitIdx_eq_mod, Bool.and_eq_true, decide_eq_true_eq]
  constructor
  · rintro ⟨hb, rfl⟩; exact ⟨rfl, hb⟩
  · rintro ⟨rfl, hb⟩; exact ⟨hb, rfl⟩

/-- `Chan(k)` moves the cursor by `k` bits or to the end of the payload, and its result has, beside the bits it
started with, each payload bit of the positions it passed at that bit's own place (R116). -/
theorem chan_spec {buf : List Byte} (hlen : buf.length < 2 ^ 32) (k : Nat) (c : Byte) (cur : Cursor)
    (hcur : cur.pos ≤ 8 * buf.length) :
    (chan buf k c cur).2 = Cursor.ofPos (min (cur.pos + k) (8 * buf.length)) ∧
      ∀ j < 8, ((chan buf k c cur).1.getMsbD j = true ↔ c.getMsbD j = true ∨
        ∃ q, cur.pos ≤ q ∧ q < min (cur.pos + k) (8 * buf.length) ∧ q % 8 = j ∧ bitAt buf q = true) := by
  induction k generalizing c cur with
  | zero =>
    refine ⟨?_, fun j _ => ?_⟩
    · rw [chan, Nat.add_zero, Nat.min_eq_left hcur, Cursor.ofPos_pos]
    · rw [chan]
      constructor
      · exact Or.inl
      · rintro (h | ⟨q, h1, h2, -⟩)
        · exact h
        · omega
  | succ k ih =>
    by_cases hlt : cur.pos < 8 * buf.length
    · have hadv : (cur.advance 1).pos = cur.pos + 1 := Cursor.advance_pos (by omega)
      obtain ⟨hpos, hbits⟩ :=
        ih (c ||| (buf.getD (cur.pos / 8) 0 &&& mask cur.bitIdx)) (cur.advance 1) (by omega)
      rw [chan, byteUnder_of_lt hlt]
      refine ⟨by rw [hpos, hadv]; congr 1; omega, fun j hj => ?_⟩
      rw [hbits j hj, BitVec.getMsbD_or, Bool.or_eq_true, masked_bit hj, hadv, or_assoc]
      refine or_congr_right ⟨?_, ?_⟩
      · rintro (⟨rfl, hb⟩ | ⟨q, h1, h2, h3, h4⟩)
        · exact ⟨cur.pos, le_refl _, by omega, rfl, hb⟩
        · exact ⟨q, by omega, by omega, h3, h4⟩
      · rintro ⟨q, h1, h2, h3, h4⟩
        rcases Nat.eq_or_lt_of_le h1 with rfl | h1
        · exact .inl ⟨h3.symm, h4⟩
        · exact .inr ⟨q, by omega, by omega, h3, h4⟩
    · rw [chan, byteUnder_of_le (by omega)]
      refine ⟨by rw [show min (cur.pos + (k + 1)) (8 * buf.length) = cur.pos by omega, Cursor.ofPos_pos],
        fun j _ => ⟨Or.inl, ?_⟩⟩
      rintro (h | ⟨q, h1, h2, -⟩)
      · exact h
      · omega

theorem chan_pos {buf : List Byte} (hlen : buf.length < 2 ^ 32) (k : Nat) (c : Byte) (cur : Cursor)
    (hcur : cur.pos ≤ 8 * buf.length) : (chan buf k c cur).2.pos = min (cur.pos + k) (8 * buf.length) := by
  rw [(chan_spec hlen k c cur hcur).1, Cursor.pos_ofPos (by omega)]

/-- One byte of mode 24 moves an aligned cursor by 8 bits or leaves it at the end (R114). -/
theorem takeByte_pos {buf : List Byte} (hlen : buf.length < 2 ^ 32) {cur : Cursor} (hcur : cur.pos ≤ 8 * buf.length)
    (hal : cur.pos % 8 = 0) : (takeByte buf cur).2.2.pos = min (cur.pos + 8) (8 * buf.length) := by
  by_cases hlt : cur.pos < 8 * buf.length
  · rw [takeByte, byteUnder_of_lt hlt]
    rw [Cursor.advance_pos (by omega)]
    omega
  · rw [takeByte, byteUnder_of_le (by omega)]
    simp only
    omega

/-- What one channel of mode 24 takes: the next byte and a count of 1, or 0 and a count of 0 at the end (R114). -/
theorem takeByte_eq {buf : List Byte} {cur : Cursor} (h0 : cur.bitIdx = 0) (h : cur.byteIdx.toNat ≤ buf.length) :
    takeByte buf cur =
      (buf.getD cur.byteIdx.toNat 0, BitVec.ofNat 2 (min 1 (buf.length - cur.byteIdx.toNat)),
        ⟨BitVec.ofNat 32 (min (cur.byteIdx.toNat + 1) buf.length), 0⟩) := by
  have hp : cur.pos = 8 * cur.byteIdx.toNat := by simp [Cursor.pos, h0]
  by_cases hlt : cur.byteIdx.toNat < buf.length
  · rw [takeByte, byteUnder_of_lt (by omega)]
    simp only [hp, Cursor.advance, Cursor.ofPos]
    rw [show min 1 (buf.length - cur.byteIdx.toNat) = 1 by omega,
      show min (cur.byteIdx.toNat + 1) buf.length = cur.byteIdx.toNat + 1 by omega]
    simp
  · rw [takeByte, byteUnder_of_le (by omega)]
    rw [show min 1 (buf.length - cur.byteIdx.toNat) = 0 by omega,
      show min (cur.byteIdx.toNat + 1) buf.length = cur.byteIdx.toNat by omega]
    simp only [BitVec.ofNat_toNat, Prod.mk.injEq]
    refine ⟨?_, rfl, ?_⟩
    · rw [List.getD_eq_getElem?_getD, List.getElem?_eq_none (by omega)]
      rfl
    · cases cur
      simp_all

theorem validMode_iff (m : Nat) : validMode m = true ↔ m = 1 ∨ (m % 3 = 0 ∧ 3 ≤ m ∧ m ≤ 24) := by
  simp [validMode]

/-- A pixel of mode `m` moves the cursor by `m` bits, or to the end of the payload (R113 to R117). -/
theorem nextPixel_pos {buf : List Byte} (hlen : buf.length < 2 ^ 32) {m : Nat} (hm : validMode m = true)
    {cur : Cursor} (hcur : cur.pos < 8 * buf.length) (hal : m = 24 → cur.pos % 8 = 0) :
    (nextPixel buf m cur).2.pos = min (cur.pos + m) (8 * buf.length) := by
  rw [validMode_iff] at hm
  unfold nextPixel
  split_ifs with h24 h1
  · subst h24
    have a0 := hal rfl
    have p1 := takeByte_pos hlen (Nat.le_of_lt hcur) a0
    have p2 := takeByte_pos hlen (cur := (takeByte buf cur).2.2) (by omega) (by omega)
    have p3 := takeByte_pos hlen (cur := (takeByte buf (takeByte buf cur).2.2).2.2) (by omega) (by omega)
    simp only [nextPixelBytes]
    rw [p3, p2, p1]
    omega
  · subst h1
    rw [nextPixelMono, byteUnder_of_lt hcur]
    rw [Cursor.advance_pos (by omega)]
    omega
  · have p1 := chan_pos hlen (bitsPerChannel m) 0 cur (Nat.le_of_lt hcur)
    have p2 := chan_pos hlen (bitsPerChannel m) 0 (chan buf (bitsPerChannel m) 0 cur).2 (by omega)
    have p3 := chan_pos hlen (bitsPerChannel m) 0
      (chan buf (bitsPerChannel m) 0 (chan buf (bitsPerChannel m) 0 cur).2).2 (by omega)
    simp only [nextPixelGrouped]
    simp only [bitsPerChannel] at *
    omega

@[simp] theorem encodeFrom_zero (buf : List Byte) (m : Nat) (cur : Cursor) : encodeFrom buf m 0 cur = [] := rfl

theorem encodeFrom_atEnd {buf : List Byte} {m : Nat} {cur : Cursor} (h : cur.atEnd buf.length = true) (turns : Nat) :
    encodeFrom buf m turns cur = [] := by
  cases turns <;> simp [encodeFrom, h]

theorem encodeFrom_succ {buf : List Byte} {m : Nat} {cur : Cursor} (h : cur.atEnd buf.length = false) (turns : Nat) :
    encodeFrom buf m (turns + 1) cur =
      (nextPixel buf m cur).1 :: encodeFrom buf m turns (nextPixel buf m cur).2 := by
  simp [encodeFrom, h]

/-- Any bound on the turns that covers the bits left gives the same encode (R113, log 12). -/
theorem encodeFrom_turns {buf : List Byte} (hlen : buf.length < 2 ^ 32) {m : Nat} (hm : validMode m = true)
    (a b : Nat) (cur : Cursor) (hal : m = 24 → cur.pos % 8 = 0) (ha : 8 * buf.length - cur.pos ≤ a)
    (hb : 8 * buf.length - cur.pos ≤ b) : encodeFrom buf m a cur = encodeFrom buf m b cur := by
  have hm1 : 1 ≤ m := by
    rw [validMode_iff] at hm
    omega
  induction a generalizing b cur with
  | zero => rw [encodeFrom_atEnd (by rw [Cursor.atEnd_iff]; omega), encodeFrom_atEnd (by rw [Cursor.atEnd_iff]; omega)]
  | succ a ih =>
    by_cases he : cur.pos < 8 * buf.length
    · have ne := (cur.not_atEnd_iff buf.length).2 he
      obtain ⟨b, rfl⟩ : ∃ b', b = b' + 1 := ⟨b - 1, by omega⟩
      rw [encodeFrom_succ ne, encodeFrom_succ ne]
      have hp := nextPixel_pos hlen hm he hal
      rw [ih b _ (fun h => by have := hal h; omega) (by omega) (by omega)]
    · rw [encodeFrom_atEnd (by rw [Cursor.atEnd_iff]; omega), encodeFrom_atEnd (by rw [Cursor.atEnd_iff]; omega)]

/-- The loop of `ENC.RUN` makes the first `room` pixels of the encode (R119). -/
theorem encodeRun_pixels (buf : List Byte) (m turns room : Nat) (cur : Cursor) :
    (encodeRun buf m turns room cur).1 = (encodeFrom buf m turns cur).take room := by
  induction turns generalizing room cur with
  | zero => simp [encodeRun]
  | succ turns ih =>
    cases he : cur.atEnd buf.length
    · cases room with
      | zero => simp [encodeRun]
      | succ room => simp [encodeRun, he, encodeFrom_succ he, ih]
    · simp [encodeRun, he, encodeFrom_atEnd he]

/-- The loop of `ENC.RUN` leaves the cursor where as many pixel steps leave it (R119). -/
theorem encodeRun_cursor (buf : List Byte) (m turns room : Nat) (cur : Cursor) :
    (encodeRun buf m turns room cur).2 =
      (fun c => (nextPixel buf m c).2)^[(encodeRun buf m turns room cur).1.length] cur := by
  induction turns generalizing room cur with
  | zero => simp [encodeRun]
  | succ turns ih =>
    by_cases h : cur.atEnd buf.length = false ∧ 0 < room
    · simp only [encodeRun, h, and_self, if_true, List.length_cons, Function.iterate_succ, Function.comp]
      exact ih _ _
    · simp [encodeRun, h]

/-! ## Decoding -/

/-- The accumulator has taken the first `n` bits of the stream `f`: the bytes completed are `n / 8`, the counter is
`n mod 8`, and the byte in progress has those bits at their own places and no others (R136). -/
structure DecAcc.Took (f : Nat → Bool) (n : Nat) (a : DecAcc) : Prop where
  length_out : a.out.length = n / 8
  s_eq : a.s.toNat = n % 8
  out_bits : ∀ q < 8 * (n / 8), bitAt a.out q = f q
  acc_bits : ∀ j < 8, a.acc.getMsbD j = (decide (j < n % 8) && f (8 * (n / 8) + j))

theorem DecAcc.start_took (f : Nat → Bool) : DecAcc.start.Took f 0 :=
  ⟨rfl, rfl, by intro q hq; omega, by intro j _; simp [DecAcc.start]⟩

theorem bitAt_append_left {p r : List Byte} {q : Nat} (h : q < 8 * p.length) : bitAt (p ++ r) q = bitAt p q := by
  have h' : q / 8 < p.length := by omega
  simp [bitAt, List.getElem?_append_left h']

theorem bitAt_append_right {p r : List Byte} {q : Nat} (h : 8 * p.length ≤ q) :
    bitAt (p ++ r) q = bitAt r (q - 8 * p.length) := by
  have h1 : p.length ≤ q / 8 := by omega
  have h2 : (q - 8 * p.length) / 8 = q / 8 - p.length := by omega
  have h3 : (q - 8 * p.length) % 8 = q % 8 := by omega
  simp [bitAt, List.getElem?_append_right h1, h2, h3]

/-- Taking one bit of `v` takes the next bit of the stream, if that is what `v` has at the counter's place. -/
theorem DecAcc.Took.takeBit {f : Nat → Bool} {n : Nat} {a : DecAcc} (h : a.Took f n) {v : Byte}
    (hv : v.getMsbD (n % 8) = f n) : (a.takeBit v).Took f (n + 1) := by
  have hs := h.s_eq
  have hacc : ∀ j < 8, (a.acc ||| (v &&& mask a.s)).getMsbD j =
      (decide (j < n % 8 + 1) && f (8 * (n / 8) + j)) := by
    intro j hj
    rw [BitVec.getMsbD_or, BitVec.getMsbD_and, mask_getMsbD _ _ hj, h.acc_bits j hj, hs]
    rcases Nat.lt_trichotomy j (n % 8) with hj' | hj' | hj'
    · simp [hj', Nat.lt_succ_of_lt hj', Nat.ne_of_lt hj']
    · subst hj'
      rw [hv, show 8 * (n / 8) + n % 8 = n by omega]
      simp
    · have h1 : ¬ j < n % 8 := by omega
      have h2 : ¬ j < n % 8 + 1 := by omega
      have h3 : ¬ j = n % 8 := by omega
      simp [h1, h2, h3]
  have hwrap : a.s + 1 = 0 ↔ n % 8 = 7 := by
    constructor
    · intro e
      have := congrArg BitVec.toNat e
      simp at this
      omega
    · intro e
      apply BitVec.eq_of_toNat_eq
      simp
      omega
  by_cases hw : n % 8 = 7
  · have e : a.takeBit v = { acc := 0, s := 0, out := a.out ++ [a.acc ||| (v &&& mask a.s)] } := by
      simp only [DecAcc.takeBit, if_pos (hwrap.2 hw)]
    have hlen := h.length_out
    rw [e]
    refine ⟨by simp; omega, by simp; omega, ?_, ?_⟩
    · intro q hq
      by_cases hq' : q < 8 * (n / 8)
      · rw [bitAt_append_left (by omega), h.out_bits q hq']
      · rw [bitAt_append_right (by omega), show q - 8 * a.out.length = q % 8 by omega]
        have hb := hacc (q % 8) (by omega)
        simp only [bitAt, show q % 8 / 8 = 0 by omega, List.getD_cons_zero, Nat.mod_mod]
        rw [hb, show 8 * (n / 8) + q % 8 = q by omega]
        simp
        omega
    · intro j _
      have : ¬ j < (n + 1) % 8 := by omega
      simp [this]
  · have e : a.takeBit v = { acc := a.acc ||| (v &&& mask a.s), s := a.s + 1, out := a.out } := by
      simp only [DecAcc.takeBit, if_neg fun e => hw (hwrap.1 e)]
    have hd : (n + 1) / 8 = n / 8 := by omega
    have hmod : (n + 1) % 8 = n % 8 + 1 := by omega
    rw [e]
    refine ⟨by simp only [hd, h.length_out], ?_, ?_, ?_⟩
    · simp [BitVec.toNat_add, hs, hmod]
    · intro q hq
      exact h.out_bits q (by omega)
    · intro j hj
      simp only [hd, hmod]
      exact hacc j hj

/-- Taking `k` bits of `v` takes the next `k` bits of the stream. -/
theorem DecAcc.Took.takeBits {f : Nat → Bool} {k n : Nat} {a : DecAcc} (h : a.Took f n) {v : Byte}
    (hv : ∀ i < k, v.getMsbD ((n + i) % 8) = f (n + i)) : (a.takeBits v k).Took f (n + k) := by
  induction k generalizing n a with
  | zero => simpa [DecAcc.takeBits] using h
  | succ k ih =>
    have h1 := h.takeBit (v := v) (hv 0 (by omega))
    have h2 := ih h1 (fun i hi => by
      have := hv (i + 1) (by omega)
      rwa [show n + (i + 1) = n + 1 + i by omega] at this)
    rwa [show n + 1 + k = n + (k + 1) by omega] at h2

/-- What the end of the input gives: the complete bytes, and the partial byte unless it is all zero (R137, R139). -/
theorem DecAcc.Took.finish_cases {f : Nat → Bool} {n : Nat} {a : DecAcc} (h : a.Took f n) :
    ((∃ q, 8 * (n / 8) ≤ q ∧ q < n ∧ f q = true) ∧ a.finish = a.out ++ [a.acc]) ∨
      ((∀ q, 8 * (n / 8) ≤ q → q < n → f q = false) ∧ a.finish = a.out) := by
  have hs := h.s_eq
  have hacc : a.acc = 0 ↔ ∀ q, 8 * (n / 8) ≤ q → q < n → f q = false := by
    constructor
    · intro e q h1 h2
      have hb := h.acc_bits (q - 8 * (n / 8)) (by omega)
      rw [e, show 8 * (n / 8) + (q - 8 * (n / 8)) = q by omega] at hb
      have : q - 8 * (n / 8) < n % 8 := by omega
      simpa [this] using hb.symm
    · intro e
      apply BitVec.eq_of_getMsbD_eq
      intro j hj
      rw [h.acc_bits j hj]
      by_cases hj' : j < n % 8
      · simp [hj', e (8 * (n / 8) + j) (by omega) (by omega)]
      · simp [hj']
  by_cases hz : a.acc = 0
  · exact .inr ⟨hacc.1 hz, by simp [DecAcc.finish, hz]⟩
  · refine .inl ⟨?_, ?_⟩
    · by_contra hn
      push Not at hn
      exact hz (hacc.2 fun q h1 h2 => by simpa using hn q h1 h2)
    · have hsne : a.s ≠ 0 := by
        intro e
        apply hz
        rw [hacc]
        intro q h1 h2
        rw [e] at hs
        simp at hs
        omega
      simp only [DecAcc.finish, if_pos (And.intro hsne hz)]

/-- The red samples are every third integer from the first (R137). -/
theorem redSamples_spec : ∀ c : List Byte,
    (redSamples c).length = (c.length + 2) / 3 ∧ ∀ j, (redSamples c).getD j 0 = c.getD (3 * j) 0
  | [] => by simp [redSamples]
  | [r] => by
    simp only [redSamples, List.length_singleton, true_and]
    intro j
    cases j <;> simp
  | [r, x] => by
    refine ⟨by simp [redSamples], fun j => ?_⟩
    cases j <;> simp [redSamples, show ∀ n, 3 * (n + 1) = 3 * n + 2 + 1 by intro n; ring]
  | r :: _ :: _ :: rest => by
    have ih := redSamples_spec rest
    refine ⟨by simp [redSamples, ih.1]; omega, fun j => ?_⟩
    cases j with
    | zero => simp [redSamples]
    | succ j =>
      have := ih.2 j
      simp only [redSamples, List.getD_cons_succ, show 3 * (j + 1) = 3 * j + 2 + 1 by ring] at this ⊢
      exact this

end Sys2Proof.Machine
end

