-- ==== Sys2Proof/Laws/Decode.lean ====
section
/-! SUPPORT. The words of the five formats by their fields: a word is a format's word exactly when its fields say so
(R80, R81, R82). -/

namespace Sys2Proof

theorem eq_wordZ_iff (w : Word) (opc : Byte) : w = wordZ opc ↔ opcOf w = opc ∧ opdOf w = 0 := by
  constructor
  · rintro rfl
    constructor <;>
      (apply BitVec.eq_of_getLsbD_eq
       intro i hi
       simp only [wordZ, opcOf, opdOf, BitVec.getLsbD_extractLsb', BitVec.getLsbD_append]
       interval_cases i <;> simp)
  · rintro ⟨h1, h2⟩
    have e : w = opcOf w ++ opdOf w := by
      apply BitVec.eq_of_getLsbD_eq
      intro i hi
      simp only [BitVec.getLsbD_append, BitVec.getLsbD_extractLsb', opcOf, opdOf]
      interval_cases i <;> simp
    rw [e, h1, h2]
    rfl

theorem eq_wordM_iff (w : Word) (opc : Byte) (m : BitVec 24) : w = wordM opc m ↔ opcOf w = opc ∧ opdOf w = m := by
  constructor
  · rintro rfl
    constructor <;>
      (apply BitVec.eq_of_getLsbD_eq
       intro i hi
       simp only [wordM, opcOf, opdOf, BitVec.getLsbD_extractLsb', BitVec.getLsbD_append]
       interval_cases i <;> simp)
  · rintro ⟨h1, h2⟩
    have e : w = opcOf w ++ opdOf w := by
      apply BitVec.eq_of_getLsbD_eq
      intro i hi
      simp only [BitVec.getLsbD_append, BitVec.getLsbD_extractLsb', opcOf, opdOf]
      interval_cases i <;> simp
    rw [e, h1, h2]
    rfl

theorem eq_wordB_iff (w : Word) (opc imm8 : Byte) :
    w = wordB opc imm8 ↔ opcOf w = opc ∧ w.extractLsb' 8 16 = 0 ∧ imm8Of w = imm8 := by
  constructor
  · rintro rfl
    refine ⟨?_, ?_, ?_⟩ <;>
      (apply BitVec.eq_of_getLsbD_eq
       intro i hi
       simp only [wordB, opcOf, imm8Of, BitVec.getLsbD_extractLsb', BitVec.getLsbD_append]
       interval_cases i <;> simp)
  · rintro ⟨h1, h2, h3⟩
    have e : w = opcOf w ++ w.extractLsb' 8 16 ++ imm8Of w := by
      apply BitVec.eq_of_getLsbD_eq
      intro i hi
      simp only [BitVec.getLsbD_append, BitVec.getLsbD_extractLsb', opcOf, imm8Of]
      interval_cases i <;> simp
    rw [e, h1, h2, h3]
    rfl

theorem eq_wordK_iff (w : Word) (opc : Byte) (code4 : BitVec 4) :
    w = wordK opc code4 ↔ opcOf w = opc ∧ w.extractLsb' 4 20 = 0 ∧ code4Of w = code4 := by
  constructor
  · rintro rfl
    refine ⟨?_, ?_, ?_⟩ <;>
      (apply BitVec.eq_of_getLsbD_eq
       intro i hi
       simp only [wordK, opcOf, code4Of, BitVec.getLsbD_extractLsb', BitVec.getLsbD_append]
       interval_cases i <;> simp)
  · rintro ⟨h1, h2, h3⟩
    have e : w = opcOf w ++ w.extractLsb' 4 20 ++ code4Of w := by
      apply BitVec.eq_of_getLsbD_eq
      intro i hi
      simp only [BitVec.getLsbD_append, BitVec.getLsbD_extractLsb', opcOf, code4Of]
      interval_cases i <;> simp
    rw [e, h1, h2, h3]
    rfl

theorem eq_wordS_iff (w : Word) (opc : Byte) (sel : BitVec 4) (idx : BitVec 16) :
    w = wordS opc sel idx ↔ opcOf w = opc ∧ w.extractLsb' 20 4 = 0 ∧ selOf w = sel ∧ idxOf w = idx := by
  constructor
  · rintro rfl
    refine ⟨?_, ?_, ?_, ?_⟩ <;>
      (apply BitVec.eq_of_getLsbD_eq
       intro i hi
       simp only [wordS, opcOf, selOf, idxOf, BitVec.getLsbD_extractLsb', BitVec.getLsbD_append]
       interval_cases i <;> simp)
  · rintro ⟨h1, h2, h3, h4⟩
    have e : w = opcOf w ++ w.extractLsb' 20 4 ++ selOf w ++ idxOf w := by
      apply BitVec.eq_of_getLsbD_eq
      intro i hi
      simp only [BitVec.getLsbD_append, BitVec.getLsbD_extractLsb', opcOf, selOf, idxOf]
      interval_cases i <;> simp
    rw [e, h1, h2, h3, h4]
    rfl

/-! ## What a format's decoding gives, where it gives a command (R81, R85) -/

theorem requireZero_eq_instr {n : Nat} {field : BitVec n} {i j : Instr} (h : requireZero field i = .instr j) :
    field = 0 ∧ j = i := by
  unfold requireZero at h
  split_ifs at h with hz
  exact ⟨hz, by cases h; rfl⟩

theorem formatZ_eq_instr {w : Word} {opc : Byte} {i j : Instr} (h : formatZ w i = .instr j) (ho : opcOf w = opc) :
    w = wordZ opc ∧ j = i := by
  obtain ⟨hz, hj⟩ := requireZero_eq_instr h
  exact ⟨by rw [eq_wordZ_iff]; exact ⟨ho, hz⟩, hj⟩

theorem formatB_eq_instr {w : Word} {opc : Byte} {f : BitVec 8 → Instr} {j : Instr} (h : formatB w f = .instr j)
    (ho : opcOf w = opc) : w = wordB opc (imm8Of w) ∧ j = f (imm8Of w) := by
  obtain ⟨hz, hj⟩ := requireZero_eq_instr h
  exact ⟨by rw [eq_wordB_iff]; exact ⟨ho, hz, rfl⟩, hj⟩

theorem formatM_eq_instr {w : Word} {opc : Byte} {f : BitVec 24 → Instr} {j : Instr} (h : formatM w f = .instr j)
    (ho : opcOf w = opc) : w = wordM opc (opdOf w) ∧ j = f (opdOf w) :=
  ⟨by rw [eq_wordM_iff]; exact ⟨ho, rfl⟩, by cases h; rfl⟩

theorem formatS_eq_instr {w : Word} {opc : Byte} {f : BitVec 4 → BitVec 16 → Instr} {j : Instr}
    (h : formatS w f = .instr j) (ho : opcOf w = opc) :
    w = wordS opc (selOf w) (idxOf w) ∧ j = f (selOf w) (idxOf w) := by
  obtain ⟨hz, hj⟩ := requireZero_eq_instr h
  exact ⟨by rw [eq_wordS_iff]; exact ⟨ho, hz, rfl, rfl⟩, hj⟩

theorem formatK_eq_instr {w : Word} {opc : Byte} {f : BitVec 4 → Instr} {j : Instr} (h : formatK w f = .instr j)
    (ho : opcOf w = opc) : w = wordK opc (code4Of w) ∧ j = f (code4Of w) := by
  obtain ⟨hz, hj⟩ := requireZero_eq_instr h
  exact ⟨by rw [eq_wordK_iff]; exact ⟨ho, hz, rfl⟩, hj⟩

theorem opcOf_toNat_eq_iff (w : Word) {n : Nat} (hn : n < 256) : (opcOf w).toNat = n ↔ opcOf w = BitVec.ofNat 8 n := by
  constructor
  · intro h
    apply BitVec.eq_of_toNat_eq
    simp [h]
    omega
  · intro h
    rw [h]
    simp
    omega

end Sys2Proof
end

