-- ==== Sys2Proof/Laws/State.lean ====
section
/-! SUPPORT. One lemma per field per named update of the state, so that no proof unfolds an update. -/

namespace Sys2Proof.Machine

/-! ## `respond` -/

@[simp] theorem respond_cursor (st : RespStatus) (data : Word) (s : State) : (respond st data s).cursor = s.cursor := rfl
@[simp] theorem respond_emode (st : RespStatus) (data : Word) (s : State) : (respond st data s).emode = s.emode := rfl
@[simp] theorem respond_mem (st : RespStatus) (data : Word) (s : State) : (respond st data s).mem = s.mem := rfl
@[simp] theorem respond_fault (st : RespStatus) (data : Word) (s : State) : (respond st data s).fault = s.fault := rfl
@[simp] theorem respond_err (st : RespStatus) (data : Word) (s : State) : (respond st data s).err = s.err := rfl
@[simp] theorem respond_errInfo (st : RespStatus) (data : Word) (s : State) : (respond st data s).errInfo = s.errInfo := rfl
@[simp] theorem respond_hdr (st : RespStatus) (data : Word) (s : State) : (respond st data s).hdr = s.hdr := rfl
@[simp] theorem respond_port (st : RespStatus) (data : Word) (s : State) : (respond st data s).port = s.port := rfl
@[simp] theorem respond_resp (st : RespStatus) (data : Word) (s : State) : (respond st data s).resp = some { st := st, data := data } := rfl

/-! ## `latch` -/

@[simp] theorem latch_cursor (c : BitVec 4) (info : Word) (s : State) : (latch c info s).cursor = s.cursor := rfl
@[simp] theorem latch_emode (c : BitVec 4) (info : Word) (s : State) : (latch c info s).emode = s.emode := rfl
@[simp] theorem latch_mem (c : BitVec 4) (info : Word) (s : State) : (latch c info s).mem = s.mem := rfl
@[simp] theorem latch_fault (c : BitVec 4) (info : Word) (s : State) : (latch c info s).fault = true := rfl
@[simp] theorem latch_err (c : BitVec 4) (info : Word) (s : State) : (latch c info s).err = c := rfl
@[simp] theorem latch_errInfo (c : BitVec 4) (info : Word) (s : State) : (latch c info s).errInfo = info := rfl
@[simp] theorem latch_hdr (c : BitVec 4) (info : Word) (s : State) : (latch c info s).hdr = s.hdr := rfl
@[simp] theorem latch_port (c : BitVec 4) (info : Word) (s : State) : (latch c info s).port = s.port := rfl
@[simp] theorem latch_resp (c : BitVec 4) (info : Word) (s : State) : (latch c info s).resp = some { st := .err, data := c.setWidth 32 } := rfl

/-! ## `raise` -/

@[simp] theorem raise_cursor (c : Cause) (info : Word) (s : State) : (raise c info s).cursor = s.cursor := rfl
@[simp] theorem raise_emode (c : Cause) (info : Word) (s : State) : (raise c info s).emode = s.emode := rfl
@[simp] theorem raise_mem (c : Cause) (info : Word) (s : State) : (raise c info s).mem = s.mem := rfl
@[simp] theorem raise_fault (c : Cause) (info : Word) (s : State) : (raise c info s).fault = true := rfl
@[simp] theorem raise_err (c : Cause) (info : Word) (s : State) : (raise c info s).err = c.code := rfl
@[simp] theorem raise_errInfo (c : Cause) (info : Word) (s : State) : (raise c info s).errInfo = info := rfl
@[simp] theorem raise_hdr (c : Cause) (info : Word) (s : State) : (raise c info s).hdr = s.hdr := rfl
@[simp] theorem raise_port (c : Cause) (info : Word) (s : State) : (raise c info s).port = s.port := rfl
@[simp] theorem raise_resp (c : Cause) (info : Word) (s : State) : (raise c info s).resp = some { st := .err, data := c.code.setWidth 32 } := rfl

/-! ## `resetBlock` -/

@[simp] theorem resetBlock_cursor (s : State) : (resetBlock s).cursor = Cursor.zero := rfl
@[simp] theorem resetBlock_emode (s : State) : (resetBlock s).emode = 0 := rfl
@[simp] theorem resetBlock_mem (s : State) : (resetBlock s).mem = Memory.empty := rfl
@[simp] theorem resetBlock_fault (s : State) : (resetBlock s).fault = false := rfl
@[simp] theorem resetBlock_err (s : State) : (resetBlock s).err = 0 := rfl
@[simp] theorem resetBlock_errInfo (s : State) : (resetBlock s).errInfo = 0 := rfl
@[simp] theorem resetBlock_hdr (s : State) : (resetBlock s).hdr = HdrRegs.armed := rfl
@[simp] theorem resetBlock_port (s : State) : (resetBlock s).port = s.port := rfl
@[simp] theorem resetBlock_resp (s : State) : (resetBlock s).resp = s.resp := rfl

/-! ## `hardReset` -/

@[simp] theorem hardReset_cursor (s : State) : (hardReset s).cursor = Cursor.zero := rfl
@[simp] theorem hardReset_emode (s : State) : (hardReset s).emode = 0 := rfl
@[simp] theorem hardReset_mem (s : State) : (hardReset s).mem = Memory.empty := rfl
@[simp] theorem hardReset_fault (s : State) : (hardReset s).fault = false := rfl
@[simp] theorem hardReset_err (s : State) : (hardReset s).err = 0 := rfl
@[simp] theorem hardReset_errInfo (s : State) : (hardReset s).errInfo = 0 := rfl
@[simp] theorem hardReset_hdr (s : State) : (hardReset s).hdr = HdrRegs.armed := rfl
@[simp] theorem hardReset_port (s : State) : (hardReset s).port = s.port := rfl
@[simp] theorem hardReset_resp (s : State) : (hardReset s).resp = none := rfl

/-! ## `startHeader` -/

@[simp] theorem startHeader_cursor (s : State) : (startHeader s).cursor = s.cursor := rfl
@[simp] theorem startHeader_emode (s : State) : (startHeader s).emode = s.emode := rfl
@[simp] theorem startHeader_mem (s : State) : (startHeader s).mem = s.mem := rfl
@[simp] theorem startHeader_fault (s : State) : (startHeader s).fault = s.fault := rfl
@[simp] theorem startHeader_err (s : State) : (startHeader s).err = s.err := rfl
@[simp] theorem startHeader_errInfo (s : State) : (startHeader s).errInfo = s.errInfo := rfl
@[simp] theorem startHeader_hdr (s : State) : (startHeader s).hdr = HdrRegs.armed := rfl
@[simp] theorem startHeader_port (s : State) : (startHeader s).port = s.port := rfl
@[simp] theorem startHeader_resp (s : State) : (startHeader s).resp = some { st := .ok, data := 0 } := rfl

/-! ## `clearBytes` -/

@[simp] theorem clearBytes_cursor (sp : ByteSpace) (s : State) : (clearBytes sp s).cursor = s.cursor := rfl
@[simp] theorem clearBytes_emode (sp : ByteSpace) (s : State) : (clearBytes sp s).emode = s.emode := rfl
@[simp] theorem clearBytes_mem (sp : ByteSpace) (s : State) : (clearBytes sp s).mem = s.mem.setBytes [] sp := rfl
@[simp] theorem clearBytes_fault (sp : ByteSpace) (s : State) : (clearBytes sp s).fault = s.fault := rfl
@[simp] theorem clearBytes_err (sp : ByteSpace) (s : State) : (clearBytes sp s).err = s.err := rfl
@[simp] theorem clearBytes_errInfo (sp : ByteSpace) (s : State) : (clearBytes sp s).errInfo = s.errInfo := rfl
@[simp] theorem clearBytes_hdr (sp : ByteSpace) (s : State) : (clearBytes sp s).hdr = s.hdr := rfl
@[simp] theorem clearBytes_port (sp : ByteSpace) (s : State) : (clearBytes sp s).port = s.port := rfl
@[simp] theorem clearBytes_resp (sp : ByteSpace) (s : State) : (clearBytes sp s).resp = some { st := .ok, data := 0 } := rfl

/-! ## `clearPayload` -/

@[simp] theorem clearPayload_cursor (s : State) : (clearPayload s).cursor = Cursor.zero := rfl
@[simp] theorem clearPayload_emode (s : State) : (clearPayload s).emode = s.emode := rfl
@[simp] theorem clearPayload_mem (s : State) : (clearPayload s).mem = s.mem.setBytes [] .pbuf := rfl
@[simp] theorem clearPayload_fault (s : State) : (clearPayload s).fault = s.fault := rfl
@[simp] theorem clearPayload_err (s : State) : (clearPayload s).err = s.err := rfl
@[simp] theorem clearPayload_errInfo (s : State) : (clearPayload s).errInfo = s.errInfo := rfl
@[simp] theorem clearPayload_hdr (s : State) : (clearPayload s).hdr = s.hdr := rfl
@[simp] theorem clearPayload_port (s : State) : (clearPayload s).port = s.port := rfl
@[simp] theorem clearPayload_resp (s : State) : (clearPayload s).resp = some { st := .ok, data := 0 } := rfl

/-! ## `markStored` -/

@[simp] theorem markStored_hstate (h : HdrRegs) : (markStored h).hstate = h.hstate := rfl
@[simp] theorem markStored_fidx (h : HdrRegs) : (markStored h).fidx = h.fidx + 1 := rfl
@[simp] theorem markStored_fcnt (h : HdrRegs) : (markStored h).fcnt = h.fcnt := rfl
@[simp] theorem markStored_veridx (h : HdrRegs) : (markStored h).veridx = h.veridx := rfl
@[simp] theorem markStored_hvalid (h : HdrRegs) : (markStored h).hvalid = h.hvalid ||| ((1 : BitVec 7) <<< h.fidx.toNat) := rfl
@[simp] theorem markStored_scale (h : HdrRegs) : (markStored h).scale = h.scale := rfl
@[simp] theorem markStored_bpp (h : HdrRegs) : (markStored h).bpp = h.bpp := rfl
@[simp] theorem markStored_operand (h : HdrRegs) : (markStored h).operand = h.operand := rfl
@[simp] theorem markStored_timestamp (h : HdrRegs) : (markStored h).timestamp = h.timestamp := rfl
@[simp] theorem markStored_source (h : HdrRegs) : (markStored h).source = h.source := rfl
@[simp] theorem markStored_filter (h : HdrRegs) : (markStored h).filter = h.filter := rfl
@[simp] theorem markStored_gateName (h : HdrRegs) : (markStored h).gateName = h.gateName := rfl
@[simp] theorem markStored_formatVersion (h : HdrRegs) : (markStored h).formatVersion = h.formatVersion := rfl

/-! ## Memory spaces -/

@[simp] theorem bytes_pbuf (m : Memory) : m.bytes .pbuf = m.pbuf := rfl
@[simp] theorem setBytes_pbuf_pbuf (m : Memory) (l : List Byte) : (m.setBytes l .pbuf).pbuf = l := rfl
@[simp] theorem setBytes_pbuf_pixq (m : Memory) (l : List Byte) : (m.setBytes l .pbuf).pixq = m.pixq := rfl
@[simp] theorem setBytes_pbuf_cbuf (m : Memory) (l : List Byte) : (m.setBytes l .pbuf).cbuf = m.cbuf := rfl
@[simp] theorem setBytes_pbuf_obuf (m : Memory) (l : List Byte) : (m.setBytes l .pbuf).obuf = m.obuf := rfl
@[simp] theorem setBytes_pbuf_lbuf (m : Memory) (l : List Byte) : (m.setBytes l .pbuf).lbuf = m.lbuf := rfl
@[simp] theorem bytes_cbuf (m : Memory) : m.bytes .cbuf = m.cbuf := rfl
@[simp] theorem setBytes_cbuf_pbuf (m : Memory) (l : List Byte) : (m.setBytes l .cbuf).pbuf = m.pbuf := rfl
@[simp] theorem setBytes_cbuf_pixq (m : Memory) (l : List Byte) : (m.setBytes l .cbuf).pixq = m.pixq := rfl
@[simp] theorem setBytes_cbuf_cbuf (m : Memory) (l : List Byte) : (m.setBytes l .cbuf).cbuf = l := rfl
@[simp] theorem setBytes_cbuf_obuf (m : Memory) (l : List Byte) : (m.setBytes l .cbuf).obuf = m.obuf := rfl
@[simp] theorem setBytes_cbuf_lbuf (m : Memory) (l : List Byte) : (m.setBytes l .cbuf).lbuf = m.lbuf := rfl
@[simp] theorem bytes_obuf (m : Memory) : m.bytes .obuf = m.obuf := rfl
@[simp] theorem setBytes_obuf_pbuf (m : Memory) (l : List Byte) : (m.setBytes l .obuf).pbuf = m.pbuf := rfl
@[simp] theorem setBytes_obuf_pixq (m : Memory) (l : List Byte) : (m.setBytes l .obuf).pixq = m.pixq := rfl
@[simp] theorem setBytes_obuf_cbuf (m : Memory) (l : List Byte) : (m.setBytes l .obuf).cbuf = m.cbuf := rfl
@[simp] theorem setBytes_obuf_obuf (m : Memory) (l : List Byte) : (m.setBytes l .obuf).obuf = l := rfl
@[simp] theorem setBytes_obuf_lbuf (m : Memory) (l : List Byte) : (m.setBytes l .obuf).lbuf = m.lbuf := rfl
@[simp] theorem bytes_lbuf (m : Memory) : m.bytes .lbuf = m.lbuf := rfl
@[simp] theorem setBytes_lbuf_pbuf (m : Memory) (l : List Byte) : (m.setBytes l .lbuf).pbuf = m.pbuf := rfl
@[simp] theorem setBytes_lbuf_pixq (m : Memory) (l : List Byte) : (m.setBytes l .lbuf).pixq = m.pixq := rfl
@[simp] theorem setBytes_lbuf_cbuf (m : Memory) (l : List Byte) : (m.setBytes l .lbuf).cbuf = m.cbuf := rfl
@[simp] theorem setBytes_lbuf_obuf (m : Memory) (l : List Byte) : (m.setBytes l .lbuf).obuf = m.obuf := rfl
@[simp] theorem setBytes_lbuf_lbuf (m : Memory) (l : List Byte) : (m.setBytes l .lbuf).lbuf = l := rfl
@[simp] theorem setBytes_pixq (m : Memory) (l : List Byte) (sp : ByteSpace) : (m.setBytes l sp).pixq = m.pixq := by
  cases sp <;> rfl
@[simp] theorem bytes_setBytes_same (m : Memory) (l : List Byte) (sp : ByteSpace) : (m.setBytes l sp).bytes sp = l := by
  cases sp <;> rfl
theorem bytes_setBytes_other (m : Memory) (l : List Byte) {sp sp' : ByteSpace} (h : sp' ≠ sp) :
    (m.setBytes l sp).bytes sp' = m.bytes sp' := by
  cases sp <;> cases sp' <;> first | rfl | exact absurd rfl h
@[simp] theorem setBytes_bytes (m : Memory) (sp : ByteSpace) : m.setBytes (m.bytes sp) sp = m := by
  cases sp <;> rfl

/-! ## `withFetchWord` -/

theorem withFetchWord_port (s : State) {nbits w : Nat} {v : Word} (h : tableWord nbits w = some v) :
    (s.withFetchWord nbits w).port = .command v :: s.port := by
  simp [State.withFetchWord, h]

theorem withFetchWord_eq (s : State) {nbits w : Nat} {v : Word} (h : tableWord nbits w = some v) :
    s.withFetchWord nbits w = { s with port := .command v :: s.port } := by
  simp [State.withFetchWord, h]

end Sys2Proof.Machine
end

