-- ==== Sys2Proof/Laws/Ops.lean ====
section
/-! SUPPORT. What each shared operation can do, said once: the dead-state test, the pushes, the clears, the reads
after an append, and that every memory operation keeps `Memory.wf`. -/

namespace Sys2Proof.Machine

/-! ## The dead-state test -/

theorem whenHealthy_of_healthy {f : State → State} {s : State} (h : s.fault = false) : whenHealthy f s = f s := by
  simp [whenHealthy, h]

theorem whenHealthy_of_faulted {f : State → State} {s : State} (h : s.fault = true) :
    whenHealthy f s = respond .dead (s.err.setWidth 32) s := by
  simp [whenHealthy, h]

/-- A guarded command either answers DEAD in the faulted state or does its own effect in the healthy one. -/
theorem whenHealthy_cases (f : State → State) (s : State) :
    (s.fault = true ∧ whenHealthy f s = respond .dead (s.err.setWidth 32) s) ∨
      (s.fault = false ∧ whenHealthy f s = f s) := by
  cases h : s.fault
  · exact .inr ⟨rfl, whenHealthy_of_healthy h⟩
  · exact .inl ⟨rfl, whenHealthy_of_faulted h⟩

/-! ## Reading after writing -/

/-- An append shows at the old length of its own space and nowhere else. -/
theorem read_append (m : Memory) (sp sp' : ByteSpace) (b : Byte) (i : Nat) :
    (m.append sp b).read sp' i =
      if sp' = sp ∧ i = (m.bytes sp).length then some b else m.read sp' i := by
  by_cases h : sp' = sp
  · subst h
    simp only [Memory.append, Memory.read, bytes_setBytes_same, true_and]
    rcases Nat.lt_trichotomy i (m.bytes sp').length with hi | hi | hi
    · rw [List.getElem?_append_left hi, if_neg (by omega)]
    · subst hi; simp
    · rw [if_neg (by omega), List.getElem?_eq_none (by simp; omega), List.getElem?_eq_none (by omega)]
  · simp [Memory.append, Memory.read, bytes_setBytes_other _ _ h, h]

@[simp] theorem append_readPixel (m : Memory) (sp : ByteSpace) (b : Byte) (i : Nat) :
    (m.append sp b).readPixel i = m.readPixel i := by
  simp [Memory.append, Memory.readPixel]

/-- A read finds an entry exactly below the length. -/
theorem read_isSome_iff (m : Memory) (sp : ByteSpace) (i : Nat) :
    (m.read sp i).isSome = true ↔ i < (m.bytes sp).length := by
  simp [Memory.read]

/-! ## The buffer commands -/

/-- All that a push can do. -/
theorem pushByte_cases (sp : ByteSpace) (size : Nat) (b : Byte) (s : State) :
    ((s.mem.bytes sp).length = size ∧ pushByte sp size b s = raise .capacityFault sp.bufferId s) ∨
      ((s.mem.bytes sp).length ≠ size ∧
        pushByte sp size b s = respond .ok 0 { s with mem := s.mem.append sp b }) := by
  by_cases h : (s.mem.bytes sp).length = size
  · exact .inl ⟨h, by simp [pushByte, h]⟩
  · exact .inr ⟨h, by simp [pushByte, h]⟩

/-- All that `PQ.POP` can do. -/
theorem popPixel_cases (s : State) :
    (s.mem.pixq = [] ∧ popPixel s = respond .empty 0 s) ∨
      (∃ px rest, s.mem.pixq = px :: rest ∧
        popPixel s = respond .ok (px.pack.setWidth 32) { s with mem.pixq := rest }) := by
  cases h : s.mem.pixq with
  | nil => exact .inl ⟨rfl, by simp [popPixel, h]⟩
  | cons px rest => exact .inr ⟨px, rest, rfl, by simp [popPixel, h]⟩

/-- All that `OB.POP` can do. -/
theorem popOutput_cases (s : State) :
    (s.mem.obuf = [] ∧ popOutput s = respond .empty 0 s) ∨
      (∃ v rest, s.mem.obuf = v :: rest ∧
        popOutput s = respond .ok (v.setWidth 32) { s with mem.obuf := rest }) := by
  cases h : s.mem.obuf with
  | nil => exact .inl ⟨rfl, by simp [popOutput, h]⟩
  | cons v rest => exact .inr ⟨v, rest, rfl, by simp [popOutput, h]⟩

/-! ## `Memory.wf` is kept -/

theorem reset_mem_wf (p : Params) : State.reset.mem.wf p := by
  simp [State.reset, Memory.empty, Memory.wf]

/-- A byte space's capacity. -/
def spaceSize (p : Params) : ByteSpace → Nat
  | .pbuf => p.pbufSize
  | .cbuf => p.cbufSize
  | .obuf => p.obufSize
  | .lbuf => p.lbufSize

theorem wf_length_le {p : Params} {m : Memory} (h : m.wf p) (sp : ByteSpace) :
    (m.bytes sp).length ≤ spaceSize p sp := by
  cases sp <;> simp_all [spaceSize, Memory.wf]

theorem setBytes_wf {p : Params} {m : Memory} {l : List Byte} (h : m.wf p) (sp : ByteSpace)
    (hl : l.length ≤ spaceSize p sp) : (m.setBytes l sp).wf p := by
  cases sp <;> simp_all [spaceSize, Memory.wf]

theorem clear_wf {p : Params} {m : Memory} (h : m.wf p) (sp : ByteSpace) : (m.setBytes [] sp).wf p :=
  setBytes_wf h sp (by simp)

theorem append_wf {p : Params} {m : Memory} (h : m.wf p) (sp : ByteSpace) (b : Byte)
    (room : (m.bytes sp).length ≠ spaceSize p sp) : (m.append sp b).wf p := by
  have := wf_length_le h sp
  exact setBytes_wf h sp (by simp; omega)

theorem pushByte_wf {p : Params} {s : State} (h : s.mem.wf p) (sp : ByteSpace) (b : Byte) :
    (pushByte sp (spaceSize p sp) b s).mem.wf p := by
  rcases pushByte_cases sp (spaceSize p sp) b s with ⟨-, e⟩ | ⟨hn, e⟩
  · simpa only [e, raise_mem] using h
  · simpa only [e, respond_mem] using append_wf h sp b hn

theorem popPixel_wf {p : Params} {s : State} (h : s.mem.wf p) : (popPixel s).mem.wf p := by
  rcases popPixel_cases s with ⟨-, e⟩ | ⟨px, rest, hq, e⟩
  · simpa only [e, respond_mem] using h
  · simp only [e, respond_mem, Memory.wf] at h ⊢
    simp only [hq, List.length_cons] at h
    omega

theorem popOutput_wf {p : Params} {s : State} (h : s.mem.wf p) : (popOutput s).mem.wf p := by
  rcases popOutput_cases s with ⟨-, e⟩ | ⟨v, rest, hq, e⟩
  · simpa only [e, respond_mem] using h
  · simp only [e, respond_mem, Memory.wf] at h ⊢
    simp only [hq, List.length_cons] at h
    omega

/-! ## The ports -/

@[simp] theorem takeEvent_nil {s : State} (h : s.port = []) : takeEvent s = none := by simp [takeEvent, h]

theorem takeEvent_cons {s : State} {e : PortEvent} {rest : List PortEvent} (h : s.port = e :: rest) :
    takeEvent s = some (e, { s with port := rest }) := by simp [takeEvent, h]

end Sys2Proof.Machine
end

