-- ==== Sys2Proof/Laws/Exec.lean ====
section
/-! SUPPORT. What `exec` answers for each command, and what `step` answers for each event: one equation each. -/

namespace Sys2Proof.Machine

theorem exec_srst (s : State) : exec .srst s = .next (respond .ok 0 (resetBlock s)) := rfl
theorem exec_abort (c : BitVec 4) (s : State) : exec (.abort c) s = .next (whenHealthy (abortWith c) s) := rfl
theorem exec_rd (a : BitVec 8) (s : State) : exec (.rd a) s = .next (respondWith (readReg s a) s) := rfl
theorem exec_rdStr (sel : BitVec 4) (idx : BitVec 16) (s : State) :
    exec (.rdStr sel idx) s = .next (respondWith ((readString s.hdr sel idx).map (BitVec.setWidth 32)) s) := rfl
theorem exec_pbClr (s : State) : exec .pbClr s = .next (whenHealthy clearPayload s) := rfl
theorem exec_pbPush (b : BitVec 8) (s : State) :
    exec (.pbPush b) s = .next (whenHealthy (pushByte .pbuf Config.params.pbufSize b) s) := rfl
theorem exec_cbClr (s : State) : exec .cbClr s = .next (whenHealthy (clearBytes .cbuf) s) := rfl
theorem exec_cbPush (v : BitVec 8) (s : State) :
    exec (.cbPush v) s = .next (whenHealthy (pushByte .cbuf Config.params.cbufSize v) s) := rfl
theorem exec_lbClr (s : State) : exec .lbClr s = .next (whenHealthy (clearBytes .lbuf) s) := rfl
theorem exec_lbPush (b : BitVec 8) (s : State) :
    exec (.lbPush b) s = .next (whenHealthy (pushByte .lbuf Config.params.lbufSize b) s) := rfl
theorem exec_pqPop (s : State) : exec .pqPop s = .next (popPixel s) := rfl
theorem exec_obPop (s : State) : exec .obPop s = .next (popOutput s) := rfl
theorem exec_encStart (m : BitVec 24) (s : State) :
    exec (.encStart m) s = .next (whenHealthy (startEncode m) s) := rfl
theorem exec_encPix (s : State) : exec .encPix s = .next (whenHealthy (withMode onePixel) s) := rfl
theorem exec_encRun (s : State) :
    exec .encRun s = .next (whenHealthy (withMode (runEncode Config.params.pixqSize)) s) := rfl
theorem exec_decRun (m : BitVec 24) (s : State) :
    exec (.decRun m) s = .next (whenHealthy (decodeAt Config.params.obufSize m.toNat) s) := rfl
theorem exec_decRunh (s : State) :
    exec .decRunh s = .next (whenHealthy (decodeAtHeader Config.params.obufSize) s) := rfl
theorem exec_hdrStart (s : State) : exec .hdrStart s = .next (whenHealthy startHeader s) := rfl
theorem exec_hdrLine (s : State) : exec .hdrLine s = .next (whenHealthy (presentLine Config.params) s) := rfl
theorem exec_hdrEos (s : State) : exec .hdrEos s = .next (whenHealthy endOfStream s) := rfl

/-! ## `step` -/

theorem step_command {s : State} {w : Word} {rest : List PortEvent} (h : s.port = .command w :: rest) :
    step s = stepCommand w { s with port := rest } := by
  simp [step, takeEvent_cons h]

theorem step_reset {s : State} {rest : List PortEvent} (h : s.port = .reset :: rest) :
    step s = .next (hardReset { s with port := rest }) := by
  simp [step, takeEvent_cons h]

theorem stepCommand_instr {w : Word} {i : Instr} (h : decode w = .instr i) (s : State) :
    stepCommand w s = exec i s := by
  simp [stepCommand, h]

theorem stepCommand_illegal {w : Word} {why : Illegal} (h : decode w = .illegal why) (s : State) :
    stepCommand w s = .next (illegalCommand w s) := by
  simp [stepCommand, h]

/-- All that a step can do: wait, reset, run a decoded command, or refuse an illegal word. -/
theorem step_cases (s : State) :
    (s.port = [] ∧ step s = .next s) ∨
    (∃ rest, s.port = .reset :: rest ∧ step s = .next (hardReset { s with port := rest })) ∨
    (∃ w rest i, s.port = .command w :: rest ∧ decode w = .instr i ∧ step s = exec i { s with port := rest }) ∨
    (∃ w rest why, s.port = .command w :: rest ∧ decode w = .illegal why ∧
      step s = .next (illegalCommand w { s with port := rest })) := by
  rcases hp : s.port with _ | ⟨e, rest⟩
  · exact .inl ⟨rfl, by simp [step, hp]⟩
  · cases e with
    | reset => exact .inr (.inl ⟨rest, rfl, step_reset hp⟩)
    | command w =>
      rcases hd : decode w with i | why
      · exact .inr (.inr (.inl ⟨w, rest, i, rfl, hd, (step_command hp).trans (stepCommand_instr hd _)⟩))
      · exact .inr (.inr (.inr ⟨w, rest, why, rfl, hd, (step_command hp).trans (stepCommand_illegal hd _)⟩))

end Sys2Proof.Machine
end

