-- ==== Sys2Proof/Laws/Parser.lean ====
section
/-! SUPPORT. The version keys, and one lemma per parser state saying all that a line can do there. -/

namespace Sys2Proof

/-! ## The version keys (R7, R152) -/

theorem Params.key_length_le (p : Params) (v : Version) : (p.key v).length ≤ p.strMax := by
  have h1 : 1 ≤ p.strMax := by simp [Params.strMax]
  cases hl : p.keysLegal
  · cases v <;> simp [Params.key, hl, h1]
  · simp only [Params.keysLegal, decide_eq_true_eq] at hl
    have hl' : p.keysLegal = true := by simpa [Params.keysLegal] using hl
    cases v <;> simp [Params.key, hl', hl]

theorem Params.key_injective (p : Params) {v w : Version} (h : p.key v = p.key w) : v = w := by
  cases hl : p.keysLegal
  · cases v <;> cases w <;> simp_all [Params.key]
  · have hl' := hl
    simp only [Params.keysLegal, decide_eq_true_eq] at hl'
    obtain ⟨hab, hac, hbc, -⟩ := hl'
    have hba := hab.symm
    have hca := hac.symm
    have hcb := hbc.symm
    cases v <;> cases w <;> simp_all only [Params.key, if_true, ne_eq]

namespace Machine

/-- Looking up a version's own key finds it. -/
@[simp] theorem lookupVersion_key (p : Params) (v : Version) : lookupVersion p (p.key v) = some v := by
  have ne : ∀ {x y : Version}, x ≠ y → p.key x ≠ p.key y := fun h e => h (p.key_injective e)
  cases v
  · simp [lookupVersion]
  · simp [lookupVersion, ne (x := .b) (y := .a) (by decide)]
  · simp [lookupVersion, ne (x := .c) (y := .a) (by decide), ne (x := .c) (y := .b) (by decide)]

/-- A version is found only by its own key. -/
theorem key_of_lookupVersion {p : Params} {v : Bytes} {ver : Version} (h : lookupVersion p v = some ver) :
    v = p.key ver := by
  unfold lookupVersion at h
  split_ifs at h with ha hb hc <;> cases h <;> assumption

theorem lookupVersion_eq_none_iff (p : Params) (v : Bytes) : lookupVersion p v = none ↔ ∀ ver, v ≠ p.key ver := by
  constructor
  · rintro h ver rfl
    simp at h
  · intro h
    simp [lookupVersion, h .a, h .b, h .c]

/-! ## The parser's states (R157 to R162) -/

theorem parseLine_scanDimensions {h : HdrRegs} (hs : h.hstate = .scanDimensions) (p : Params) (line : Bytes) :
    parseLine p line h =
      if p.dimMatch line then .stepped true { h with hstate := .scanCommentOpen } else .stepped false h := by
  simp [parseLine, hs]

theorem parseLine_scanCommentOpen {h : HdrRegs} (hs : h.hstate = .scanCommentOpen) (p : Params) (line : Bytes) :
    parseLine p line h =
      if p.openMatch line then .stepped true { h with hstate := .scanVersion } else .stepped false h := by
  simp [parseLine, hs]

theorem parseLine_scanVersion {h : HdrRegs} (hs : h.hstate = .scanVersion) (p : Params) (line : Bytes) :
    parseLine p line h = scanVersion p line h := by
  simp [parseLine, hs]

theorem parseLine_scanFields {h : HdrRegs} (hs : h.hstate = .scanFields) (p : Params) (line : Bytes) :
    parseLine p line h = scanFields p line h := by
  simp [parseLine, hs]

theorem parseLine_done {h : HdrRegs} (hs : h.hstate = .done) (p : Params) (line : Bytes) :
    parseLine p line h = .stepped false h := by
  simp [parseLine, hs]

/-- All that a line can do in ScanVersion. -/
theorem scanVersion_cases (p : Params) (line : Bytes) (h : HdrRegs) :
    (p.verMatch line = none ∧ scanVersion p line h = .stepped false h) ∨
    (∃ v, p.verMatch line = some v ∧ lookupVersion p v = none ∧
      scanVersion p line h = .raised .unknownVersionError 0) ∨
    (∃ ver, p.verMatch line = some (p.key ver) ∧
      scanVersion p line h = .stepped true
        { h with formatVersion := p.key ver, veridx := versionIndex ver, fcnt := versionFields ver, fidx := 0,
                 hstate := .scanFields }) := by
  cases hv : p.verMatch line with
  | none => exact .inl ⟨rfl, by simp [scanVersion, hv]⟩
  | some v =>
    cases hl : lookupVersion p v with
    | none => exact .inr (.inl ⟨v, rfl, hl, by simp [scanVersion, hv, hl]⟩)
    | some ver =>
      have hk := key_of_lookupVersion hl
      exact .inr (.inr ⟨ver, by rw [hk], by simp [scanVersion, hv, hl, ← hk]⟩)

/-- All that the comment-close test can do. -/
theorem scanClose_cases (p : Params) (line : Bytes) (h : HdrRegs) :
    (p.closeMatch line = false ∧ scanClose p line h = .stepped false h) ∨
    (p.closeMatch line = true ∧ h.fidx < h.fcnt ∧
      scanClose p line h = .raised .headerIncompleteError (h.fidx.setWidth 32)) ∨
    (p.closeMatch line = true ∧ ¬ h.fidx < h.fcnt ∧
      scanClose p line h = .stepped true { h with hstate := .done }) := by
  cases hc : p.closeMatch line
  · exact .inl ⟨rfl, by simp [scanClose, hc]⟩
  · by_cases hf : h.fidx < h.fcnt
    · exact .inr (.inl ⟨rfl, hf, by simp [scanClose, hc, hf]⟩)
    · exact .inr (.inr ⟨rfl, hf, by simp only [scanClose, hc, hf, if_true, if_false]⟩)

/-- All that a line can do in ScanFields: a field is stored, a string does not fit, or the comment-close test decides. -/
theorem scanFields_cases (p : Params) (line : Bytes) (h : HdrRegs) :
    (∃ f v stored, expectedField h = some f ∧ p.fieldMatch f line = some v ∧
      storeField p.strMax f v h = some stored ∧ scanFields p line h = .stepped true (markStored stored)) ∨
    (∃ f v, expectedField h = some f ∧ p.fieldMatch f line = some v ∧
      storeField p.strMax f v h = none ∧ scanFields p line h = .raised .capacityFault 5) ∨
    ((∀ f, expectedField h = some f → p.fieldMatch f line = none) ∧ scanFields p line h = scanClose p line h) := by
  cases he : expectedField h with
  | none => exact .inr (.inr ⟨by simp, by simp [scanFields, he]⟩)
  | some f =>
    cases hm : p.fieldMatch f line with
    | none => exact .inr (.inr ⟨by rintro f' ⟨⟩; exact hm, by simp [scanFields, he, hm]⟩)
    | some v =>
      cases hst : storeField p.strMax f v h with
      | none => exact .inr (.inl ⟨f, v, rfl, hm, hst, by simp [scanFields, he, hm, hst]⟩)
      | some stored => exact .inl ⟨f, v, stored, rfl, hm, hst, by simp [scanFields, he, hm, hst]⟩

/-- A field is awaited exactly while fewer than `FCNT` are stored, and it is the one whose id is `FIDX`. -/
theorem expectedField_eq_some {h : HdrRegs} {f : FieldId} :
    expectedField h = some f ↔ h.fidx < h.fcnt ∧ fieldOfId h.fidx.toNat = some f := by
  unfold expectedField
  split_ifs with hf <;> simp [hf]

/-- A store touches no sequencing register. -/
theorem storeField_keeps {strMax : Nat} {f : FieldId} {v : f.Val} {h stored : HdrRegs}
    (e : storeField strMax f v h = some stored) :
    stored.hstate = h.hstate ∧ stored.fidx = h.fidx ∧ stored.fcnt = h.fcnt ∧ stored.veridx = h.veridx ∧
      stored.hvalid = h.hvalid ∧ stored.formatVersion = h.formatVersion := by
  cases f <;> simp only [storeField] at e <;> (try split_ifs at e) <;> cases e <;> simp

/-- A store touches no destination but its field's own (R164). -/
theorem storeField_others {strMax : Nat} {f : FieldId} {v : f.Val} {h stored : HdrRegs}
    (e : storeField strMax f v h = some stored) :
    (f ≠ .scale → stored.scale = h.scale) ∧ (f ≠ .bitsPerPixel → stored.bpp = h.bpp) ∧
      (f ≠ .timestamp → stored.timestamp = h.timestamp) ∧ (f ≠ .source → stored.source = h.source) ∧
      (f ≠ .filter → stored.filter = h.filter) ∧ (f ≠ .logicGateName → stored.gateName = h.gateName) ∧
      (f ≠ .logicOperand → stored.operand = h.operand) := by
  cases f <;> simp only [storeField] at e <;> (try split_ifs at e) <;> cases e <;> simp

/-- A stored string fits, if the strings before it did (R34, R164). -/
theorem storeField_fits {strMax : Nat} {f : FieldId} {v : f.Val} {h stored : HdrRegs}
    (e : storeField strMax f v h = some stored) :
    (stored.timestamp = h.timestamp ∨ stored.timestamp.length ≤ strMax) ∧
      (stored.source = h.source ∨ stored.source.length ≤ strMax) ∧
      (stored.filter = h.filter ∨ stored.filter.length ≤ strMax) ∧
      (stored.gateName = h.gateName ∨ stored.gateName.length ≤ strMax) := by
  cases f <;> simp only [storeField] at e <;> (try split_ifs at e) <;> cases e <;> simp <;> omega

/-- The id of a field (R153). -/
theorem fieldOfId_eq_some {n : Nat} {f : FieldId} (h : fieldOfId n = some f) :
    n = match f with
      | .scale => 0
      | .bitsPerPixel => 1
      | .timestamp => 2
      | .source => 3
      | .filter => 4
      | .logicGateName => 5
      | .logicOperand => 6 := by
  unfold fieldOfId at h
  split at h <;> cases h <;> rfl

/-- All that `HDR.LINE` can do on a healthy block. -/
theorem presentLine_cases (p : Params) (s : State) :
    (∃ c info, parseLine p s.mem.lbuf s.hdr = .raised c info ∧ presentLine p s = raise c info s) ∨
    (∃ hit h, parseLine p s.mem.lbuf s.hdr = .stepped hit h ∧
      presentLine p s = respond .ok (lineData hit h.hstate) { s with hdr := h, mem.lbuf := [] }) := by
  cases hp : parseLine p s.mem.lbuf s.hdr with
  | raised c info => exact .inl ⟨c, info, rfl, by simp [presentLine, hp]⟩
  | stepped hit h => exact .inr ⟨hit, h, rfl, by simp [presentLine, hp]⟩

end Machine

end Sys2Proof
end

