-- ==== Sys2Proof/Laws/PerInstr.lean ====
section
/-! SUPPORT. Facts about every command as syntax, one lemma per command: its assembler line is well formed and
assembles to its word (R87), and its word matches its row of the opcode table (R84). -/

namespace Sys2Proof.Laws

/-! ## The words of the five formats under their masks -/

theorem wordB_masked (opc imm8 : BitVec 8) : wordB opc imm8 &&& 0xFFFFFF00 = wordB opc 0 := by
  apply BitVec.eq_of_getLsbD_eq
  intro i hi
  rw [BitVec.getLsbD_and]
  simp only [wordB, BitVec.getLsbD_append]
  interval_cases i <;> simp

theorem wordM_masked (opc : BitVec 8) (m : BitVec 24) : wordM opc m &&& 0xFF000000 = wordM opc 0 := by
  apply BitVec.eq_of_getLsbD_eq
  intro i hi
  rw [BitVec.getLsbD_and]
  simp only [wordM, BitVec.getLsbD_append]
  interval_cases i <;> simp

theorem wordS_masked (opc : BitVec 8) (sel : BitVec 4) (idx : BitVec 16) :
    wordS opc sel idx &&& 0xFFF00000 = wordS opc 0 0 := by
  apply BitVec.eq_of_getLsbD_eq
  intro i hi
  rw [BitVec.getLsbD_and]
  simp only [wordS, BitVec.getLsbD_append]
  interval_cases i <;> simp

theorem wordK_masked (opc : BitVec 8) (c : BitVec 4) : wordK opc c &&& 0xFFFFFFF0 = wordK opc 0 := by
  apply BitVec.eq_of_getLsbD_eq
  intro i hi
  rw [BitVec.getLsbD_and]
  simp only [wordK, BitVec.getLsbD_append]
  interval_cases i <;> simp

/-! ## Assembling -/

/-- The command's assembler line is well formed and stands for exactly the command's word (R87). -/
def Assembles.Statement (i : Instr) : Prop := i.wf = true ∧ assembleWords i.asm = some [encode i]

theorem assembleWords_single {l : AsmLine} {i : Instr} (hw : l.wf = true) (he : l.expand = [i]) :
    assembleWords l = some [encode i] := by
  simp [assembleWords, assemble, hw, he]

theorem Assembles.srst : Assembles.Statement .srst := ⟨rfl, assembleWords_single rfl rfl⟩
theorem Assembles.abort (c : BitVec 4) : Assembles.Statement (.abort c) := by
  have hw : (Instr.asm (.abort c)).wf = true := by simp [Instr.asm, AsmLine.wf, code4InRange]; omega
  exact ⟨hw, assembleWords_single hw (by simp [Instr.asm, AsmLine.expand])⟩
theorem Assembles.rd (a : BitVec 8) : Assembles.Statement (.rd a) := by
  have hw : (Instr.asm (.rd a)).wf = true := by simp [Instr.asm, AsmLine.wf, imm8InRange]; omega
  exact ⟨hw, assembleWords_single hw (by simp [Instr.asm, AsmLine.expand])⟩
theorem Assembles.rdStr (sel : BitVec 4) (idx : BitVec 16) : Assembles.Statement (.rdStr sel idx) := by
  have hw : (Instr.asm (.rdStr sel idx)).wf = true := by simp [Instr.asm, AsmLine.wf, selInRange, idxInRange]; omega
  exact ⟨hw, assembleWords_single hw (by simp [Instr.asm, AsmLine.expand])⟩
theorem Assembles.pbClr : Assembles.Statement .pbClr := ⟨rfl, assembleWords_single rfl rfl⟩
theorem Assembles.pbPush (b : BitVec 8) : Assembles.Statement (.pbPush b) := by
  have hw : (Instr.asm (.pbPush b)).wf = true := by simp [Instr.asm, AsmLine.wf, imm8InRange]; omega
  exact ⟨hw, assembleWords_single hw (by simp [Instr.asm, AsmLine.expand])⟩
theorem Assembles.cbClr : Assembles.Statement .cbClr := ⟨rfl, assembleWords_single rfl rfl⟩
theorem Assembles.cbPush (v : BitVec 8) : Assembles.Statement (.cbPush v) := by
  have hw : (Instr.asm (.cbPush v)).wf = true := by simp [Instr.asm, AsmLine.wf, imm8InRange]; omega
  exact ⟨hw, assembleWords_single hw (by simp [Instr.asm, AsmLine.expand])⟩
theorem Assembles.lbClr : Assembles.Statement .lbClr := ⟨rfl, assembleWords_single rfl rfl⟩
theorem Assembles.lbPush (b : BitVec 8) : Assembles.Statement (.lbPush b) := by
  have hw : (Instr.asm (.lbPush b)).wf = true := by simp [Instr.asm, AsmLine.wf, imm8InRange]; omega
  exact ⟨hw, assembleWords_single hw (by simp [Instr.asm, AsmLine.expand])⟩
theorem Assembles.pqPop : Assembles.Statement .pqPop := ⟨rfl, assembleWords_single rfl rfl⟩
theorem Assembles.obPop : Assembles.Statement .obPop := ⟨rfl, assembleWords_single rfl rfl⟩
theorem Assembles.encStart (m : BitVec 24) : Assembles.Statement (.encStart m) := by
  have hw : (Instr.asm (.encStart m)).wf = true := by simp [Instr.asm, AsmLine.wf, mode24InRange]; omega
  exact ⟨hw, assembleWords_single hw (by simp [Instr.asm, AsmLine.expand])⟩
theorem Assembles.encPix : Assembles.Statement .encPix := ⟨rfl, assembleWords_single rfl rfl⟩
theorem Assembles.encRun : Assembles.Statement .encRun := ⟨rfl, assembleWords_single rfl rfl⟩
theorem Assembles.decRun (m : BitVec 24) : Assembles.Statement (.decRun m) := by
  have hw : (Instr.asm (.decRun m)).wf = true := by simp [Instr.asm, AsmLine.wf, mode24InRange]; omega
  exact ⟨hw, assembleWords_single hw (by simp [Instr.asm, AsmLine.expand])⟩
theorem Assembles.decRunh : Assembles.Statement .decRunh := ⟨rfl, assembleWords_single rfl rfl⟩
theorem Assembles.hdrStart : Assembles.Statement .hdrStart := ⟨rfl, assembleWords_single rfl rfl⟩
theorem Assembles.hdrLine : Assembles.Statement .hdrLine := ⟨rfl, assembleWords_single rfl rfl⟩
theorem Assembles.hdrEos : Assembles.Statement .hdrEos := ⟨rfl, assembleWords_single rfl rfl⟩

/-! ## The opcode table -/

/-- The command's word matches the row of its mnemonic (R84). -/
def InTable.Statement (i : Instr) : Prop :=
  ∃ row ∈ opcodeRows, row.mnemonic = i.mnemonic ∧ row.matchedBy (encode i)

theorem InTable.srst : InTable.Statement .srst :=
  ⟨⟨"SRST", 0x01000000, 0xFFFFFFFF⟩, by simp [opcodeRows], rfl, by rw [OpcodeRow.matchedBy]; decide⟩
theorem InTable.abort (c : BitVec 4) : InTable.Statement (.abort c) :=
  ⟨⟨"ABORT", 0x02000000, 0xFFFFFFF0⟩, by simp [opcodeRows], rfl, (wordK_masked 0x02 c).trans (by decide)⟩
theorem InTable.rd (a : BitVec 8) : InTable.Statement (.rd a) :=
  ⟨⟨"RD", 0x03000000, 0xFFFFFF00⟩, by simp [opcodeRows], rfl, (wordB_masked 0x03 a).trans (by decide)⟩
theorem InTable.rdStr (sel : BitVec 4) (idx : BitVec 16) : InTable.Statement (.rdStr sel idx) :=
  ⟨⟨"RD.STR", 0x04000000, 0xFFF00000⟩, by simp [opcodeRows], rfl, (wordS_masked 0x04 sel idx).trans (by decide)⟩
theorem InTable.pbClr : InTable.Statement .pbClr :=
  ⟨⟨"PB.CLR", 0x10000000, 0xFFFFFFFF⟩, by simp [opcodeRows], rfl, by rw [OpcodeRow.matchedBy]; decide⟩
theorem InTable.pbPush (b : BitVec 8) : InTable.Statement (.pbPush b) :=
  ⟨⟨"PB.PUSH", 0x11000000, 0xFFFFFF00⟩, by simp [opcodeRows], rfl, (wordB_masked 0x11 b).trans (by decide)⟩
theorem InTable.cbClr : InTable.Statement .cbClr :=
  ⟨⟨"CB.CLR", 0x12000000, 0xFFFFFFFF⟩, by simp [opcodeRows], rfl, by rw [OpcodeRow.matchedBy]; decide⟩
theorem InTable.cbPush (v : BitVec 8) : InTable.Statement (.cbPush v) :=
  ⟨⟨"CB.PUSH", 0x13000000, 0xFFFFFF00⟩, by simp [opcodeRows], rfl, (wordB_masked 0x13 v).trans (by decide)⟩
theorem InTable.lbClr : InTable.Statement .lbClr :=
  ⟨⟨"LB.CLR", 0x14000000, 0xFFFFFFFF⟩, by simp [opcodeRows], rfl, by rw [OpcodeRow.matchedBy]; decide⟩
theorem InTable.lbPush (b : BitVec 8) : InTable.Statement (.lbPush b) :=
  ⟨⟨"LB.PUSH", 0x15000000, 0xFFFFFF00⟩, by simp [opcodeRows], rfl, (wordB_masked 0x15 b).trans (by decide)⟩
theorem InTable.pqPop : InTable.Statement .pqPop :=
  ⟨⟨"PQ.POP", 0x16000000, 0xFFFFFFFF⟩, by simp [opcodeRows], rfl, by rw [OpcodeRow.matchedBy]; decide⟩
theorem InTable.obPop : InTable.Statement .obPop :=
  ⟨⟨"OB.POP", 0x17000000, 0xFFFFFFFF⟩, by simp [opcodeRows], rfl, by rw [OpcodeRow.matchedBy]; decide⟩
theorem InTable.encStart (m : BitVec 24) : InTable.Statement (.encStart m) :=
  ⟨⟨"ENC.START", 0x20000000, 0xFF000000⟩, by simp [opcodeRows], rfl, (wordM_masked 0x20 m).trans (by decide)⟩
theorem InTable.encPix : InTable.Statement .encPix :=
  ⟨⟨"ENC.PIX", 0x21000000, 0xFFFFFFFF⟩, by simp [opcodeRows], rfl, by rw [OpcodeRow.matchedBy]; decide⟩
theorem InTable.encRun : InTable.Statement .encRun :=
  ⟨⟨"ENC.RUN", 0x22000000, 0xFFFFFFFF⟩, by simp [opcodeRows], rfl, by rw [OpcodeRow.matchedBy]; decide⟩
theorem InTable.decRun (m : BitVec 24) : InTable.Statement (.decRun m) :=
  ⟨⟨"DEC.RUN", 0x30000000, 0xFF000000⟩, by simp [opcodeRows], rfl, (wordM_masked 0x30 m).trans (by decide)⟩
theorem InTable.decRunh : InTable.Statement .decRunh :=
  ⟨⟨"DEC.RUNH", 0x31000000, 0xFFFFFFFF⟩, by simp [opcodeRows], rfl, by rw [OpcodeRow.matchedBy]; decide⟩
theorem InTable.hdrStart : InTable.Statement .hdrStart :=
  ⟨⟨"HDR.START", 0x40000000, 0xFFFFFFFF⟩, by simp [opcodeRows], rfl, by rw [OpcodeRow.matchedBy]; decide⟩
theorem InTable.hdrLine : InTable.Statement .hdrLine :=
  ⟨⟨"HDR.LINE", 0x41000000, 0xFFFFFFFF⟩, by simp [opcodeRows], rfl, by rw [OpcodeRow.matchedBy]; decide⟩
theorem InTable.hdrEos : InTable.Statement .hdrEos :=
  ⟨⟨"HDR.EOS", 0x42000000, 0xFFFFFFFF⟩, by simp [opcodeRows], rfl, by rw [OpcodeRow.matchedBy]; decide⟩

end Sys2Proof.Laws
end

