-- ==== Sys2Proof/Laws/Recipes.lean ====
section
/-! SUPPORT. What a host program does, one command at a time: a command that is answered without a fault is one step of
the block, a fault ends the program, and a run of pushes appends its bytes. -/

namespace Sys2Proof.Machine

/-! ## Responses -/

@[simp] theorem Response.faulted_ok (data : Word) : (Response.mk .ok data).faulted = false := rfl
@[simp] theorem Response.faulted_empty (data : Word) : (Response.mk .empty data).faulted = false := rfl
@[simp] theorem Response.faulted_err (data : Word) : (Response.mk .err data).faulted = true := rfl
@[simp] theorem Response.faulted_dead (data : Word) : (Response.mk .dead data).faulted = true := rfl

/-- The four codes tell the four statuses apart (R83). -/
theorem RespStatus.code_injective {a b : RespStatus} (h : a.code = b.code) : a = b := by
  cases a <;> cases b <;> first | rfl | exact absurd h (by decide)

/-! ## Pixels in responses -/

/-- A pixel read back from the response that carries it (R111, R186). -/
@[simp] theorem Pixel.unpack_pack (px : Pixel) : Pixel.unpack (px.pack.setWidth 32) = px := by
  rcases px with ⟨nv, r, g, b⟩
  simp only [Pixel.unpack, Pixel.pack, Pixel.mk.injEq]
  refine ⟨?_, ?_, ?_, ?_⟩ <;>
  · apply BitVec.eq_of_getLsbD_eq
    intro i hi
    simp only [BitVec.getLsbD_extractLsb', BitVec.getLsbD_setWidth, BitVec.getLsbD_append]
    interval_cases i <;> simp

/-! ## Programs -/

/-- A command whose word decodes to it and that the block answers: the response and the state are `exec`'s. -/
theorem answer_of_exec {i : Instr} {s t : State} {r : Response} (hd : decode (encode i) = .instr i)
    (he : exec i s = .next t) (hr : t.resp = some r) : answer i s = (r, t) := by
  have h : step { s with port := .command (encode i) :: s.port } = .next t := by
    rw [step_command (w := encode i) (rest := s.port) rfl, stepCommand_instr hd]
    exact he
  simp only [answer, h, hr, Option.getD_some]

@[simp] theorem run_done {α : Type} (s : State) :
    (Script.done : Script α).run s = { out := [], fault := none, block := s } := rfl

@[simp] theorem run_emit {α : Type} (a : α) (next : Script α) (s : State) :
    (Script.emit a next).run s = { next.run s with out := a :: (next.run s).out } := rfl

/-- A command answered without a fault: the program goes on by the response. -/
theorem run_ask {α : Type} {i : Instr} {next : Response → Script α} {s t : State} {r : Response}
    (ha : answer i s = (r, t)) (hr : r.faulted = false) : (Script.ask i next).run s = (next r).run t := by
  simp only [Script.run, ha, hr, Bool.false_eq_true, if_false]

/-- A command answered with a fault ends the program. -/
theorem run_ask_faulted {α : Type} {i : Instr} {next : Response → Script α} {s t : State} {r : Response}
    (ha : answer i s = (r, t)) (hr : r.faulted = true) :
    (Script.ask i next).run s = { out := [], fault := some r.data, block := t } := by
  simp only [Script.run, ha, hr, if_true]

/-- Outputs handed over do nothing to the block. -/
theorem run_emits {α : Type} (l : List α) (next : Script α) (s : State) :
    (Script.emits l next).run s = { next.run s with out := l ++ (next.run s).out } := by
  induction l with
  | nil => rfl
  | cons a l ih => simp only [Script.emits, run_emit, ih, List.cons_append]

/-- Pushes into a byte space with room for them append their bytes (R67). -/
theorem run_pushes {α : Type} {sp : ByteSpace} {size : Nat} {push : Byte → Instr}
    (hd : ∀ b, decode (encode (push b)) = .instr (push b))
    (he : ∀ b s, s.fault = false → exec (push b) s = .next (pushByte sp size b s)) (next : Script α) (q : List Byte)
    (s : State) (hf : s.fault = false) (hl : (s.mem.bytes sp).length + q.length ≤ size) :
    ∃ resp, (q = [] → resp = s.resp) ∧ (Script.asks (q.map push) next).run s =
      next.run { s with mem := s.mem.setBytes (s.mem.bytes sp ++ q) sp, resp := resp } := by
  induction q generalizing s with
  | nil => exact ⟨s.resp, fun _ => rfl, by simp [Script.asks]⟩
  | cons b q ih =>
    rw [List.length_cons] at hl
    have h1 : exec (push b) s = .next (respond .ok 0 { s with mem := s.mem.append sp b }) := by
      rw [he b s hf, pushByte, if_neg (by omega)]
    obtain ⟨resp, -, h2⟩ := ih (respond .ok 0 { s with mem := s.mem.append sp b }) hf
      (by simp only [respond_mem, Memory.append, bytes_setBytes_same, List.length_append, List.length_singleton]; omega)
    refine ⟨resp, by simp, ?_⟩
    rw [List.map_cons, Script.asks, run_ask (answer_of_exec (hd b) h1 rfl) rfl, h2]
    cases sp <;> simp [respond, Memory.append, Memory.setBytes, Memory.bytes]

/-- Popping all of OBUF hands its bytes on in order and leaves it empty (R187, R222). -/
theorem run_popBytes {α : Type} (next : List Byte → Script α) (bytes popped : List Byte) (s : State)
    (ho : s.mem.obuf = bytes) : ∃ resp, (popBytes next bytes.length popped).run s =
      (next (popped ++ bytes)).run { s with mem.obuf := [], resp := resp } := by
  induction bytes generalizing popped s with
  | nil =>
    refine ⟨s.resp, ?_⟩
    rw [List.length_nil, popBytes, List.append_nil]
    congr 1
    rw [← ho]
  | cons v bytes ih =>
    have h1 : exec .obPop s = .next (respond .ok (v.setWidth 32) { s with mem.obuf := bytes }) := by
      rw [exec_obPop]
      rcases popOutput_cases s with ⟨e, -⟩ | ⟨w, rest, e, e'⟩
      · rw [ho] at e; cases e
      · rw [ho] at e; cases e; rw [e']
    rw [List.length_cons, popBytes, run_ask (answer_of_exec (by decide) h1 rfl) rfl]
    obtain ⟨resp, h2⟩ := ih (popped ++ [v]) (respond .ok (v.setWidth 32) { s with mem.obuf := bytes }) rfl
    refine ⟨resp, ?_⟩
    have hv : (v.setWidth 32).setWidth 8 = v := by
      apply BitVec.eq_of_toNat_eq
      simp
    simp only [hv]
    rw [h2]
    simp [respond]

/-- The test that ends the forward recipe, on the word that `STATUS` reads as (R25, R236). -/
theorem encodeDrained_statusWord (s : State) : encodeDrained (statusWord s) =
    (decide (s.mem.pbuf.length ≤ s.cursor.byteIdx.toNat) && decide (s.mem.pixq = [])) := by
  unfold encodeDrained statusWord flagObNe flagPqNe flagHDone flagEAtEnd
  simp only [Cursor.atEnd, BitVec.getLsbD_append]
  simp [List.length_pos_iff]

/-- A header line that raises ends the header (R156, R260). -/
theorem parseHeader_raised {p : Params} {l : Bytes} {rest : List Bytes} {h : HdrRegs} {c : Cause} {info : Word}
    (e : parseLine p l h = .raised c info) : parseHeader p (l :: rest) h = .error (c, info) := by
  simp only [parseHeader, e]

/-- A header line that is taken or skipped ends the header exactly at Done (R161, R237). -/
theorem parseHeader_stepped {p : Params} {l : Bytes} {rest : List Bytes} {h h1 : HdrRegs} {hit : Bool}
    (e : parseLine p l h = .stepped hit h1) :
    parseHeader p (l :: rest) h = if h1.hstate = .done then .ok (h1, rest) else parseHeader p rest h1 := by
  simp only [parseHeader, e]

/-- The state code in the response to `HDR.LINE` (R156): the recipe stops exactly at Done. -/
theorem lineData_done (hit : Bool) (st : HState) :
    (lineData hit st).extractLsb' 0 3 = HState.done.code ↔ st = .done := by
  cases hit <;> cases st <;> decide

/-! ## Failing collaborators -/

/-- A collaborator that fails on a healthy block latches `IOError` and ends the program (R201, R257). -/
theorem run_failAfter_zero {α : Type} (p : Script α) {s : State} (hf : s.fault = false) :
    (Script.failAfter 0 p).run s = { out := [], fault := some 7, block := raise .ioError 0 s } := by
  have h1 : exec (.abort Cause.ioError.code) s = .next (raise .ioError 0 s) := by
    rw [exec_abort, whenHealthy_of_healthy hf]
    rfl
  rw [Script.failAfter, run_ask_faulted (answer_of_exec (by decide) h1 rfl) rfl]
  rfl

/-- What a program hands over before a collaborator fails is the beginning of what it would have handed over (R233). -/
theorem run_failAfter_prefix {α : Type} (n : Nat) (p : Script α) (s : State) :
    ((Script.failAfter n p).run s).out <+: (p.run s).out := by
  induction n generalizing p s with
  | zero =>
    have h0 : ((Script.failAfter 0 p).run s).out = [] := by
      simp only [Script.failAfter, Script.run]
      split <;> rfl
    rw [h0]
    exact List.nil_prefix
  | succ n ih =>
    cases p with
    | done => exact List.nil_prefix
    | emit a next => simpa [Script.failAfter] using ih next s
    | ask i next =>
      simp only [Script.failAfter, Script.run]
      split
      · exact List.nil_prefix
      · exact ih _ _

end Sys2Proof.Machine
end

