-- ==== Sys2Proof/Laws/Run.lean ====
section
/-! SUPPORT. Runs of several steps: one step taken off the front, and the step that a presented command makes. -/

namespace Sys2Proof.Machine

@[simp] theorem run_zero (s : State) : Sys2Proof.core.run 0 s = .next s := rfl

/-- A run whose first step answers a next state goes on from that state. -/
theorem run_succ {s t : State} {k : Nat} (h : step s = .next t) :
    Sys2Proof.core.run (k + 1) s = Sys2Proof.core.run k t := by
  have e : Sys2Proof.core.step s = .next t := h
  simp only [Host.Core.run, e]

@[simp] theorem present_nil : present [] = [] := rfl
@[simp] theorem present_cons (i : Instr) (is : List Instr) : present (i :: is) = .command (encode i) :: present is := rfl

/-- The step on a presented command runs it, where its word decodes to it. -/
theorem step_present {s : State} {i : Instr} {is : List Instr} {rest : List PortEvent}
    (hd : decode (encode i) = .instr i) (h : s.port = present (i :: is) ++ rest) :
    step s = exec i { s with port := present is ++ rest } := by
  rw [step_command (w := encode i) (rest := present is ++ rest) h, stepCommand_instr hd]

end Sys2Proof.Machine
end

