-- ==== Sys2Proof/Tests/Slice0.lean ====
section
/-! SUPPORT. The model's own tests. Every expected value is from spec/95_test_vectors.md (the section is named) or
worked out by hand from the rule named. The last part shows, for each statement with hypotheses, concrete data that
meets them. -/

open Sys2Proof Sys2Proof.Machine

namespace Sys2Proof.Tests

/-! ## Well-formedness: each check refuses an ill-formed line (R87, R88) -/

theorem test_wf_refuses_imm8 : ((AsmLine.rd 256).wf, (AsmLine.pbPush 256).wf, (AsmLine.cbPush 256).wf,
    (AsmLine.lbPush 256).wf) = (false, false, false, false) := by decide
theorem test_wf_refuses_mode24 : ((AsmLine.encStart 16777216).wf, (AsmLine.decRun 16777216).wf,
    (AsmLine.encode 16777216).wf) = (false, false, false) := by decide
theorem test_wf_refuses_sel : (AsmLine.rdStr 16 0).wf = false := by decide
theorem test_wf_refuses_idx : (AsmLine.rdStr 2 65536).wf = false := by decide
theorem test_wf_refuses_code4 : (AsmLine.abort 16).wf = false := by decide
theorem test_wf_refuses_loads : ((AsmLine.pbLoad [1, 256]).wf, (AsmLine.cbLoad [256]).wf) = (false, false) := by decide
theorem test_wf_refuses_text : (AsmLine.line [0x28, 128]).wf = false := by decide
theorem test_wf_takes_the_largest : ((AsmLine.rdStr 15 65535).wf, (AsmLine.abort 15).wf, (AsmLine.rd 255).wf,
    (AsmLine.decRun 16777215).wf) = (true, true, true, true) := by decide
theorem test_assemble_refuses : assembleWords (.pbPush 256) = none := by decide
/-- 3.6: `LINE "(*"` and `ENCODE 9`. -/
theorem test_assemble_pseudo : assembleWords (.line [0x28, 0x2A]) =
      some [0x14000000, 0x15000028, 0x1500002A, 0x41000000] ∧
    assembleWords (.encode 9) = some [0x20000009, 0x22000000] := by decide

/-! ## Decoding: every command's word (3.6), and words that are no command -/

theorem test_decode_srst : decode 0x01000000 = .instr .srst := by decide
theorem test_decode_abort : decode 0x02000005 = .instr (.abort 5) := by decide
theorem test_decode_rd : decode 0x03000016 = .instr (.rd 0x16) := by decide
theorem test_decode_rdStr : decode 0x04040002 = .instr (.rdStr 4 2) := by decide
theorem test_decode_pbClr : decode 0x10000000 = .instr .pbClr := by decide
theorem test_decode_pbPush : decode 0x110000A5 = .instr (.pbPush 0xA5) := by decide
theorem test_decode_cbClr : decode 0x12000000 = .instr .cbClr := by decide
theorem test_decode_cbPush : decode 0x130000E9 = .instr (.cbPush 233) := by decide
theorem test_decode_lbClr : decode 0x14000000 = .instr .lbClr := by decide
theorem test_decode_lbPush : decode 0x15000053 = .instr (.lbPush 0x53) := by decide
theorem test_decode_pqPop : decode 0x16000000 = .instr .pqPop := by decide
theorem test_decode_obPop : decode 0x17000000 = .instr .obPop := by decide
theorem test_decode_encStart : decode 0x2000000C = .instr (.encStart 12) := by decide
theorem test_decode_encPix : decode 0x21000000 = .instr .encPix := by decide
theorem test_decode_encRun : decode 0x22000000 = .instr .encRun := by decide
theorem test_decode_decRun : decode 0x30000001 = .instr (.decRun 1) := by decide
theorem test_decode_decRunh : decode 0x31000000 = .instr .decRunh := by decide
theorem test_decode_hdrStart : decode 0x40000000 = .instr .hdrStart := by decide
theorem test_decode_hdrLine : decode 0x41000000 = .instr .hdrLine := by decide
theorem test_decode_hdrEos : decode 0x42000000 = .instr .hdrEos := by decide
theorem test_decode_unassigned : decode 0x00000000 = .illegal .unassignedOpcode ∧
    decode 0x05000000 = .illegal .unassignedOpcode ∧ decode 0xFF000000 = .illegal .unassignedOpcode := by decide
theorem test_decode_must_be_zero : decode 0x01000001 = .illegal .mustBeZero ∧
    decode 0x21000001 = .illegal .mustBeZero ∧ decode 0x41800000 = .illegal .mustBeZero ∧
    decode 0x03000100 = .illegal .mustBeZero ∧ decode 0x04100000 = .illegal .mustBeZero ∧
    decode 0x02000010 = .illegal .mustBeZero := by decide
/-- R84: no word matches two rows, since two rows differ in a bit that both masks keep. -/
theorem test_rows_disjoint :
    opcodeRows.Pairwise fun r r' => r.pattern &&& r'.mask ≠ r'.pattern &&& r.mask := by decide
theorem test_table_word : decodeTableWord 32 0x04040002 = some (.rdStr 4 2) ∧ decodeTableWord 32 0 = none := by decide

/-! ## One step of each command -/

def respOf (o : Host.Outcome State Fault Refusal) : Option Response :=
  match o with
  | .next t => t.resp
  | .fault _ => none
  | .refused _ => none

/-- What a test looks at in the state after a step: the response, the fault registers and one part of the state. -/
structure Seen (α : Type) where
  resp : Option Response
  fault : Bool
  err : BitVec 4
  errInfo : Word
  part : α
deriving DecidableEq

def seen {α : Type} (o : Host.Outcome State Fault Refusal) (part : State → α) : Option (Seen α) :=
  match o with
  | .next t => some ⟨t.resp, t.fault, t.err, t.errInfo, part t⟩
  | .fault _ => none
  | .refused _ => none

def withPort (events : List PortEvent) : State := { State.reset with port := events }
def encoding (p : List Byte) (m : BitVec 8) (byteIdx : BitVec 32) (bitIdx : BitVec 3) : State :=
  { State.reset with mem.pbuf := p, emode := m, cursor := ⟨byteIdx, bitIdx⟩ }
def decoding (c o : List Byte) : State := { State.reset with mem.cbuf := c, mem.obuf := o }
def parsing (h : HdrRegs) (line : Bytes) : State := { State.reset with hdr := h, mem.lbuf := line }
def faulted : State := { State.reset with fault := true, err := 3, errInfo := 5 }
/-- A parser in ScanFields. -/
def fieldsAt (fidx fcnt : BitVec 3) : HdrRegs := { HdrRegs.armed with hstate := .scanFields, fidx, fcnt }

/-- R200, R263. -/
theorem test_srst : seen (exec .srst { faulted with mem.pbuf := [1] }) (fun t => t.mem.pbuf) =
    some ⟨some ⟨.ok, 0⟩, false, 0, 0, []⟩ := by decide
/-- R201. -/
theorem test_abort : seen (exec (.abort 5) State.reset) State.emode = some ⟨some ⟨.err, 5⟩, true, 5, 0, 0⟩ := by decide
/-- 3.6: `ABORT 0`. -/
theorem test_abort_zero : seen (exec (.abort 0) State.reset) State.emode =
    some ⟨some ⟨.err, 9⟩, true, 9, 0x02000000, 0⟩ := by decide
/-- 3.6: `RD STATUS` after reset. -/
theorem test_rd_status : respOf (exec (.rd 0x01) State.reset) = some ⟨.ok, 2⟩ := by decide
theorem test_rd_unassigned : respOf (exec (.rd 0x7F) faulted) = some ⟨.empty, 0⟩ := by decide
/-- R203. -/
theorem test_rdStr : respOf (exec (.rdStr 4 2) (parsing { HdrRegs.armed with filter := [1, 2, 3] } [])) =
    some ⟨.ok, 3⟩ := by decide
theorem test_rdStr_past_end : respOf (exec (.rdStr 4 3) (parsing { HdrRegs.armed with filter := [1, 2, 3] } [])) =
    some ⟨.empty, 0⟩ := by decide
/-- R180. -/
theorem test_pbClr : seen (exec .pbClr (encoding [1, 2] 9 1 3)) (fun t => (t.mem.pbuf, t.cursor)) =
    some ⟨some ⟨.ok, 0⟩, false, 0, 0, [], ⟨0, 0⟩⟩ := by decide
theorem test_pbPush : seen (exec (.pbPush 0xA5) State.reset) (fun t => t.mem.pbuf) =
    some ⟨some ⟨.ok, 0⟩, false, 0, 0, [0xA5]⟩ := by decide
/-- R182. -/
theorem test_cbClr : seen (exec .cbClr (decoding [1] [2])) (fun t => (t.mem.cbuf, t.mem.obuf)) =
    some ⟨some ⟨.ok, 0⟩, false, 0, 0, [], [2]⟩ := by decide
theorem test_cbPush : seen (exec (.cbPush 233) State.reset) (fun t => t.mem.cbuf) =
    some ⟨some ⟨.ok, 0⟩, false, 0, 0, [233]⟩ := by decide
/-- R184. -/
theorem test_lbClr : seen (exec .lbClr (parsing (fieldsAt 1 2) [1])) (fun t => (t.mem.lbuf, t.hdr.fidx)) =
    some ⟨some ⟨.ok, 0⟩, false, 0, 0, [], 1⟩ := by decide
theorem test_lbPush : seen (exec (.lbPush 0x53) State.reset) (fun t => t.mem.lbuf) =
    some ⟨some ⟨.ok, 0⟩, false, 0, 0, [0x53]⟩ := by decide
/-- 3.8: 64 pushes fill PBUF, the next raises `CapacityFault(1)`. -/
theorem test_push_full : seen (.next (pushByte .pbuf 64 0xEE { State.reset with mem.pbuf := List.replicate 64 0 }))
    (fun t => t.mem.pbuf.length) = some ⟨some ⟨.err, 8⟩, true, 8, 1, 64⟩ := by decide
/-- R111, R186. -/
theorem test_pqPop : seen (exec .pqPop { State.reset with mem.pixq := [⟨2, 4, 5, 0⟩, ⟨3, 1, 2, 3⟩] })
    (fun t => t.mem.pixq) = some ⟨some ⟨.ok, 0x02040500⟩, false, 0, 0, [⟨3, 1, 2, 3⟩]⟩ := by decide
theorem test_pqPop_empty : respOf (exec .pqPop State.reset) = some ⟨.empty, 0⟩ := by decide
/-- R187, in the faulted state. -/
theorem test_obPop : seen (exec .obPop { faulted with mem.obuf := [7, 8] }) (fun t => t.mem.obuf) =
    some ⟨some ⟨.ok, 7⟩, true, 3, 5, [8]⟩ := by decide
theorem test_obPop_empty : respOf (exec .obPop State.reset) = some ⟨.empty, 0⟩ := by decide
/-- R112. -/
theorem test_encStart : seen (exec (.encStart 12) (encoding [1, 2] 9 1 3)) (fun t => (t.emode, t.cursor)) =
    some ⟨some ⟨.ok, 0⟩, false, 0, 0, 12, ⟨0, 0⟩⟩ := by decide
/-- 3.6: mode 27 is a multiple of 3 above 24. -/
theorem test_encStart_27 : seen (exec (.encStart 27) State.reset) State.emode =
    some ⟨some ⟨.err, 1⟩, true, 1, 27, 0⟩ := by decide
/-- 3.2: mode 9, payload `[FF,01]`, the first pixel (E0,1C,03). -/
theorem test_encPix : seen (exec .encPix (encoding [0xFF, 0x01] 9 0 0)) State.cursor =
    some ⟨some ⟨.ok, 0x03E01C03⟩, false, 0, 0, ⟨1, 1⟩⟩ := by decide
/-- 3.2: mode 24, the second pixel (04,05,00;nv2). -/
theorem test_encPix_24 : seen (exec .encPix (encoding [1, 2, 3, 4, 5] 24 3 0)) State.cursor =
    some ⟨some ⟨.ok, 0x02040500⟩, false, 0, 0, ⟨5, 0⟩⟩ := by decide
/-- 3.8: mode 1, two payload bytes, a queue of 8. -/
theorem test_encRun : seen (.next (runEncode 8 1 (encoding [0xA5, 0xFF] 1 0 0)))
    (fun t => (t.mem.pixq.length, t.cursor)) = some ⟨some ⟨.ok, 8⟩, false, 0, 0, 8, ⟨1, 0⟩⟩ := by decide
/-- 3.6, R119. -/
theorem test_encRun_no_mode : seen (exec .encRun State.reset) State.emode =
    some ⟨some ⟨.err, 1⟩, true, 1, 0, 0⟩ := by decide
/-- 3.5: mode 12, `[10,02,30]` gives `[12,30]`. -/
theorem test_decRun : seen (.next (decodeAt 64 12 (decoding [0x10, 0x02, 0x30] [9]))) (fun t => t.mem.obuf) =
    some ⟨some ⟨.ok, 2⟩, false, 0, 0, [9, 0x12, 0x30]⟩ := by decide
/-- 3.8: 60 integers twice overflow OBUF; nothing is appended. -/
theorem test_decRun_overflow : seen (.next (decodeAt 64 24 (decoding (List.replicate 60 0) (List.replicate 60 0))))
    (fun t => t.mem.obuf.length) = some ⟨some ⟨.err, 8⟩, true, 8, 4, 60⟩ := by decide
/-- 3.6: `DEC.RUNH` with no header. -/
theorem test_decRunh_no_header : seen (exec .decRunh State.reset) State.emode =
    some ⟨some ⟨.err, 1⟩, true, 1, 0, 0⟩ := by decide
/-- 3.7: `DEC.RUNH` at mode 1 with one white triple. -/
theorem test_decRunh : seen (.next (decodeAtHeader 64
      { decoding [255, 255, 255] [] with hdr := { fieldsAt 2 2 with hvalid := 3, bpp := 1 } })) (fun t => t.mem.obuf) =
    some ⟨some ⟨.ok, 1⟩, false, 0, 0, [0x80]⟩ := by decide
/-- R155. -/
theorem test_hdrStart : seen (exec .hdrStart (parsing { fieldsAt 2 2 with hvalid := 3, bpp := 24 } [1]))
    (fun t => (t.hdr, t.mem.lbuf)) = some ⟨some ⟨.ok, 0⟩, false, 0, 0, HdrRegs.armed, [1]⟩ := by decide
/-- R163. -/
theorem test_hdrEos : seen (exec .hdrEos (parsing { fieldsAt 2 2 with hstate := .done } [])) State.emode =
    some ⟨some ⟨.ok, 0⟩, false, 0, 0, 0⟩ := by decide
theorem test_hdrEos_early : seen (exec .hdrEos (parsing (fieldsAt 2 2) [])) State.emode =
    some ⟨some ⟨.err, 4⟩, true, 4, 3, 0⟩ := by decide
/-- R86: an illegal word, and a word of a command that is dead in the faulted state. -/
theorem test_step_illegal : seen (step (withPort [.command 0x41800000])) State.port =
    some ⟨some ⟨.err, 9⟩, true, 9, 0x41800000, []⟩ := by decide
theorem test_step_dead : seen (step { faulted with port := [.command 0x10000000, .reset] }) State.port =
    some ⟨some ⟨.dead, 3⟩, true, 3, 5, [.reset]⟩ := by decide
/-- The host's probe: the next step takes the word presented. -/
theorem test_withFetchWord : seen (step (State.reset.withFetchWord 32 0x11000053)) (fun t => t.mem.pbuf) =
    some ⟨some ⟨.ok, 0⟩, false, 0, 0, [0x53]⟩ := by decide

/-! ## The header parser under the test profile TP1 of spec/95_test_vectors.md 1 (a fixture of the spec) -/

def digit? (b : Byte) : Option Nat := if 48 ≤ b.toNat ∧ b.toNat ≤ 57 then some (b.toNat - 48) else none
def digits? : Bytes → Nat → Option Nat
  | [], n => some n
  | b :: rest, n => (digit? b).bind fun d => digits? rest (10 * n + d)
def number? (longest : Nat) (s : Bytes) : Option Nat :=
  if s.length = 0 ∨ longest < s.length then none else digits? s 0
def after? : Bytes → Bytes → Option Bytes
  | [], s => some s
  | c :: cs, b :: s => if c = b then after? cs s else none
  | _ :: _, [] => none

def tp1 : Params where
  pbufTop := 63
  pixqTop := 7
  cbufTop := 127
  obufTop := 63
  lbufTop := 63
  strTop := 31
  rawKeyA := [0x31, 0x2E, 0x30]
  rawKeyB := [0x31, 0x2E, 0x31]
  rawKeyC := [0x31, 0x2E, 0x32]
  dimMatch := fun l => l == [0x57, 0x3D, 0x31, 0x20, 0x48, 0x3D, 0x31]
  openMatch := fun l => l == [0x28, 0x2A]
  closeMatch := fun l => l == [0x2A, 0x29]
  verMatch := fun l => (after? [0x56, 0x20] l).bind fun v => if v = [] then none else some v
  fieldMatch := fun f l =>
    match f with
    | .scale => ((after? [0x53, 0x3D] l).bind (number? 9)).map (BitVec.ofNat 32)
    | .bitsPerPixel => ((after? [0x42, 0x3D] l).bind (number? 9)).map (BitVec.ofNat 32)
    | .timestamp => after? [0x54, 0x3D] l
    | .source => after? [0x52, 0x3D] l
    | .filter => after? [0x46, 0x3D] l
    | .logicGateName => after? [0x4C, 0x3D] l
    | .logicOperand => ((after? [0x4F, 0x3D] l).bind (number? 3)).bind fun n =>
        if n ≤ 255 then some (BitVec.ofNat 8 n) else none

/-- TP1's dimension line, here for one size only, and its field names cut to one letter: S, B, T, R, F, L, O. -/
def dimLine : Bytes := [0x57, 0x3D, 0x31, 0x20, 0x48, 0x3D, 0x31]

/-- 3.7: the dimension line, (OK, 0x101). -/
theorem test_hdrLine_dimensions : seen (.next (presentLine tp1 (parsing HdrRegs.armed dimLine)))
    (fun t => (t.hdr.hstate, t.mem.lbuf)) = some ⟨some ⟨.ok, 0x101⟩, false, 0, 0, .scanCommentOpen, []⟩ := by decide
/-- 3.7: the key `"1.2 "` is in no row, (ERR, 2), and the line is kept. -/
theorem test_hdrLine_unknown_version : seen (.next (presentLine tp1
      (parsing { HdrRegs.armed with hstate := .scanVersion } [0x56, 0x20, 0x31, 0x2E, 0x32, 0x20])))
    (fun t => (t.hdr.hstate, t.mem.lbuf.length)) = some ⟨some ⟨.err, 2⟩, true, 2, 0, .scanVersion, 6⟩ := by decide
/-- 3.7: 33 bytes for a string register of 32, (ERR, 8), information word 5, nothing stored. -/
theorem test_field_too_long : seen (.next (presentLine tp1
      (parsing { fieldsAt 2 5 with hvalid := 3 } ([0x54, 0x3D] ++ List.replicate 33 0x78))))
    (fun t => (t.hdr.fidx, t.hdr.hvalid, t.hdr.timestamp)) = some ⟨some ⟨.err, 8⟩, true, 8, 5, 2, 3, []⟩ := by decide
/-- 3.7: an empty string is stored, `FIDX` and `HVALID` advance. -/
theorem test_field_empty_string : seen (.next (presentLine tp1
      (parsing { fieldsAt 2 5 with hvalid := 3 } [0x54, 0x3D])))
    (fun t => (t.hdr.fidx, t.hdr.hvalid)) = some ⟨some ⟨.ok, 0x103⟩, false, 0, 0, 3, 7⟩ := by decide
/-- R161: comment-close with a field missing. -/
theorem test_close_early : seen (.next (presentLine tp1 (parsing { fieldsAt 1 2 with hvalid := 1 } [0x2A, 0x29])))
    (fun t => t.hdr.hstate) = some ⟨some ⟨.err, 3⟩, true, 3, 1, .scanFields⟩ := by decide

/-! ## The boundary functions -/

/-- 2, S2. -/
theorem test_decode_literal :
    codecDecode [0, 1, 1, 2, 3, 5, 8, 13, 21, 34, 55, 89, 144, 233] 12 = [1, 2, 5, 13, 18, 57, 153] := by decide +kernel
/-- 3.2: mode 21, payload `[12,39,99]`. -/
theorem test_encode_21 : codecEncode [0x12, 0x39, 0x99] 21 = [⟨3, 0x12, 0x38, 0x99⟩, ⟨3, 0x01, 0, 0⟩] := by decide +kernel
/-- R219. -/
theorem test_operand : (match checkOperand (some 255) with | .ok b => b == 255 | .error _ => false) = true ∧
    (match checkOperand (some 256) with | .ok _ => false | .error c => c == .operandError) = true ∧
    (match checkOperand none with | .ok _ => false | .error c => c == .operandError) = true := by decide

/-! ## Witnesses: data that meet the hypotheses of the statements -/

/-- For a statement whose hypothesis is that a step or a command answers a state with some property. -/
def answers (o : Host.Outcome State Fault Refusal) (good : State → Bool) : Bool :=
  match o with
  | .next t => good t
  | .fault _ => false
  | .refused _ => false

theorem test_witness_row : ⟨"RD", 0x03000000, 0xFFFFFF00⟩ ∈ opcodeRows ∧
    (0x03000016 : Word) &&& 0xFFFFFF00 = 0x03000000 ∧
    ∀ row ∈ opcodeRows, (0x41800000 : Word) &&& row.mask ≠ row.pattern := by decide

theorem test_witness_StepRuns : (withPort [.command 0x21000000]).port = .command 0x21000000 :: [] ∧
    decode 0x21000000 = .instr .encPix := by decide

/-- A word that is dead, one that survives, and an illegal one, each on a faulted block. -/
theorem test_witness_DecodingProcedure : { faulted with port := [.command 0x21000000] }.port = .command 0x21000000 :: [] ∧
    faulted.fault = true ∧
    (¬ ∃ row ∈ opcodeRows, row.mnemonic ∈ ["SRST", "RD", "RD.STR", "PQ.POP", "OB.POP"] ∧
      (0x21000000 : Word) &&& row.mask = row.pattern) ∧
    (∃ row ∈ opcodeRows, row.mnemonic ∈ ["SRST", "RD", "RD.STR", "PQ.POP", "OB.POP"] ∧
      (0x16000000 : Word) &&& row.mask = row.pattern) ∧
    decode 0x16000000 = .instr .pqPop ∧ (withPort [.command 0]).port = .command 0 :: [] ∧
    (withPort [.command 0]).fault = false ∧
    ∀ row ∈ opcodeRows, (0 : Word) &&& row.mask ≠ row.pattern := by decide

theorem test_witness_IllegalCommand : (withPort [.command 0xFF000000]).fault = false ∧
    (withPort [.command 0xFF000000]).port = .command 0xFF000000 :: [] ∧
    ∀ row ∈ opcodeRows, (0xFF000000 : Word) &&& row.mask ≠ row.pattern := by decide

theorem test_witness_IdleBlock : State.reset.port = [] := by decide

theorem test_witness_FaultEntry : (withPort [.command 0x21000000]).fault = false ∧
    answers (step (withPort [.command 0x21000000])) State.fault = true := by decide

/-- The faulted block under another command, under `SRST` and under `RESET`. -/
theorem test_witness_OnlyResetLeaves : faulted.fault = true ∧
    answers (step { faulted with port := [.command 0x03000001] }) State.fault = true ∧
    answers (step { faulted with port := [.command 0x01000000] }) (fun t => !t.fault) = true ∧
    answers (step { faulted with port := [.reset] }) (fun t => !t.fault) = true := by decide

/-- A format error, a missing terminator and a full buffer. The causes 2, 3 and 5 depend on the open matchers. -/
theorem test_witness_EachCause : answers (exec .encPix State.reset) State.fault = true ∧
    answers (exec (.decRun 26) State.reset) State.fault = true ∧
    answers (exec .hdrEos State.reset) State.fault = true := by decide

/-- A full payload buffer, whatever its capacity. -/
theorem test_witness_full : (List.replicate Config.params.pbufSize (0 : Byte)).length = Config.params.pbufSize ∧
    (List.replicate Config.params.cbufSize (0 : Byte)).length = Config.params.cbufSize ∧
    (List.replicate Config.params.lbufSize (0 : Byte)).length = Config.params.lbufSize := by simp

/-- An empty buffer has room, whatever its capacity. -/
theorem test_witness_room : State.reset.mem.pbuf.length ≠ Config.params.pbufSize ∧
    State.reset.mem.cbuf.length ≠ Config.params.cbufSize ∧
    State.reset.mem.lbuf.length ≠ Config.params.lbufSize := by decide

theorem test_witness_ResetInput : (withPort [.reset, .command 0]).port = .reset :: [.command 0] := by decide

theorem test_witness_Abort : State.reset.fault = false ∧ (15 : BitVec 4) ≠ 0 ∧ faulted.fault = true := by decide

/-- A string register of 3 bytes: its last index, the first past it, and a selector that names no string. -/
theorem test_witness_ReadString : let h : HdrRegs := { HdrRegs.armed with filter := [1, 2, 3] }
    (4, h.filter) ∈ [((2 : BitVec 4), h.timestamp), (3, h.source), (4, h.filter), (5, h.gateName), (8, h.formatVersion)] ∧
    (2 : BitVec 16).toNat < h.filter.length ∧ h.filter.length ≤ (3 : BitVec 16).toNat ∧
    (15 : BitVec 4) ∉ [(2 : BitVec 4), 3, 4, 5, 8] := by decide

theorem test_witness_PushWritesOneEntry : answers (exec (.pbPush 1) State.reset) (fun t => !t.fault) = true ∧
    answers (exec (.cbPush 1) State.reset) (fun t => !t.fault) = true ∧
    answers (exec (.lbPush 1) State.reset) (fun t => !t.fault) = true := by decide

theorem test_witness_Pops : State.reset.mem.pixq = [] ∧ State.reset.mem.obuf = [] ∧
    (decoding [] [7, 8]).mem.obuf = 7 :: [8] := by decide

/-- The last position of a 32-bit byte index. -/
theorem test_witness_Cursor : 8 * (BitVec.allOnes 32).toNat + (7 : BitVec 3).toNat + 0 < 2 ^ 35 ∧
    8 * (3 : BitVec 32).toNat + (5 : BitVec 3).toNat + (6 + 13) < 2 ^ 35 := by decide

theorem test_witness_ENC_START : (24 : BitVec 24).toNat ∈ [1, 3, 6, 9, 12, 15, 18, 21, 24] ∧
    (25 : BitVec 24).toNat ∉ [1, 3, 6, 9, 12, 15, 18, 21, 24] := by decide

/-- No mode, the end of the payload, and the last byte before it. -/
theorem test_witness_ENC_PIX : validMode (encoding [1] 0 0 0).emode.toNat = false ∧
    validMode (encoding [1] 9 1 0).emode.toNat = true ∧
    (encoding [1] 9 1 0).mem.pbuf.length ≤ (encoding [1] 9 1 0).cursor.byteIdx.toNat ∧
    (encoding [1] 9 0 7).cursor.byteIdx.toNat < (encoding [1] 9 0 7).mem.pbuf.length := by decide

/-- Mode 24 with one byte left and with three; mode 1; the modes 3 and 21. -/
theorem test_witness_pixels : (encoding [1, 2, 3, 4] 24 3 0).emode = 24 ∧ (encoding [1, 2, 3, 4] 24 3 0).cursor.bitIdx = 0 ∧
    (encoding [1, 2, 3, 4] 24 3 0).cursor.byteIdx.toNat < (encoding [1, 2, 3, 4] 24 3 0).mem.pbuf.length ∧
    (encoding [1, 2, 3, 4] 24 1 0).cursor.byteIdx.toNat < (encoding [1, 2, 3, 4] 24 1 0).mem.pbuf.length ∧
    (encoding [1, 2] 1 1 7).emode = 1 ∧ (encoding [1, 2] 1 1 7).cursor.byteIdx.toNat < 2 ∧
    (encoding [1, 2] 3 1 6).emode.toNat ∈ [3, 6, 9, 12, 15, 18, 21] ∧
    (encoding [1, 2] 21 1 6).emode.toNat ∈ [3, 6, 9, 12, 15, 18, 21] ∧
    (encoding [1, 2] 21 1 6).mem.pbuf.length < 2 ^ 32 := by decide

theorem armed_inv (p : Params) : HdrInv p HdrRegs.armed := by
  constructor <;> simp [HdrRegs.armed, HdrRegs.strings, HState.code]

/-- A state in the middle of an encode, with a command waiting: it has the invariant and steps. -/
theorem test_witness_Inv : Inv Config.params { encoding [0xA5] 9 0 3 with port := [.command 0x21000000] } ∧
    answers (step { encoding [0xA5] 9 0 3 with port := [.command 0x21000000] }) (fun t => !t.fault) = true :=
  ⟨⟨by decide, by decide, ⟨Nat.succ_le_succ (Nat.zero_le _), by simp [encoding, State.reset, Memory.empty]⟩, by decide,
    by decide, by decide, armed_inv _⟩, by decide⟩

/-- A faulted state with a full pixel queue has the invariant, at the other bounds of its clauses. -/
theorem test_witness_Inv_full : Inv Config.params
    { faulted with mem.pixq := List.replicate Config.params.pixqSize ⟨3, 0, 0, 0⟩, emode := 24 } :=
  ⟨by decide, by decide, by simp [faulted, State.reset, Memory.empty, Memory.wf], .inr (by change validMode 24 = true; decide),
    fun _ => rfl, by decide, armed_inv _⟩

/-- A header in Done has the header invariant. -/
theorem test_witness_HdrInv_done (p : Params) : HdrInv p { HdrRegs.armed with
    hstate := .done, fidx := 2, fcnt := 2, hvalid := 3, formatVersion := p.key .a, scale := 7, bpp := 24 } := by
  constructor <;> simp [HdrRegs.armed, HdrRegs.strings, HState.code]
  · exact p.key_length_le .a
  · exact ⟨.a, rfl, rfl, rfl⟩

/-- `ENC.RUN` with a mode and with none. -/
theorem test_witness_ENC_RUN : validMode (encoding [0xA5] 9 0 3).emode.toNat = true ∧
    validMode State.reset.emode.toNat = false := by decide

theorem test_witness_EncodeLength : validMode 1 = true ∧ validMode 3 = true ∧ validMode 24 = true ∧
    [(1 : Byte)].length < 2 ^ 32 := by decide

/-- OBUF full, and OBUF with room for one byte. -/
def fullOut : State := decoding [1] (List.replicate Config.params.obufSize 0)
def roomForOne : State := decoding [1] (List.replicate (Config.params.obufSize - 1) 0)

/-- An invalid mode; one byte too many for OBUF; one that just fits. -/
theorem test_witness_DEC_RUN : fullOut.fault = false ∧ roomForOne.fault = false ∧
    validMode (26 : BitVec 24).toNat = false ∧ validMode (24 : BitVec 24).toNat = true ∧
    Config.params.obufSize <
      fullOut.mem.obuf.length + (codecDecode fullOut.mem.cbuf (24 : BitVec 24).toNat).length ∧
    roomForOne.mem.obuf.length + (codecDecode roomForOne.mem.cbuf (24 : BitVec 24).toNat).length ≤
      Config.params.obufSize := by
  refine ⟨rfl, rfl, by decide, by decide, ?_, ?_⟩ <;>
    simp [fullOut, roomForOne, decoding, codecDecode, Params.obufSize]

/-- The field not stored; stored and invalid; stored and valid, with OBUF full and with room. -/
theorem test_witness_DEC_RUNH : State.reset.hdr.hvalid.getLsbD 1 = false ∧
    { fieldsAt 2 2 with hvalid := 3, bpp := 26 }.hvalid.getLsbD 1 = true ∧ validMode (26 : Word).toNat = false ∧
    validMode (24 : Word).toNat = true ∧
    Config.params.obufSize < fullOut.mem.obuf.length + (codecDecode fullOut.mem.cbuf (24 : Word).toNat).length ∧
    roomForOne.mem.obuf.length + (codecDecode roomForOne.mem.cbuf (24 : Word).toNat).length ≤
      Config.params.obufSize := by
  refine ⟨by decide, by decide, by decide, by decide, ?_, ?_⟩ <;>
    simp [fullOut, roomForOne, decoding, codecDecode, Params.obufSize]

/-- k = 1 and k = 7; a nonzero partial byte, and a zero one. -/
theorem test_witness_Grouped : (∃ q, 8 * (1 * 1 / 8) ≤ q ∧ q < 1 * 1 ∧ (([0x80] : List Byte).getD (q / 1) 0).getMsbD (q % 8) = true) ∧
    (∀ q, 8 * (7 * 2 / 8) ≤ q → q < 7 * 2 → (([0xFF, 0x01] : List Byte).getD (q / 7) 0).getMsbD (q % 8) = false) := by
  refine ⟨⟨0, by decide⟩, fun q h1 h2 => ?_⟩
  interval_cases q <;> decide

theorem test_witness_Mono : (∃ j, 8 * ((1 + 2) / 3 / 8) ≤ j ∧ j < (1 + 2) / 3 ∧ decide (([0xFF] : List Byte).getD (3 * j) 0 ≠ 0) = true) ∧
    (∀ j, 8 * ((3 + 2) / 3 / 8) ≤ j → j < (3 + 2) / 3 → decide (([0, 0xFF, 0xFF] : List Byte).getD (3 * j) 0 ≠ 0) = false) := by
  refine ⟨⟨0, by decide⟩, fun j h1 h2 => ?_⟩
  interval_cases j
  decide

theorem test_witness_RoundTrip : validMode 21 = true ∧ ([0x12, 0x39, 0x99] : List Byte).length < 2 ^ 32 := by decide

/-- The parser in each of its states, on a healthy block. -/
theorem test_witness_states : (parsing HdrRegs.armed []).hdr.hstate = .scanDimensions ∧
    (parsing { HdrRegs.armed with hstate := .scanCommentOpen } []).hdr.hstate = .scanCommentOpen ∧
    (parsing { HdrRegs.armed with hstate := .scanVersion } []).hdr.hstate = .scanVersion ∧
    (parsing (fieldsAt 0 2) []).hdr.hstate = .scanFields ∧
    (parsing { fieldsAt 2 2 with hstate := .done } []).hdr.hstate = .done ∧
    (parsing HdrRegs.armed []).fault = false := by decide

/-- The first and the last field awaited, and every field stored. -/
theorem test_witness_FieldLine : (fieldsAt 0 2).fidx.toNat < (fieldsAt 0 2).fcnt.toNat ∧ fieldOfId 0 = some .scale ∧
    (fieldsAt 6 7).fidx.toNat < (fieldsAt 6 7).fcnt.toNat ∧ fieldOfId 6 = some .logicOperand ∧
    (fieldsAt 7 7).fcnt.toNat ≤ (fieldsAt 7 7).fidx.toNat := by decide

theorem test_witness_Store : (List.replicate 32 (0 : Byte)).length ≤ 32 ∧ 32 < (List.replicate 33 (0 : Byte)).length := by
  decide

theorem test_witness_FrozenInDone : (parsing { fieldsAt 2 2 with hstate := .done } [1]).hdr.hstate = .done ∧
    answers (step { parsing { fieldsAt 2 2 with hstate := .done } [1] with port := [.command 0x41000000] })
      (fun t => decide (t.mem.lbuf = [])) = true := by decide

/-- A version-c header whose strings are as long as the registers hold. -/
def headerText : HeaderText where
  version := .c
  dimLine := dimLine
  openLine := [0x28, 0x2A]
  versionLine := [0x56, 0x20, 0x31, 0x2E, 0x32]
  fieldLine := fun f =>
    match f with
    | .scale => [0x53, 0x3D, 0x37]
    | .bitsPerPixel => [0x42, 0x3D, 0x32, 0x34]
    | .timestamp => [0x54, 0x3D] ++ List.replicate 32 0x78
    | .source => [0x52, 0x3D]
    | .filter => [0x46, 0x3D, 0x61]
    | .logicGateName => [0x4C, 0x3D, 0x78]
    | .logicOperand => [0x4F, 0x3D, 0x32, 0x35, 0x35]
  closeLine := [0x2A, 0x29]

def headerVals (f : FieldId) : f.Val :=
  match f with
  | .scale => (7 : Word)
  | .bitsPerPixel => (24 : Word)
  | .timestamp => List.replicate 32 0x78
  | .source => []
  | .filter => [0x61]
  | .logicGateName => [0x78]
  | .logicOperand => (255 : Byte)

theorem test_witness_WrittenHeader : tp1.dimMatch headerText.dimLine = true ∧ tp1.openMatch headerText.openLine = true ∧
    tp1.verMatch headerText.versionLine = some (tp1.key headerText.version) ∧
    (∀ f ∈ requiredFields headerText.version, tp1.fieldMatch f (headerText.fieldLine f) = some (headerVals f)) ∧
    (headerVals .timestamp).length ≤ tp1.strMax ∧ (headerVals .source).length ≤ tp1.strMax ∧
    (headerVals .filter).length ≤ tp1.strMax ∧ (headerVals .logicGateName).length ≤ tp1.strMax ∧
    tp1.closeMatch headerText.closeLine = true := by
  refine ⟨by decide, by decide, by decide, ?_, by decide, by decide, by decide, by decide, by decide⟩
  simp only [headerText, requiredFields, List.forall_mem_cons, List.not_mem_nil, false_imp_iff, implies_true, and_true]
  exact ⟨by decide, by decide, by decide, by decide, by decide, by decide, by decide⟩

/-- Two states that differ outside ENC, and a command of ENC on both. -/
theorem test_witness_Units : unitOf .encPix = some .enc ∧ unitOf .encPix ≠ some .dec ∧
    AgreeOn .enc (encoding [1] 9 0 0) { encoding [1] 9 0 0 with mem.cbuf := [1], hdr := fieldsAt 1 2 } ∧
    AgreeOnFault (encoding [1] 9 0 0) { encoding [1] 9 0 0 with mem.cbuf := [1], hdr := fieldsAt 1 2 } ∧
    unitOf .decRunh = some .dec ∧ AgreeOn .dec State.reset { State.reset with emode := 1 } ∧
    AgreeOn .hdr State.reset { State.reset with emode := 1 } := by
  refine ⟨rfl, by decide, ⟨rfl, rfl, rfl, rfl⟩, ⟨rfl, rfl, rfl⟩, rfl, ⟨rfl, rfl⟩, ⟨rfl, rfl⟩⟩

theorem test_witness_Gates : Gate.not ∈ [Gate.xor, Gate.not, Gate.none] ∧ Gate.nand ∈ [Gate.or, Gate.and, Gate.nand] := by
  decide

/-- Two rows at the limit, and a declaration at it (2, S6). -/
theorem test_witness_Rows : (∀ row ∈ [[(⟨3, 1, 2, 3⟩ : Pixel), ⟨2, 4, 5, 0⟩], [⟨3, 6, 7, 8⟩]], row ≠ [] ∧ row.length ≤ 2) ∧
    100 ≤ (⟨100, 0, 0, 0, 0⟩ : PixelDecl).x := by decide

theorem test_witness_Reconstruction : validMode 24 = true ∧
    ∀ p ∈ [([1, 2, 3, 4] : List Byte), [5]], p ≠ [] ∧ p.length < 2 ^ 32 ∧
      (codecEncode (transformPayload .xor 0x0F p) 24).length ≤ 2 := by decide

/-- One byte at mode 24 fits any buffer and any queue. -/
theorem test_witness_ForwardRecipe : Healthy (withPort (present (forwardRecipe [0xA5] 24))) ∧
    validMode (24 : BitVec 24).toNat = true ∧ [(0xA5 : Byte)].length ≤ Config.params.pbufSize ∧
    (withPort (present (forwardRecipe [0xA5] 24))).mem.pixq.length + (codecEncode [0xA5] (24 : BitVec 24).toNat).length ≤ Config.params.pixqSize ∧
    (withPort (present (forwardRecipe [0xA5] 24))).port = present (forwardRecipe [0xA5] 24) ++ [] :=
  ⟨rfl, by decide, Nat.succ_le_succ (Nat.zero_le _), Nat.succ_le_succ (Nat.zero_le _), by decide⟩

/-- A pixel below the limit and one at it, on an empty and on a full CBUF (2, S6). -/
theorem test_witness_PixelRecipe :
    let below : State := withPort (present (pixelRecipe 100 ⟨99, 0, 1, 2, 3⟩))
    let at' : State := { withPort (present (pixelRecipe 100 ⟨100, 0, 1, 2, 3⟩)) with
      mem.cbuf := List.replicate Config.params.cbufSize 0 }
    Healthy below ∧ below.mem.cbuf.length ≤ Config.params.cbufSize ∧
    below.port = present (pixelRecipe 100 ⟨99, 0, 1, 2, 3⟩) ++ [] ∧ (⟨99, 0, 1, 2, 3⟩ : PixelDecl).x < 100 ∧
    Healthy at' ∧ at'.mem.cbuf.length ≤ Config.params.cbufSize ∧
    at'.port = present (pixelRecipe 100 ⟨100, 0, 1, 2, 3⟩) ++ [] ∧ 100 ≤ (⟨100, 0, 1, 2, 3⟩ : PixelDecl).x := by
  refine ⟨rfl, Nat.zero_le _, rfl, by decide, rfl, by simp, rfl, by decide⟩

/-- One integer decoded at mode 24, on an empty OBUF. -/
theorem test_witness_FlushRecipe : let s : State := { decoding [7] [] with port := present (flushRecipe 24 1) }
    Healthy s ∧ validMode (24 : BitVec 24).toNat = true ∧ s.mem.obuf = [] ∧
    (codecDecode s.mem.cbuf (24 : BitVec 24).toNat).length ≤ Config.params.obufSize ∧
    s.port = present (flushRecipe 24 (codecDecode s.mem.cbuf (24 : BitVec 24).toNat).length) ++ [] ∧
    0 < (codecDecode s.mem.cbuf (24 : BitVec 24).toNat).length :=
  ⟨rfl, by decide, rfl, Nat.succ_le_succ (Nat.zero_le _), by decide, by decide⟩

/-- A single line, here an empty one, raises nothing in ScanDimensions, whatever the matchers. -/
theorem test_witness_HeaderRecipe : Healthy (withPort (present (headerRecipe [[]]))) ∧
    (withPort (present (headerRecipe [[]]))).port = present (headerRecipe [[]]) ++ [] ∧ (∀ l ∈ [([] : Bytes)], l.length ≤ Config.params.lbufSize) ∧
    ∃ hit h, parseLines Config.params [[]] HdrRegs.armed = .stepped hit h := by
  refine ⟨rfl, by decide, by simp, ?_⟩
  simp only [parseLines, parseLine, HdrRegs.armed]
  split_ifs <;> exact ⟨_, _, rfl⟩

/-! ### The flows and the driven recipes -/

/-- R83's table. -/
theorem test_status_codes : [RespStatus.ok, .empty, .err, .dead].map RespStatus.code = [0, 1, 2, 3] := by decide

/-- A faulted block and a dead command; a healthy block and a command that raises, one that finds nothing. -/
theorem test_witness_StatusCodes :
    answers (exec .pbClr { State.reset with fault := true, err := 8 }) (fun t => decide (t.resp = some ⟨.dead, 8⟩)) = true ∧
    answers (exec (.abort 5) State.reset) (fun t => decide (t.resp = some ⟨.err, 5⟩)) = true ∧
    answers (exec .pqPop State.reset) (fun t => decide (t.resp = some ⟨.empty, 0⟩)) = true := by decide

/-- A body text that reads back what it writes: x and y as runs of zero bytes, each ended by a one; the empty line ends
the body, and a line that ends too early is neither. -/
def unaryFormat : BodyFormat where
  declLine d := List.replicate d.x 0 ++ 1 :: (List.replicate d.y 0 ++ [1, d.r, d.g, d.b])
  terminatorLine := []
  readLine l :=
    let afterX := l.dropWhile (· = 0)
    let afterY := (afterX.drop 1).dropWhile (· = 0)
    match l, afterY with
    | [], _ => .terminator
    | _, [_, r, g, b] =>
      .pixel ⟨(l.takeWhile (· = 0)).length, ((afterX.drop 1).takeWhile (· = 0)).length, r, g, b⟩
    | _, _ => .other

theorem takeWhile_zeros (n : Nat) (l : Bytes) :
    (List.replicate n 0 ++ 1 :: l).takeWhile (· = 0) = List.replicate n 0 ∧
      (List.replicate n 0 ++ 1 :: l).dropWhile (· = 0) = 1 :: l := by
  simp

theorem unaryFormat_reads (d : PixelDecl) : unaryFormat.readLine (unaryFormat.declLine d) = .pixel d := by
  rcases d with ⟨x, y, r, g, b⟩
  have hx := takeWhile_zeros x (List.replicate y 0 ++ [1, r, g, b])
  have hy := takeWhile_zeros y [r, g, b]
  cases x <;> simp_all [unaryFormat, List.replicate_succ]

/-- A number as decimal digits, as far as the tests need them. -/
def digits (n : Nat) : Bytes :=
  let d (k : Nat) : Byte := BitVec.ofNat 8 (0x30 + k)
  if n < 10 then [d n] else [d (n / 10), d (n % 10)]

/-- The texts that TP1 reads (section 2), a gate named by one letter. -/
def tp1Header : HeaderFormat where
  dimLine := dimLine
  openLine := [0x28, 0x2A]
  versionLine v :=
    [0x56, 0x20] ++ match v with
      | .a => [0x31, 0x2E, 0x30]
      | .b => [0x31, 0x2E, 0x31]
      | .c => [0x31, 0x2E, 0x32]
  fieldLine f :=
    match f with
    | .scale => fun v => [0x53, 0x3D] ++ digits v.toNat
    | .bitsPerPixel => fun v => [0x42, 0x3D] ++ digits v.toNat
    | .timestamp => fun v => [0x54, 0x3D] ++ v
    | .source => fun v => [0x52, 0x3D] ++ v
    | .filter => fun v => [0x46, 0x3D] ++ v
    | .logicGateName => fun v => [0x4C, 0x3D] ++ v
    | .logicOperand => fun v => [0x4F, 0x3D] ++ digits v.toNat
  closeLine := [0x2A, 0x29]
  gateName g :=
    match g with
    | .xor => [0x78]
    | .or => [0x6F]
    | .and => [0x61]
    | .not => [0x6E]
    | .nand => [0x64]
    | .none => [0x2D]

/-- Two packets, the second shorter than a pixel, at mode 24 and in two rows; version c, whose header has the
transform. -/
def forwardConfig : ForwardConfig :=
  { gate := .xor, operand := 0x0F, mode := 24, layout := .fixed, version := .c, scale := 7, timestamp := [0x78],
    source := [], filter := [0x61], headerFormat := tp1Header, format := unaryFormat }

def captures : List Capture := [⟨5, [0x01, 0x02, 0x03, 0x04]⟩, ⟨9, [0xFF]⟩]

def captureSource : CaptureSource := ⟨captures, .endOfStream⟩

/-- R210, R223: the declarations by hand, each byte xor 0x0F; the row function of the time-sliced layout gets 4, the
time since the first packet. -/
theorem test_forward_body : forwardBody forwardConfig captures =
      [⟨0, 0, 0x0E, 0x0D, 0x0C⟩, ⟨1, 0, 0x0B, 0, 0⟩, ⟨0, 1, 0xF0, 0, 0⟩] ∧
    (forwardBody { forwardConfig with layout := .timeSliced fun e => 10 * e.toNat } captures).map PixelDecl.y =
      [0, 0, 40] := by decide

/-- R228, R229: the header's seven fields and three markers stand before the body; the reverse run takes mode 24 from
them. -/
theorem test_reverse_of_forward :
    (forwardRun forwardConfig captureSource).out.take 2 = [dimLine, [0x28, 0x2A]] ∧
    reverseRun tp1 unaryFormat 100 (forwardRun forwardConfig captureSource).out =
      ⟨[⟨0, [0x0E, 0x0D, 0x0C, 0x0B, 0, 0]⟩, ⟨0, [0xF0, 0, 0]⟩], none⟩ := by decide

/-- R217: the sixth and seventh field line are the run's own transform, here `L=x` and `O=15`. -/
theorem test_header_records_transform : forwardConfig.headerText.lines.drop 8 =
    [[0x4C, 0x3D, 0x78], [0x4F, 0x3D, 0x31, 0x35], [0x2A, 0x29]] := by decide

/-- R234, R257: a source that fails after two packets: their rows stay, no terminator follows, the error is IOError. -/
theorem test_source_error : let r := forwardRun forwardConfig ⟨captures, .error⟩
    r.error = some (.ioError, 0) ∧ r.out ++ [[]] = (forwardRun forwardConfig captureSource).out := by decide

/-- R224, R233: at a limit of 1 the second declaration aborts, and no row has been flushed before it. R163: a container
that ends with its header unfinished. -/
theorem test_reverse_errors :
    reverseRun tp1 unaryFormat 1 (forwardRun forwardConfig captureSource).out = ⟨[], some (.boundsError, 0)⟩ ∧
    reverseRun tp1 unaryFormat 1 [dimLine] = ⟨[], some (.noTerminatorError, 1)⟩ := by decide

/-- R229, R132: an invalid header mode is an error at the first flush, and no error where no row is flushed. -/
theorem test_reverse_invalid_mode : reverseBody 100 26 [⟨0, 0, 1, 2, 3⟩] = ⟨[], some (.formatError, 26)⟩ ∧
    reverseBody 100 26 [] = ⟨[], none⟩ ∧ reverseBody 100 0 [⟨100, 0, 1, 2, 3⟩] = ⟨[], some (.boundsError, 0)⟩ := by decide

/-- One byte at a valid and at an invalid mode, and one packet of one byte. -/
theorem test_witness_ForwardRun : Healthy State.reset ∧ State.reset.mem.pixq = [] ∧
    [(0xA5 : Byte)].length ≤ Config.params.pbufSize ∧ validMode (24 : BitVec 24).toNat = true ∧
    validMode (26 : BitVec 24).toNat = false ∧
    (∀ c ∈ [(⟨0, [0xA5]⟩ : Capture)], c.payload.length ≤ Config.params.pbufSize) ∧
    (forwardRun { forwardConfig with mode := 26 } ⟨[⟨0, [0xA5]⟩], .endOfStream⟩).error = some (.formatError, 26) := by
  refine ⟨rfl, rfl, Nat.succ_le_succ (Nat.zero_le _), by decide, by decide, ?_, by decide⟩
  rintro c (_ | ⟨_, ⟨⟩⟩)
  exact Nat.succ_le_succ (Nat.zero_le _)

/-- A container of empty lines with a body text that knows no declarations, whatever the matchers: every room needed is
there. -/
theorem test_witness_ReverseRun : let f : BodyFormat := ⟨fun _ => [], [], fun _ => .other⟩
    Healthy State.reset ∧ State.reset.mem.cbuf = [] ∧ State.reset.mem.obuf = [] ∧
    (∀ l ∈ [([] : Bytes), []], l.length ≤ Config.params.lbufSize) ∧
    ∀ (h : HdrRegs) (rest : List Bytes), parseHeader Config.params [[], []] HdrRegs.armed = .ok (h, rest) →
      (∀ n, (((readBody f rest).take n).foldl Reassembler.feed Reassembler.start).ints.length
        ≤ Config.params.cbufSize) ∧
      (validMode h.bpp.toNat = true → ∀ row ∈ (reassemble 100 (readBody f rest) Reassembler.start).1,
        (codecDecode row h.bpp.toNat).length ≤ Config.params.obufSize) := by
  intro f
  have none : ∀ rest, readBody f rest = [] := fun rest => by
    induction rest with
    | nil => rfl
    | cons l rest ih => simpa [readBody, f] using ih
  refine ⟨rfl, rfl, rfl, by simp, fun h rest _ => ?_⟩
  rw [none]
  simp [Reassembler.start, reassemble, Reassembler.finish]

/-- The same with one declaration, for header lines that any parameter set reads to Done and buffers of three bytes: the
line after the header is the declaration. -/
theorem test_witness_ReverseRun_pixel (hl : List Bytes) (h : HdrRegs)
    (hp : parseHeader Config.params (hl ++ [[]]) HdrRegs.armed = .ok (h, [[]])) (hc : 3 ≤ Config.params.cbufSize)
    (ho : 3 ≤ Config.params.obufSize) : let f : BodyFormat := ⟨fun _ => [], [0], fun _ => .pixel ⟨0, 0, 1, 2, 3⟩⟩
    ∀ (h' : HdrRegs) (rest : List Bytes), parseHeader Config.params (hl ++ [[]]) HdrRegs.armed = .ok (h', rest) →
      (readBody f rest).length = 1 ∧
      (∀ n, (((readBody f rest).take n).foldl Reassembler.feed Reassembler.start).ints.length
        ≤ Config.params.cbufSize) ∧
      (validMode h'.bpp.toNat = true → ∀ row ∈ (reassemble 100 (readBody f rest) Reassembler.start).1,
        (codecDecode row h'.bpp.toNat).length ≤ Config.params.obufSize) := by
  intro f h' rest e
  obtain ⟨rfl, rfl⟩ := Prod.mk.inj (Except.ok.inj (hp.symm.trans e))
  refine ⟨rfl, fun n => ?_, fun hv => ?_⟩
  · rcases n with _ | n
    · exact Nat.zero_le _
    · simpa [readBody, f, Reassembler.feed, Reassembler.start, PixelDecl.ints] using hc
  · have hm : h.bpp.toNat ∈ [1, 3, 6, 9, 12, 15, 18, 21, 24] := by
      simp only [validMode, decide_eq_true_eq] at hv
      simp only [List.mem_cons, List.not_mem_nil, or_false]
      omega
    have short : ∀ m ∈ [1, 3, 6, 9, 12, 15, 18, 21, 24], (codecDecode [1, 2, 3] m).length ≤ 3 := by
      decide +kernel
    intro row hr
    have : row = [1, 2, 3] := by
      simpa [readBody, f, reassemble, Reassembler.feed, Reassembler.start, Reassembler.finish, PixelDecl.ints] using hr
    rw [this]
    exact le_trans (short _ hm) ho

theorem test_witness_RoundTripOfContainers : let text := forwardConfig.headerText
    tp1.dimMatch text.dimLine = true ∧ tp1.openMatch text.openLine = true ∧
    tp1.verMatch text.versionLine = some (tp1.key forwardConfig.version) ∧
    (∀ f ∈ requiredFields forwardConfig.version, tp1.fieldMatch f (text.fieldLine f) = some (forwardConfig.fieldVal f)) ∧
    (forwardConfig.timestamp.length ≤ tp1.strMax ∧ forwardConfig.source.length ≤ tp1.strMax ∧
      forwardConfig.filter.length ≤ tp1.strMax ∧ (tp1Header.gateName forwardConfig.gate).length ≤ tp1.strMax) ∧
    tp1.closeMatch text.closeLine = true ∧ validMode forwardConfig.mode.toNat = true ∧
    (∀ d, forwardConfig.format.readLine (forwardConfig.format.declLine d) = .pixel d) ∧
    forwardConfig.format.readLine forwardConfig.format.terminatorLine = .terminator ∧ forwardConfig.layout = .fixed ∧
    ∀ c ∈ captures, c.payload ≠ [] ∧ c.payload.length < 2 ^ 32 ∧
      (codecEncode (transformPayload forwardConfig.gate forwardConfig.operand c.payload) forwardConfig.mode.toNat).length
        ≤ 2 := by
  refine ⟨by decide, by decide, by decide, ?_, by decide, by decide, by decide, unaryFormat_reads, by decide, rfl, ?_⟩
  · simp only [forwardConfig, requiredFields, List.forall_mem_cons, List.not_mem_nil, false_imp_iff, implies_true, and_true]
    exact ⟨by decide, by decide, by decide, by decide, by decide, by decide, by decide⟩
  · decide

end Sys2Proof.Tests
end

section
/-! What the remaining operations can do, said once: the encoder, decoder and header commands by their cases, and what
a stored field does to `HVALID`. -/

namespace Sys2Proof.Machine

/-! ## Faults and memory -/

theorem Cause.code_ne_zero (c : Cause) : c.code ≠ 0 := by
  cases c <;> decide

/-- A payload within its capacity can be counted by `PLEN` (R7, R27). -/
theorem wf_pbuf_lt {p : Params} {m : Memory} (h : m.wf p) : m.pbuf.length < 2 ^ 32 := by
  have hlen := wf_length_le h .pbuf
  have htop := p.pbufTop.isLt
  simp only [bytes_pbuf, spaceSize, Params.pbufSize] at hlen
  omega

/-! ## The encoder -/

/-- `ENC.START` by its mode: latched with the cursor rewound, or `FormatError` (R112). -/
theorem startEncode_cases (m : BitVec 24) (s : State) :
    (validMode m.toNat = true ∧
      startEncode m s = respond .ok 0 { s with emode := m.setWidth 8, cursor := Cursor.zero }) ∨
    (validMode m.toNat = false ∧ startEncode m s = raise .formatError (m.setWidth 32) s) := by
  cases hm : validMode m.toNat
  · exact .inr ⟨rfl, by simp [startEncode, hm]⟩
  · exact .inl ⟨rfl, by simp [startEncode, hm]⟩

/-- A valid mode fits in `EMODE` (R23, R110). -/
theorem toNat_setWidth_of_validMode {m : BitVec 24} (hm : validMode m.toNat = true) :
    (m.setWidth 8).toNat = m.toNat := by
  rw [validMode_iff] at hm
  rw [BitVec.toNat_setWidth]
  omega

/-- All that a command that needs a latched mode can do (R251). -/
theorem withMode_cases (f : Nat → State → State) (s : State) :
    (validMode s.emode.toNat = true ∧ withMode f s = f s.emode.toNat s) ∨
    (validMode s.emode.toNat = false ∧ withMode f s = raise .formatError (s.emode.setWidth 32) s) := by
  cases hm : validMode s.emode.toNat
  · exact .inr ⟨rfl, by simp [withMode, hm]⟩
  · exact .inl ⟨rfl, by simp [withMode, hm]⟩

theorem onePixel_eq (m : Nat) (s : State) :
    onePixel m s = if s.cursor.atEnd s.mem.pbuf.length then respond .empty 0 s
      else respond .ok ((nextPixel s.mem.pbuf m s.cursor).1.pack.setWidth 32)
        { s with cursor := (nextPixel s.mem.pbuf m s.cursor).2 } := rfl

/-- All that `ENC.PIX` can do at a valid mode (R118). -/
theorem onePixel_cases (m : Nat) (s : State) :
    (s.cursor.atEnd s.mem.pbuf.length = true ∧ onePixel m s = respond .empty 0 s) ∨
    (s.cursor.atEnd s.mem.pbuf.length = false ∧
      onePixel m s = respond .ok ((nextPixel s.mem.pbuf m s.cursor).1.pack.setWidth 32)
        { s with cursor := (nextPixel s.mem.pbuf m s.cursor).2 }) := by
  cases he : s.cursor.atEnd s.mem.pbuf.length
  · exact .inr ⟨rfl, by simp [onePixel_eq, he]⟩
  · exact .inl ⟨rfl, by simp [onePixel_eq, he]⟩

/-- The pixels and the cursor that `ENC.RUN` ends with (R119). -/
def runResult (size m : Nat) (s : State) : List Pixel × Cursor :=
  encodeRun s.mem.pbuf m (8 * s.mem.pbuf.length) (size - s.mem.pixq.length) s.cursor

theorem runEncode_eq (size m : Nat) (s : State) :
    runEncode size m s = respond .ok (BitVec.ofNat 32 (runResult size m s).1.length)
      { s with mem.pixq := s.mem.pixq ++ (runResult size m s).1, cursor := (runResult size m s).2 } := rfl

theorem encodeRun_length_le (buf : List Byte) (m turns room : Nat) (cur : Cursor) :
    (encodeRun buf m turns room cur).1.length ≤ room := by
  rw [encodeRun_pixels, List.length_take]
  exact Nat.min_le_left _ _

/-! ## The decoder -/

/-- All that a decode can do (R131). -/
theorem decodeAt_cases (size m : Nat) (s : State) :
    (validMode m = false ∧ decodeAt size m s = raise .formatError (BitVec.ofNat 32 m) s) ∨
    (validMode m = true ∧ size < s.mem.obuf.length + (codecDecode s.mem.cbuf m).length ∧
      decodeAt size m s = raise .capacityFault ByteSpace.obuf.bufferId s) ∨
    (validMode m = true ∧ s.mem.obuf.length + (codecDecode s.mem.cbuf m).length ≤ size ∧
      decodeAt size m s = respond .ok (BitVec.ofNat 32 (codecDecode s.mem.cbuf m).length)
        { s with mem.obuf := s.mem.obuf ++ codecDecode s.mem.cbuf m }) := by
  cases hm : validMode m
  · exact .inl ⟨rfl, by simp [decodeAt, hm]⟩
  · by_cases hs : size < s.mem.obuf.length + (codecDecode s.mem.cbuf m).length
    · exact .inr (.inl ⟨rfl, hs, by simp [decodeAt, hm, hs]⟩)
    · exact .inr (.inr ⟨rfl, by omega, by simp only [decodeAt, hm, if_true, if_neg hs]⟩)

/-- All that `DEC.RUNH` can do (R132). -/
theorem decodeAtHeader_cases (size : Nat) (s : State) :
    (bppKnown s = true ∧ decodeAtHeader size s = decodeAt size s.hdr.bpp.toNat s) ∨
    (bppKnown s = false ∧ decodeAtHeader size s = raise .formatError 0 s) := by
  cases hb : bppKnown s
  · exact .inr ⟨rfl, by simp [decodeAtHeader, hb]⟩
  · exact .inl ⟨rfl, by simp [decodeAtHeader, hb]⟩

/-! ## The header parser -/

/-- All that `HDR.EOS` can do (R163). -/
theorem endOfStream_cases (s : State) :
    (s.hdr.hstate = .done ∧ endOfStream s = respond .ok 0 s) ∨
    (s.hdr.hstate ≠ .done ∧
      endOfStream s = raise .noTerminatorError (s.hdr.hstate.code.setWidth 32) s) := by
  by_cases hd : s.hdr.hstate = .done
  · exact .inl ⟨hd, by simp [endOfStream, hd]⟩
  · exact .inr ⟨hd, by simp [endOfStream, hd]⟩

theorem versionFields_cases (v : Version) :
    (versionFields v).toNat = 2 ∨ (versionFields v).toNat = 5 ∨ (versionFields v).toNat = 7 := by
  cases v <;> decide

theorem versionFields_ne_zero (v : Version) : versionFields v ≠ 0 := by
  cases v <;> decide

/-- Two ids of one field are one id (R153). -/
theorem fieldOfId_inj {n n' : Nat} {f : FieldId} (e : fieldOfId n = some f) (e' : fieldOfId n' = some f) : n = n' := by
  cases f <;> exact (fieldOfId_eq_some e).trans (fieldOfId_eq_some e').symm

/-- `markStored` sets the bit `FIDX` of `HVALID` (R160). -/
theorem markStored_hvalid_eq (h : HdrRegs) :
    (markStored h).hvalid = h.hvalid ||| BitVec.twoPow 7 h.fidx.toNat := rfl

theorem markStored_hvalid_bit (h : HdrRegs) {i : Nat} (hi : i < 7) :
    (markStored h).hvalid.getLsbD i = (h.hvalid.getLsbD i || decide (i = h.fidx.toNat)) := by
  rw [markStored_hvalid_eq, BitVec.getLsbD_or, BitVec.getLsbD_twoPow]
  by_cases e : h.fidx.toNat = i
  · simp [e, hi]
  · simp [e, Ne.symm e]

/-- Setting bit `FIDX` turns `2^FIDX - 1` into `2^(FIDX + 1) - 1` (R160). -/
theorem markStored_hvalid_toNat {h : HdrRegs} (hv : h.hvalid.toNat = 2 ^ h.fidx.toNat - 1) (hlt : h.fidx.toNat < 7) :
    (markStored h).hvalid.toNat = 2 ^ (h.fidx.toNat + 1) - 1 := by
  have hpos := Nat.two_pow_pos h.fidx.toNat
  have hadd := Nat.two_pow_add_eq_or_of_lt (show 2 ^ h.fidx.toNat - 1 < 2 ^ h.fidx.toNat by omega) 1
  rw [mul_one] at hadd
  rw [markStored_hvalid_eq, BitVec.toNat_or, BitVec.toNat_twoPow_of_lt hlt, hv, Nat.or_comm, ← hadd]
  omega

end Sys2Proof.Machine
end

section
/-! Every step keeps the invariant of R34. The clauses on the cursor become two on its bit position; each
state update a command makes then touches one part of the invariant, and each command is one or two such updates. -/

namespace Sys2Proof.Machine

/-! ## The parts of the invariant -/

/-- What R34 says of the cursor, by its bit position: it is in the payload or exactly at its end, and on a byte boundary
in mode 24. -/
structure Cursor.Within (len m : Nat) (c : Cursor) : Prop where
  pos_le : c.pos ≤ 8 * len
  aligned : m = 24 → c.pos % 8 = 0

theorem Cursor.zero_within (len m : Nat) : Cursor.zero.Within len m := ⟨by simp, by simp⟩

theorem Cursor.bitIdx_eq_zero_iff (c : Cursor) : c.bitIdx = 0 ↔ c.pos % 8 = 0 := by
  rw [← c.bitIdx_eq_mod]
  exact BitVec.toNat_inj.symm

/-- The position is at most the payload's end exactly when the byte index is, and no bit past the end is counted. -/
theorem Cursor.pos_le_iff (c : Cursor) (len : Nat) :
    c.pos ≤ 8 * len ↔ c.byteIdx.toNat ≤ len ∧ (c.byteIdx.toNat = len → c.bitIdx = 0) := by
  rw [c.bitIdx_eq_zero_iff, c.byteIdx_eq_div]
  omega

/-- The invariant by its five independent parts: encoder position, memory, mode, fault registers, header. -/
theorem inv_iff {p : Params} {s : State} :
    Inv p s ↔ s.cursor.Within s.mem.pbuf.length s.emode.toNat ∧ s.mem.wf p ∧
      (s.emode = 0 ∨ validMode s.emode.toNat = true) ∧ (s.fault = true ↔ s.err ≠ 0) ∧ HdrInv p s.hdr := by
  have mode24 : s.emode.toNat = 24 ↔ s.emode = 24 := BitVec.toNat_inj (y := (24 : BitVec 8))
  constructor
  · intro h
    exact ⟨⟨(s.cursor.pos_le_iff _).2 ⟨h.cursor_le, h.cursor_aligned_at_end⟩,
      fun e => s.cursor.bitIdx_eq_zero_iff.1 (h.bytes_mode_aligned (mode24.1 e))⟩,
      h.mem_wf, h.emode_legal, h.fault_iff, h.hdr_inv⟩
  · rintro ⟨hc, hm, he, hf, hh⟩
    obtain ⟨hle, hal⟩ := (s.cursor.pos_le_iff _).1 hc.pos_le
    exact ⟨hle, hal, hm, he, fun e => s.cursor.bitIdx_eq_zero_iff.2 (hc.aligned (mode24.2 e)), hf, hh⟩

theorem Inv.within {p : Params} {s : State} (h : Inv p s) : s.cursor.Within s.mem.pbuf.length s.emode.toNat :=
  (inv_iff.1 h).1

theorem hdrInv_armed (p : Params) : HdrInv p HdrRegs.armed := by
  constructor <;> simp [HdrRegs.armed, HdrRegs.strings, HState.code]

section Updates

variable {p : Params} {s : State}

/-! ## The state updates -/

/-- The ports are no part of the invariant. -/
theorem withPort_inv (h : Inv p s) (port : List PortEvent) : Inv p { s with port := port } := { h with }

theorem respond_inv (h : Inv p s) (st : RespStatus) (data : Word) : Inv p (respond st data s) := { h with }

theorem latch_inv (h : Inv p s) {code : BitVec 4} (hc : code ≠ 0) (info : Word) : Inv p (latch code info s) :=
  { h with fault_iff := iff_of_true rfl hc }

theorem raise_inv (h : Inv p s) (c : Cause) (info : Word) : Inv p (raise c info s) :=
  latch_inv h c.code_ne_zero info

theorem withMem_inv (h : Inv p s) {m : Memory} (hm : m.wf p) (hc : s.cursor.pos ≤ 8 * m.pbuf.length) :
    Inv p { s with mem := m } :=
  inv_iff.2 ⟨⟨hc, h.within.aligned⟩, hm, h.emode_legal, h.fault_iff, h.hdr_inv⟩

theorem withEncoder_inv (h : Inv p s) {e : BitVec 8} {c : Cursor} (he : e = 0 ∨ validMode e.toNat = true)
    (hc : c.Within s.mem.pbuf.length e.toNat) : Inv p { s with emode := e, cursor := c } :=
  inv_iff.2 ⟨hc, h.mem_wf, he, h.fault_iff, h.hdr_inv⟩

theorem withCursor_inv (h : Inv p s) {c : Cursor} (hc : c.Within s.mem.pbuf.length s.emode.toNat) :
    Inv p { s with cursor := c } :=
  withEncoder_inv h h.emode_legal hc

theorem withHdr_inv (h : Inv p s) {r : HdrRegs} (hr : HdrInv p r) : Inv p { s with hdr := r } :=
  { h with hdr_inv := hr }

/-- The base case: the reset values have the invariant (R281). -/
theorem reset_inv (p : Params) : Inv p State.reset :=
  inv_iff.2 ⟨Cursor.zero_within _ _, reset_mem_wf p, .inl rfl, by simp [State.reset], hdrInv_armed p⟩

theorem resetBlock_inv (p : Params) (s : State) : Inv p (resetBlock s) := { reset_inv p with }

theorem hardReset_inv (p : Params) (s : State) : Inv p (hardReset s) := { reset_inv p with }

theorem whenHealthy_inv {f : State → State} (h : Inv p s) (hf : Inv p (f s)) : Inv p (whenHealthy f s) := by
  rcases whenHealthy_cases f s with ⟨-, e⟩ | ⟨-, e⟩ <;> rw [e]
  · exact respond_inv h _ _
  · exact hf

/-! ## System commands and buffers -/

theorem respondWith_inv (h : Inv p s) (found : Option Word) : Inv p (respondWith found s) := by
  cases found <;> exact respond_inv h _ _

theorem abortWith_inv (h : Inv p s) (c : BitVec 4) : Inv p (abortWith c s) := by
  by_cases hc : c = 0
  · simpa only [abortWith, if_pos hc] using raise_inv h _ _
  · simpa only [abortWith, if_neg hc] using latch_inv h hc 0

/-- A space may be rewritten within its capacity as long as the payload does not shrink. -/
theorem withBytes_inv (h : Inv p s) (sp : ByteSpace) {l : List Byte} (hl : l.length ≤ spaceSize p sp)
    (hp : sp = .pbuf → s.mem.pbuf.length ≤ l.length) : Inv p { s with mem := s.mem.setBytes l sp } := by
  have hc := h.within.pos_le
  refine withMem_inv h (setBytes_wf h.mem_wf sp hl) ?_
  cases sp
  · have := hp rfl
    simp only [setBytes_pbuf_pbuf]
    omega
  all_goals exact hc

theorem pushByte_inv (h : Inv p s) (sp : ByteSpace) (b : Byte) : Inv p (pushByte sp (spaceSize p sp) b s) := by
  rcases pushByte_cases sp (spaceSize p sp) b s with ⟨-, e⟩ | ⟨room, e⟩ <;> rw [e]
  · exact raise_inv h _ _
  · have hle := wf_length_le h.mem_wf sp
    refine respond_inv (withBytes_inv h sp ?_ ?_) _ _
    · rw [List.length_append, List.length_singleton]
      omega
    · rintro rfl
      simp

theorem clearBytes_inv (h : Inv p s) {sp : ByteSpace} (hsp : sp ≠ .pbuf) : Inv p (clearBytes sp s) :=
  respond_inv (withBytes_inv h sp (Nat.zero_le _) fun e => absurd e hsp) _ _

/-- Emptying the payload is safe because the cursor is rewound with it (R180). -/
theorem clearPayload_inv (h : Inv p s) : Inv p (clearPayload s) :=
  respond_inv (withMem_inv (withCursor_inv h (Cursor.zero_within _ _)) (clear_wf h.mem_wf .pbuf) (Nat.zero_le _)) _ _

theorem popPixel_inv (h : Inv p s) : Inv p (popPixel s) := by
  have hm := popPixel_wf h.mem_wf
  rcases popPixel_cases s with ⟨-, e⟩ | ⟨px, rest, -, e⟩ <;> rw [e] at hm ⊢
  · exact respond_inv h _ _
  · exact respond_inv (withMem_inv h hm h.within.pos_le) _ _

theorem popOutput_inv (h : Inv p s) : Inv p (popOutput s) := by
  have hm := popOutput_wf h.mem_wf
  rcases popOutput_cases s with ⟨-, e⟩ | ⟨v, rest, -, e⟩ <;> rw [e] at hm ⊢
  · exact respond_inv h _ _
  · exact respond_inv (withMem_inv h hm h.within.pos_le) _ _

/-! ## The encoder -/

theorem startEncode_inv (h : Inv p s) (m : BitVec 24) : Inv p (startEncode m s) := by
  rcases startEncode_cases m s with ⟨hm, e⟩ | ⟨-, e⟩ <;> rw [e]
  · refine respond_inv (withEncoder_inv h (.inr ?_) (Cursor.zero_within _ _)) _ _
    rwa [toNat_setWidth_of_validMode hm]
  · exact raise_inv h _ _

theorem withMode_inv {f : Nat → State → State} (h : Inv p s)
    (hf : validMode s.emode.toNat = true → Inv p (f s.emode.toNat s)) : Inv p (withMode f s) := by
  rcases withMode_cases f s with ⟨hm, e⟩ | ⟨-, e⟩ <;> rw [e]
  · exact hf hm
  · exact raise_inv h _ _

/-- A pixel step keeps the cursor within the payload: it moves by the mode or stops exactly at the end (R113). -/
theorem nextPixel_within {buf : List Byte} (hlen : buf.length < 2 ^ 32) {m : Nat} (hm : validMode m = true)
    {cur : Cursor} (hcur : cur.Within buf.length m) (he : cur.atEnd buf.length = false) :
    (nextPixel buf m cur).2.Within buf.length m := by
  have hpos := nextPixel_pos hlen hm ((cur.not_atEnd_iff _).1 he) hcur.aligned
  have hal := hcur.aligned
  constructor <;> rw [hpos] <;> omega

theorem encodeRun_within {buf : List Byte} (hlen : buf.length < 2 ^ 32) {m : Nat} (hm : validMode m = true)
    (turns room : Nat) {cur : Cursor} (hcur : cur.Within buf.length m) :
    (encodeRun buf m turns room cur).2.Within buf.length m := by
  induction turns generalizing room cur with
  | zero => exact hcur
  | succ turns ih =>
    by_cases hgo : cur.atEnd buf.length = false ∧ 0 < room
    · simp only [encodeRun, if_pos hgo]
      exact ih (room - 1) (nextPixel_within hlen hm hcur hgo.1)
    · simpa only [encodeRun, if_neg hgo] using hcur

theorem onePixel_inv (h : Inv p s) (hm : validMode s.emode.toNat = true) : Inv p (onePixel s.emode.toNat s) := by
  rcases onePixel_cases s.emode.toNat s with ⟨-, e⟩ | ⟨he, e⟩ <;> rw [e]
  · exact respond_inv h _ _
  · exact respond_inv (withCursor_inv h (nextPixel_within (wf_pbuf_lt h.mem_wf) hm h.within he)) _ _

theorem runEncode_inv (h : Inv p s) (hm : validMode s.emode.toNat = true) :
    Inv p (runEncode p.pixqSize s.emode.toNat s) := by
  have hcur : (runResult p.pixqSize s.emode.toNat s).2.Within s.mem.pbuf.length s.emode.toNat :=
    encodeRun_within (wf_pbuf_lt h.mem_wf) hm _ _ h.within
  have hroom : (runResult p.pixqSize s.emode.toNat s).1.length ≤ p.pixqSize - s.mem.pixq.length :=
    encodeRun_length_le _ _ _ _ _
  obtain ⟨hpbuf, hpixq, hrest⟩ := h.mem_wf
  have hmem : Memory.wf p { s.mem with pixq := s.mem.pixq ++ (runResult p.pixqSize s.emode.toNat s).1 } := by
    refine ⟨hpbuf, ?_, hrest⟩
    rw [List.length_append]
    omega
  rw [runEncode_eq]
  exact respond_inv (withMem_inv (withCursor_inv h hcur) hmem hcur.pos_le) _ _

/-! ## The decoder -/

theorem decodeAt_inv (h : Inv p s) (m : Nat) : Inv p (decodeAt p.obufSize m s) := by
  rcases decodeAt_cases p.obufSize m s with ⟨-, e⟩ | ⟨-, -, e⟩ | ⟨-, hroom, e⟩ <;> rw [e]
  · exact raise_inv h _ _
  · exact raise_inv h _ _
  · refine respond_inv (withBytes_inv h .obuf ?_ (by simp)) _ _
    rwa [List.length_append]

theorem decodeAtHeader_inv (h : Inv p s) : Inv p (decodeAtHeader p.obufSize s) := by
  rcases decodeAtHeader_cases p.obufSize s with ⟨-, e⟩ | ⟨-, e⟩ <;> rw [e]
  · exact decodeAt_inv h _
  · exact raise_inv h _ _

end Updates

/-! ## The header parser -/

section Header

variable {p : Params} {h : HdrRegs}

/-- Before a version is resolved no field is stored and `HVALID` is 0 (R34). -/
theorem HdrInv.unresolved (hi : HdrInv p h) (hs : h.hstate.code.toNat ≤ 2) :
    h.fcnt = 0 ∧ h.fidx = 0 ∧ h.hvalid = 0 := by
  have hfcnt := hi.fcnt_zero.2 hs
  have hfidx : h.fidx = 0 := by
    have := hi.fidx_le
    rw [hfcnt] at this
    exact BitVec.eq_of_toNat_eq (Nat.le_zero.1 this)
  refine ⟨hfcnt, hfidx, BitVec.eq_of_toNat_eq ?_⟩
  rw [hi.hvalid_eq, hfidx]
  rfl

/-- Moving between the three scanning states before the version (R157, R158). -/
theorem HdrInv.withScanState (hi : HdrInv p h) (hs : h.hstate.code.toNat ≤ 2) {st : HState}
    (hst : st.code.toNat ≤ 2) : HdrInv p { h with hstate := st } :=
  { hi with
    fcnt_zero := iff_of_true (hi.unresolved hs).1 hst
    done_full := by rintro rfl; exact absurd hst (by decide)
    version_resolved := fun h3 => absurd hst (Nat.not_le.2 h3)
    version_unresolved := fun _ => hi.version_unresolved hs }

theorem scanFields_resolved : ¬ HState.scanFields.code.toNat ≤ 2 := by decide

theorem done_resolved : ¬ HState.done.code.toNat ≤ 2 := by decide

/-- Resolving a version (R159). -/
theorem HdrInv.withVersion (hi : HdrInv p h) (hs : h.hstate.code.toNat ≤ 2) (v : Version) :
    HdrInv p { h with formatVersion := p.key v, veridx := versionIndex v, fcnt := versionFields v, fidx := 0,
                      hstate := .scanFields } := by
  have hvalid := (hi.unresolved hs).2.2
  have hfits := hi.strings_fit
  exact
  { hi with
    strings_fit := by
      simp only [HdrRegs.strings, List.forall_mem_cons] at hfits ⊢
      obtain ⟨ht, hso, hf, hg, -, hnil⟩ := hfits
      exact ⟨ht, hso, hf, hg, p.key_length_le v, hnil⟩
    fidx_le := Nat.zero_le _
    fcnt_legal := .inr (versionFields_cases v)
    fcnt_zero := iff_of_false (versionFields_ne_zero v) scanFields_resolved
    hvalid_eq := by rw [hvalid]; rfl
    done_full := by simp
    version_resolved := fun _ => ⟨v, rfl, rfl, rfl⟩
    version_unresolved := fun hle => absurd hle scanFields_resolved }

/-- Closing the comment with every required field stored (R161, R166). -/
theorem HdrInv.withDone (hi : HdrInv p h) (hs : h.hstate = .scanFields) (hf : ¬ h.fidx < h.fcnt) :
    HdrInv p { h with hstate := .done } := by
  have hge : h.fcnt.toNat ≤ h.fidx.toNat := BitVec.not_lt.1 hf
  have hresolved := hi.version_resolved (by rw [hs]; decide)
  have hzero := hi.fcnt_zero
  rw [hs] at hzero
  exact
  { hi with
    fcnt_zero := hzero.trans (iff_of_false scanFields_resolved done_resolved)
    done_full := fun _ => BitVec.eq_of_toNat_eq (le_antisymm hi.fidx_le hge)
    version_resolved := fun _ => hresolved
    version_unresolved := fun hle => absurd hle done_resolved }

/-- A store keeps every string within `STR_MAX` (R164). -/
theorem storeField_strings_fit {strMax : Nat} {f : FieldId} {v : f.Val} {stored : HdrRegs}
    (e : storeField strMax f v h = some stored) (hi : ∀ str ∈ h.strings, str.length ≤ strMax) :
    ∀ str ∈ stored.strings, str.length ≤ strMax := by
  obtain ⟨ht, hso, hf, hg⟩ := storeField_fits e
  obtain ⟨-, -, -, -, -, hv⟩ := storeField_keeps e
  simp only [HdrRegs.strings, List.forall_mem_cons] at hi ⊢
  obtain ⟨it, iso, if', ig, iv, inil⟩ := hi
  exact ⟨ht.elim (fun q => q ▸ it) id, hso.elim (fun q => q ▸ iso) id, hf.elim (fun q => q ▸ if') id,
    hg.elim (fun q => q ▸ ig) id, hv ▸ iv, inil⟩

/-- A bit of `HVALID` that is 0 after a store was 0 before and belongs to a field not stored, so what the store kept of
that field's destination still has its unset value (R29). -/
theorem unset_of_markStored {strMax : Nat} {f g : FieldId} {v : f.Val} {stored : HdrRegs}
    (hid : fieldOfId h.fidx.toNat = some f) (hst : storeField strMax f v h = some stored) {i : Nat}
    (hg : fieldOfId i = some g) (hi7 : i < 7) {α : Type} {x y z : α} (kept : f ≠ g → x = y)
    (unset : h.hvalid.getLsbD i = false → y = z) (hb : (markStored stored).hvalid.getLsbD i = false) : x = z := by
  obtain ⟨-, kfidx, -, -, khv, -⟩ := storeField_keeps hst
  rw [markStored_hvalid_bit _ hi7, Bool.or_eq_false_iff, decide_eq_false_iff_not, khv, kfidx] at hb
  obtain ⟨hbit, hne⟩ := hb
  have hfg : f ≠ g := fun e => hne (fieldOfId_inj hg (e ▸ hid))
  exact (kept hfg).trans (unset hbit)

/-- Storing the awaited field (R160, R164). -/
theorem HdrInv.withField (hi : HdrInv p h) (hs : h.hstate = .scanFields) {f : FieldId} {v : f.Val} {stored : HdrRegs}
    (he : expectedField h = some f) (hst : storeField p.strMax f v h = some stored) : HdrInv p (markStored stored) := by
  obtain ⟨hlt, hid⟩ := expectedField_eq_some.1 he
  obtain ⟨khs, kfidx, kfcnt, kver, khv, kfv⟩ := storeField_keeps hst
  obtain ⟨oscale, obpp, otime, osource, ofilter, ogate, oop⟩ := storeField_others hst
  have hlt : h.fidx.toNat < h.fcnt.toNat := hlt
  have h7 : h.fidx.toNat < 7 := by
    have := h.fcnt.isLt
    omega
  have hnext : (markStored stored).fidx.toNat = h.fidx.toNat + 1 := by
    rw [markStored_fidx, kfidx, BitVec.toNat_add]
    simp
    omega
  have hzero := hi.fcnt_zero
  have hresolved := hi.version_resolved
  constructor
  case strings_fit => exact (storeField_strings_fit hst hi.strings_fit : ∀ str ∈ stored.strings, _)
  case fidx_le => rw [hnext, markStored_fcnt, kfcnt]; exact hlt
  case fcnt_legal => rw [markStored_fcnt, kfcnt]; exact hi.fcnt_legal
  case fcnt_zero => rwa [markStored_fcnt, markStored_hstate, kfcnt, khs]
  case hvalid_eq =>
    rw [hnext, ← kfidx]
    exact markStored_hvalid_toNat (by rw [khv, kfidx]; exact hi.hvalid_eq) (by rwa [kfidx])
  case done_full =>
    intro hd
    rw [markStored_hstate, khs, hs] at hd
    cases hd
  case version_resolved =>
    rwa [markStored_hstate, markStored_veridx, markStored_fcnt, markStored_formatVersion, khs, kver, kfcnt, kfv]
  case version_unresolved =>
    intro hle
    rw [markStored_hstate, khs, hs] at hle
    exact absurd hle scanFields_resolved
  case scale_unset => exact unset_of_markStored hid hst (g := .scale) rfl (by decide) oscale hi.scale_unset
  case bpp_unset => exact unset_of_markStored hid hst (g := .bitsPerPixel) rfl (by decide) obpp hi.bpp_unset
  case timestamp_unset => exact unset_of_markStored hid hst (g := .timestamp) rfl (by decide) otime hi.timestamp_unset
  case source_unset => exact unset_of_markStored hid hst (g := .source) rfl (by decide) osource hi.source_unset
  case filter_unset => exact unset_of_markStored hid hst (g := .filter) rfl (by decide) ofilter hi.filter_unset
  case gateName_unset => exact unset_of_markStored hid hst (g := .logicGateName) rfl (by decide) ogate hi.gateName_unset
  case operand_unset => exact unset_of_markStored hid hst (g := .logicOperand) rfl (by decide) oop hi.operand_unset

theorem scanVersion_hdrInv (hi : HdrInv p h) (hs : h.hstate = .scanVersion) {line : Bytes} {hit : Bool}
    {h' : HdrRegs} (e : scanVersion p line h = .stepped hit h') : HdrInv p h' := by
  rcases scanVersion_cases p line h with ⟨-, e'⟩ | ⟨v, -, -, e'⟩ | ⟨ver, -, e'⟩ <;> rw [e'] at e <;> cases e
  · exact hi
  · exact hi.withVersion (by rw [hs]; decide) ver

theorem scanClose_hdrInv (hi : HdrInv p h) (hs : h.hstate = .scanFields) {line : Bytes} {hit : Bool}
    {h' : HdrRegs} (e : scanClose p line h = .stepped hit h') : HdrInv p h' := by
  rcases scanClose_cases p line h with ⟨-, e'⟩ | ⟨-, -, e'⟩ | ⟨-, hf, e'⟩ <;> rw [e'] at e <;> cases e
  · exact hi
  · exact hi.withDone hs hf

theorem scanFields_hdrInv (hi : HdrInv p h) (hs : h.hstate = .scanFields) {line : Bytes} {hit : Bool}
    {h' : HdrRegs} (e : scanFields p line h = .stepped hit h') : HdrInv p h' := by
  rcases scanFields_cases p line h with ⟨f, v, stored, he, -, hst, e'⟩ | ⟨f, v, -, -, -, e'⟩ | ⟨-, e'⟩ <;>
    rw [e'] at e
  · cases e
    exact hi.withField hs he hst
  · cases e
  · exact scanClose_hdrInv hi hs e

/-- A line that is not refused keeps the header's invariant, whatever state it meets (R156). -/
theorem parseLine_hdrInv (hi : HdrInv p h) {line : Bytes} {hit : Bool} {h' : HdrRegs}
    (e : parseLine p line h = .stepped hit h') : HdrInv p h' := by
  cases hs : h.hstate with
  | scanDimensions =>
    rw [parseLine_scanDimensions hs] at e
    split_ifs at e <;> cases e
    · exact hi.withScanState (by rw [hs]; decide) (by decide)
    · exact hi
  | scanCommentOpen =>
    rw [parseLine_scanCommentOpen hs] at e
    split_ifs at e <;> cases e
    · exact hi.withScanState (by rw [hs]; decide) (by decide)
    · exact hi
  | scanVersion => exact scanVersion_hdrInv hi hs (parseLine_scanVersion hs p line ▸ e)
  | scanFields => exact scanFields_hdrInv hi hs (parseLine_scanFields hs p line ▸ e)
  | done =>
    rw [parseLine_done hs] at e
    cases e
    exact hi

end Header

/-! ## Header commands -/

section Commands

variable {p : Params} {s : State}

theorem startHeader_inv (h : Inv p s) : Inv p (startHeader s) :=
  respond_inv (withHdr_inv h (hdrInv_armed p)) _ _

theorem presentLine_inv (h : Inv p s) : Inv p (presentLine p s) := by
  rcases presentLine_cases p s with ⟨c, info, -, e⟩ | ⟨hit, r, hp, e⟩ <;> rw [e]
  · exact raise_inv h _ _
  · have hline := withBytes_inv h .lbuf (l := []) (Nat.zero_le _) (by simp)
    exact respond_inv (withHdr_inv hline (parseLine_hdrInv h.hdr_inv hp)) _ _

theorem endOfStream_inv (h : Inv p s) : Inv p (endOfStream s) := by
  rcases endOfStream_cases s with ⟨-, e⟩ | ⟨-, e⟩ <;> rw [e]
  · exact respond_inv h _ _
  · exact raise_inv h _ _

end Commands

/-! ## Every command and every step -/

theorem exec_inv {s t : State} (h : Inv Config.params s) (i : Instr) (e : exec i s = .next t) :
    Inv Config.params t := by
  cases i <;> cases e
  case srst => exact respond_inv (resetBlock_inv _ s) _ _
  case abort c => exact whenHealthy_inv h (abortWith_inv h c)
  case rd => exact respondWith_inv h _
  case rdStr => exact respondWith_inv h _
  case pbClr => exact whenHealthy_inv h (clearPayload_inv h)
  case pbPush b => exact whenHealthy_inv h (pushByte_inv h .pbuf b)
  case cbClr => exact whenHealthy_inv h (clearBytes_inv h (by decide))
  case cbPush v => exact whenHealthy_inv h (pushByte_inv h .cbuf v)
  case lbClr => exact whenHealthy_inv h (clearBytes_inv h (by decide))
  case lbPush b => exact whenHealthy_inv h (pushByte_inv h .lbuf b)
  case pqPop => exact popPixel_inv h
  case obPop => exact popOutput_inv h
  case encStart m => exact whenHealthy_inv h (startEncode_inv h m)
  case encPix => exact whenHealthy_inv h (withMode_inv h (onePixel_inv h))
  case encRun => exact whenHealthy_inv h (withMode_inv h (runEncode_inv h))
  case decRun m => exact whenHealthy_inv h (decodeAt_inv h _)
  case decRunh => exact whenHealthy_inv h (decodeAtHeader_inv h)
  case hdrStart => exact whenHealthy_inv h (startHeader_inv h)
  case hdrLine => exact whenHealthy_inv h (presentLine_inv h)
  case hdrEos => exact whenHealthy_inv h (endOfStream_inv h)

theorem step_inv {s t : State} (h : Inv Config.params s) (e : step s = .next t) : Inv Config.params t := by
  rcases step_cases s with ⟨-, e'⟩ | ⟨rest, -, e'⟩ | ⟨w, rest, i, -, -, e'⟩ | ⟨w, rest, why, -, -, e'⟩ <;>
    rw [e'] at e
  · cases e
    exact h
  · cases e
    exact hardReset_inv _ _
  · exact exec_inv (withPort_inv h rest) i e
  · cases e
    exact whenHealthy_inv (withPort_inv h rest) (raise_inv (withPort_inv h rest) _ _)

end Sys2Proof.Machine

open Sys2Proof Sys2Proof.Machine

/-- Settles O15: the invariant at reset, at the block's own parameters. -/
theorem invariantHoldsAtReset : Obligations.InvariantHoldsAtReset :=
  reset_inv Config.params

/-- Settles O16: by the event the step takes, and for a command by `exec_inv`, one update of the state at a time. -/
theorem everyStepKeepsTheInvariant : Obligations.EveryStepKeepsTheInvariant :=
  fun _ _ => step_inv

end

section
/-! The units do not interfere (R20, R287): a command changes its own unit and the shared fault registers only, and what
it does there depends on these alone. -/

namespace Sys2Proof.Machine

/-- The unit a byte space belongs to (R20). -/
def ByteSpace.unit : ByteSpace → BlockUnit
  | .pbuf => .enc
  | .cbuf | .obuf => .dec
  | .lbuf => .hdr

section Frame

variable {u : BlockUnit} {s t : State}

/-! ## The other units are left alone -/

theorem agreeOn_refl (u : BlockUnit) (s : State) : AgreeOn u s s := by
  cases u
  · exact ⟨rfl, rfl, rfl, rfl⟩
  · exact ⟨rfl, rfl⟩
  · exact ⟨rfl, rfl⟩

theorem agreeOn_respond (h : AgreeOn u s t) (st : RespStatus) (data : Word) : AgreeOn u s (respond st data t) := by
  cases u <;> exact h

theorem agreeOn_latch (u : BlockUnit) (s : State) (code : BitVec 4) (info : Word) :
    AgreeOn u s (latch code info s) := by
  have h := agreeOn_refl u s
  cases u <;> exact h

theorem agreeOn_raise (u : BlockUnit) (s : State) (c : Cause) (info : Word) : AgreeOn u s (raise c info s) :=
  agreeOn_latch u s c.code info

theorem agreeOn_whenHealthy {f : State → State} (h : AgreeOn u s (f s)) : AgreeOn u s (whenHealthy f s) := by
  rcases whenHealthy_cases f s with ⟨-, e⟩ | ⟨-, e⟩ <;> rw [e]
  · exact agreeOn_respond (agreeOn_refl u s) _ _
  · exact h

theorem agreeOn_withEnc (hu : u ≠ .enc) (s : State) (c : Cursor) (e : BitVec 8) (pbuf : List Byte) (pixq : List Pixel) :
    AgreeOn u s { s with cursor := c, emode := e, mem := { s.mem with pbuf := pbuf, pixq := pixq } } := by
  cases u
  · exact absurd rfl hu
  · exact ⟨rfl, rfl⟩
  · exact ⟨rfl, rfl⟩

theorem agreeOn_withDec (hu : u ≠ .dec) (s : State) (cbuf obuf : List Byte) :
    AgreeOn u s { s with mem := { s.mem with cbuf := cbuf, obuf := obuf } } := by
  cases u
  · exact ⟨rfl, rfl, rfl, rfl⟩
  · exact absurd rfl hu
  · exact ⟨rfl, rfl⟩

theorem agreeOn_withHdr (hu : u ≠ .hdr) (s : State) (lbuf : List Byte) (h : HdrRegs) :
    AgreeOn u s { s with hdr := h, mem := { s.mem with lbuf := lbuf } } := by
  cases u
  · exact ⟨rfl, rfl, rfl, rfl⟩
  · exact ⟨rfl, rfl⟩
  · exact absurd rfl hu

theorem agreeOn_setBytes {sp : ByteSpace} (hu : u ≠ sp.unit) (s : State) (l : List Byte) :
    AgreeOn u s { s with mem := s.mem.setBytes l sp } := by
  cases sp
  · exact agreeOn_withEnc hu s _ _ l _
  · exact agreeOn_withDec hu s l _
  · exact agreeOn_withDec hu s _ l
  · exact agreeOn_withHdr hu s l _

theorem agreeOn_abortWith (u : BlockUnit) (s : State) (c : BitVec 4) : AgreeOn u s (abortWith c s) := by
  unfold abortWith
  split_ifs
  · exact agreeOn_raise u s _ _
  · exact agreeOn_latch u s c 0

theorem agreeOn_respondWith (u : BlockUnit) (s : State) (found : Option Word) : AgreeOn u s (respondWith found s) := by
  cases found <;> exact agreeOn_respond (agreeOn_refl u s) _ _

theorem agreeOn_pushByte {sp : ByteSpace} (hu : u ≠ sp.unit) (s : State) (size : Nat) (b : Byte) :
    AgreeOn u s (pushByte sp size b s) := by
  rcases pushByte_cases sp size b s with ⟨-, e⟩ | ⟨-, e⟩ <;> rw [e]
  · exact agreeOn_raise u s _ _
  · exact agreeOn_respond (agreeOn_setBytes hu s _) _ _

theorem agreeOn_clearBytes {sp : ByteSpace} (hu : u ≠ sp.unit) (s : State) : AgreeOn u s (clearBytes sp s) :=
  agreeOn_respond (agreeOn_setBytes hu s []) _ _

theorem agreeOn_clearPayload (hu : u ≠ .enc) (s : State) : AgreeOn u s (clearPayload s) :=
  agreeOn_respond (agreeOn_withEnc hu s Cursor.zero _ [] _) _ _

theorem agreeOn_popPixel (hu : u ≠ .enc) (s : State) : AgreeOn u s (popPixel s) := by
  rcases popPixel_cases s with ⟨-, e⟩ | ⟨px, rest, -, e⟩ <;> rw [e]
  · exact agreeOn_respond (agreeOn_refl u s) _ _
  · exact agreeOn_respond (agreeOn_withEnc hu s _ _ _ rest) _ _

theorem agreeOn_popOutput (hu : u ≠ .dec) (s : State) : AgreeOn u s (popOutput s) := by
  rcases popOutput_cases s with ⟨-, e⟩ | ⟨v, rest, -, e⟩ <;> rw [e]
  · exact agreeOn_respond (agreeOn_refl u s) _ _
  · exact agreeOn_respond (agreeOn_withDec hu s _ rest) _ _

theorem agreeOn_startEncode (hu : u ≠ .enc) (s : State) (m : BitVec 24) : AgreeOn u s (startEncode m s) := by
  rcases startEncode_cases m s with ⟨-, e⟩ | ⟨-, e⟩ <;> rw [e]
  · exact agreeOn_respond (agreeOn_withEnc hu s Cursor.zero _ _ _) _ _
  · exact agreeOn_raise u s _ _

theorem agreeOn_withMode {f : Nat → State → State} (h : ∀ m, AgreeOn u s (f m s)) : AgreeOn u s (withMode f s) := by
  rcases withMode_cases f s with ⟨-, e⟩ | ⟨-, e⟩ <;> rw [e]
  · exact h _
  · exact agreeOn_raise u s _ _

theorem agreeOn_onePixel (hu : u ≠ .enc) (s : State) (m : Nat) : AgreeOn u s (onePixel m s) := by
  rcases onePixel_cases m s with ⟨-, e⟩ | ⟨-, e⟩ <;> rw [e]
  · exact agreeOn_respond (agreeOn_refl u s) _ _
  · exact agreeOn_respond (agreeOn_withEnc hu s _ _ _ _) _ _

theorem agreeOn_runEncode (hu : u ≠ .enc) (s : State) (size m : Nat) : AgreeOn u s (runEncode size m s) := by
  rw [runEncode_eq]
  exact agreeOn_respond (agreeOn_withEnc hu s _ _ _ _) _ _

theorem agreeOn_decodeAt (hu : u ≠ .dec) (s : State) (size m : Nat) : AgreeOn u s (decodeAt size m s) := by
  rcases decodeAt_cases size m s with ⟨-, e⟩ | ⟨-, -, e⟩ | ⟨-, -, e⟩ <;> rw [e]
  · exact agreeOn_raise u s _ _
  · exact agreeOn_raise u s _ _
  · exact agreeOn_respond (agreeOn_withDec hu s _ _) _ _

theorem agreeOn_decodeAtHeader (hu : u ≠ .dec) (s : State) (size : Nat) : AgreeOn u s (decodeAtHeader size s) := by
  rcases decodeAtHeader_cases size s with ⟨-, e⟩ | ⟨-, e⟩ <;> rw [e]
  · exact agreeOn_decodeAt hu s size _
  · exact agreeOn_raise u s _ _

theorem agreeOn_startHeader (hu : u ≠ .hdr) (s : State) : AgreeOn u s (startHeader s) :=
  agreeOn_respond (agreeOn_withHdr hu s _ _) _ _

theorem agreeOn_presentLine (hu : u ≠ .hdr) (p : Params) (s : State) : AgreeOn u s (presentLine p s) := by
  rcases presentLine_cases p s with ⟨c, info, -, e⟩ | ⟨hit, h, -, e⟩ <;> rw [e]
  · exact agreeOn_raise u s _ _
  · exact agreeOn_respond (agreeOn_withHdr hu s [] h) _ _

theorem agreeOn_endOfStream (u : BlockUnit) (s : State) : AgreeOn u s (endOfStream s) := by
  rcases endOfStream_cases s with ⟨-, e⟩ | ⟨-, e⟩ <;> rw [e]
  · exact agreeOn_respond (agreeOn_refl u s) _ _
  · exact agreeOn_raise u s _ _

theorem ne_of_some_ne {v : BlockUnit} (h : some v ≠ some u) : u ≠ v :=
  fun e => h (congrArg some e.symm)

/-- A command other than `SRST` leaves alone every unit but its own (R287). -/
theorem exec_agreeOn_other {i : Instr} (hi : i ≠ .srst) (hu : unitOf i ≠ some u) (e : exec i s = .next t) :
    AgreeOn u s t := by
  cases i <;> cases e
  case srst => exact absurd rfl hi
  case abort c => exact agreeOn_whenHealthy (agreeOn_abortWith u s c)
  case rd => exact agreeOn_respondWith u s _
  case rdStr => exact agreeOn_respondWith u s _
  case pbClr => exact agreeOn_whenHealthy (agreeOn_clearPayload (ne_of_some_ne hu) s)
  case pbPush b => exact agreeOn_whenHealthy (agreeOn_pushByte (sp := .pbuf) (ne_of_some_ne hu) s _ b)
  case cbClr => exact agreeOn_whenHealthy (agreeOn_clearBytes (sp := .cbuf) (ne_of_some_ne hu) s)
  case cbPush v => exact agreeOn_whenHealthy (agreeOn_pushByte (sp := .cbuf) (ne_of_some_ne hu) s _ v)
  case lbClr => exact agreeOn_whenHealthy (agreeOn_clearBytes (sp := .lbuf) (ne_of_some_ne hu) s)
  case lbPush b => exact agreeOn_whenHealthy (agreeOn_pushByte (sp := .lbuf) (ne_of_some_ne hu) s _ b)
  case pqPop => exact agreeOn_popPixel (ne_of_some_ne hu) s
  case obPop => exact agreeOn_popOutput (ne_of_some_ne hu) s
  case encStart m => exact agreeOn_whenHealthy (agreeOn_startEncode (ne_of_some_ne hu) s m)
  case encPix => exact agreeOn_whenHealthy (agreeOn_withMode (agreeOn_onePixel (ne_of_some_ne hu) s))
  case encRun => exact agreeOn_whenHealthy (agreeOn_withMode (agreeOn_runEncode (ne_of_some_ne hu) s _))
  case decRun m => exact agreeOn_whenHealthy (agreeOn_decodeAt (ne_of_some_ne hu) s _ _)
  case decRunh => exact agreeOn_whenHealthy (agreeOn_decodeAtHeader (ne_of_some_ne hu) s _)
  case hdrStart => exact agreeOn_whenHealthy (agreeOn_startHeader (ne_of_some_ne hu) s)
  case hdrLine => exact agreeOn_whenHealthy (agreeOn_presentLine (ne_of_some_ne hu) _ s)
  case hdrEos => exact agreeOn_whenHealthy (agreeOn_endOfStream u s)

end Frame

/-! ## A command reads its own unit and the fault registers only -/

/-- What two runs of a command of one unit have in common after it: the unit, the fault registers and the response. -/
def SameAnswer (u : BlockUnit) (t t' : State) : Prop := AgreeOn u t t' ∧ AgreeOnFault t t' ∧ t.resp = t'.resp

section Locality

variable {u : BlockUnit} {s s' : State}

theorem respond_sameAnswer (h : AgreeOn u s s') (hf : AgreeOnFault s s') (st : RespStatus) (data : Word) :
    SameAnswer u (respond st data s) (respond st data s') := by
  cases u <;> exact ⟨h, hf, rfl⟩

theorem raise_sameAnswer (h : AgreeOn u s s') (c : Cause) (info : Word) :
    SameAnswer u (raise c info s) (raise c info s') := by
  cases u <;> exact ⟨h, ⟨rfl, rfl, rfl⟩, rfl⟩

theorem whenHealthy_sameAnswer {f : State → State} (h : AgreeOn u s s') (hf : AgreeOnFault s s')
    (hs : SameAnswer u (f s) (f s')) : SameAnswer u (whenHealthy f s) (whenHealthy f s') := by
  have ⟨hfault, herr, _⟩ := hf
  unfold whenHealthy
  rw [hfault, herr]
  split_ifs
  · exact respond_sameAnswer h hf _ _
  · exact hs

theorem bytes_eq_of_agreeOn {sp : ByteSpace} (h : AgreeOn sp.unit s s') : s.mem.bytes sp = s'.mem.bytes sp := by
  cases sp
  · obtain ⟨-, -, hpbuf, -⟩ := h
    exact hpbuf
  · exact h.1
  · exact h.2
  · exact h.1

theorem setBytes_agreeOn {sp : ByteSpace} (h : AgreeOn sp.unit s s') (l : List Byte) :
    AgreeOn sp.unit { s with mem := s.mem.setBytes l sp } { s' with mem := s'.mem.setBytes l sp } := by
  cases sp
  · obtain ⟨hcur, hmode, -, hpixq⟩ := h
    exact ⟨hcur, hmode, rfl, hpixq⟩
  · exact ⟨rfl, h.2⟩
  · exact ⟨h.1, rfl⟩
  · exact ⟨rfl, h.2⟩

theorem pushByte_sameAnswer {sp : ByteSpace} (h : AgreeOn sp.unit s s') (hf : AgreeOnFault s s') (size : Nat)
    (b : Byte) : SameAnswer sp.unit (pushByte sp size b s) (pushByte sp size b s') := by
  unfold pushByte Memory.append
  rw [bytes_eq_of_agreeOn h]
  split_ifs
  · exact raise_sameAnswer h _ _
  · exact respond_sameAnswer (setBytes_agreeOn h _) hf _ _

theorem clearBytes_sameAnswer {sp : ByteSpace} (h : AgreeOn sp.unit s s') (hf : AgreeOnFault s s') :
    SameAnswer sp.unit (clearBytes sp s) (clearBytes sp s') :=
  respond_sameAnswer (setBytes_agreeOn h []) hf _ _

theorem withMode_sameAnswer (h : AgreeOn .enc s s') {f : Nat → State → State}
    (hs : ∀ m, SameAnswer .enc (f m s) (f m s')) : SameAnswer .enc (withMode f s) (withMode f s') := by
  have ⟨_, hmode, _, _⟩ := h
  unfold withMode
  rw [hmode]
  split_ifs
  · exact hs _
  · exact raise_sameAnswer h _ _

end Locality

section Enc

variable {s s' : State} (h : AgreeOn .enc s s') (hf : AgreeOnFault s s')
include h hf

theorem clearPayload_sameAnswer : SameAnswer .enc (clearPayload s) (clearPayload s') := by
  obtain ⟨-, hmode, -, hpixq⟩ := h
  exact ⟨⟨rfl, hmode, rfl, hpixq⟩, hf, rfl⟩

theorem popPixel_sameAnswer : SameAnswer .enc (popPixel s) (popPixel s') := by
  have ⟨hcur, hmode, hpbuf, hpixq⟩ := h
  unfold popPixel
  rw [hpixq]
  cases s'.mem.pixq with
  | nil => exact respond_sameAnswer h hf _ _
  | cons px rest => exact ⟨⟨hcur, hmode, hpbuf, rfl⟩, hf, rfl⟩

theorem startEncode_sameAnswer (m : BitVec 24) : SameAnswer .enc (startEncode m s) (startEncode m s') := by
  have ⟨_, _, hpbuf, hpixq⟩ := h
  unfold startEncode
  split_ifs
  · exact ⟨⟨rfl, rfl, hpbuf, hpixq⟩, hf, rfl⟩
  · exact raise_sameAnswer h _ _

theorem onePixel_sameAnswer (m : Nat) : SameAnswer .enc (onePixel m s) (onePixel m s') := by
  have ⟨hcur, hmode, hpbuf, hpixq⟩ := h
  rw [onePixel_eq, onePixel_eq, hcur, hpbuf]
  split_ifs
  · exact respond_sameAnswer h hf _ _
  · exact ⟨⟨rfl, hmode, hpbuf, hpixq⟩, hf, rfl⟩

theorem runEncode_sameAnswer (size m : Nat) : SameAnswer .enc (runEncode size m s) (runEncode size m s') := by
  have ⟨hcur, hmode, hpbuf, hpixq⟩ := h
  have hrun : runResult size m s = runResult size m s' := by
    rw [runResult, runResult, hcur, hpbuf, hpixq]
  rw [runEncode_eq, runEncode_eq, hrun]
  exact ⟨⟨rfl, hmode, hpbuf, congrArg (· ++ _) hpixq⟩, hf, rfl⟩

end Enc

section Dec

variable {s s' : State} (h : AgreeOn .dec s s') (hf : AgreeOnFault s s')
include h hf

theorem popOutput_sameAnswer : SameAnswer .dec (popOutput s) (popOutput s') := by
  have ⟨hcbuf, hobuf⟩ := h
  unfold popOutput
  rw [hobuf]
  cases s'.mem.obuf with
  | nil => exact respond_sameAnswer h hf _ _
  | cons v rest => exact ⟨⟨hcbuf, rfl⟩, hf, rfl⟩

theorem decodeAt_sameAnswer (size m : Nat) : SameAnswer .dec (decodeAt size m s) (decodeAt size m s') := by
  have ⟨hcbuf, hobuf⟩ := h
  unfold decodeAt
  dsimp only
  rw [hcbuf, hobuf]
  split_ifs
  · exact raise_sameAnswer h _ _
  · exact ⟨⟨rfl, rfl⟩, hf, rfl⟩
  · exact raise_sameAnswer h _ _

/-- `DEC.RUNH` takes its mode from HDR's registers (R132), so the two runs must agree on these too. -/
theorem decodeAtHeader_sameAnswer (hh : AgreeOn .hdr s s') (size : Nat) :
    SameAnswer .dec (decodeAtHeader size s) (decodeAtHeader size s') := by
  obtain ⟨-, hhdr⟩ := hh
  unfold decodeAtHeader bppKnown
  rw [hhdr]
  split_ifs
  · exact decodeAt_sameAnswer h hf size _
  · exact raise_sameAnswer h _ _

end Dec

section Hdr

variable {s s' : State} (h : AgreeOn .hdr s s') (hf : AgreeOnFault s s')
include h hf

theorem startHeader_sameAnswer : SameAnswer .hdr (startHeader s) (startHeader s') := by
  obtain ⟨hlbuf, -⟩ := h
  exact ⟨⟨hlbuf, rfl⟩, hf, rfl⟩

theorem presentLine_sameAnswer (p : Params) : SameAnswer .hdr (presentLine p s) (presentLine p s') := by
  have ⟨hlbuf, hhdr⟩ := h
  unfold presentLine
  rw [hlbuf, hhdr]
  cases parseLine p s'.mem.lbuf s'.hdr with
  | stepped hit r => exact ⟨⟨rfl, rfl⟩, hf, rfl⟩
  | raised c info => exact raise_sameAnswer h _ _

theorem endOfStream_sameAnswer : SameAnswer .hdr (endOfStream s) (endOfStream s') := by
  have ⟨_, hhdr⟩ := h
  unfold endOfStream
  rw [hhdr]
  split_ifs
  · exact respond_sameAnswer h hf _ _
  · exact raise_sameAnswer h _ _

end Hdr

/-- On states that agree on its unit and on the fault registers, a command of that unit gives the same unit state, fault
registers and response (R287). -/
theorem exec_sameAnswer {i : Instr} {u : BlockUnit} {s s' t t' : State} (hu : unitOf i = some u)
    (h : AgreeOn u s s') (hf : AgreeOnFault s s') (hh : i = .decRunh → AgreeOn .hdr s s')
    (e : exec i s = .next t) (e' : exec i s' = .next t') : SameAnswer u t t' := by
  cases i <;> cases hu <;> cases e <;> cases e'
  case pbClr => exact whenHealthy_sameAnswer h hf (clearPayload_sameAnswer h hf)
  case pbPush b => exact whenHealthy_sameAnswer h hf (pushByte_sameAnswer (sp := .pbuf) h hf _ b)
  case cbClr => exact whenHealthy_sameAnswer h hf (clearBytes_sameAnswer (sp := .cbuf) h hf)
  case cbPush v => exact whenHealthy_sameAnswer h hf (pushByte_sameAnswer (sp := .cbuf) h hf _ v)
  case lbClr => exact whenHealthy_sameAnswer h hf (clearBytes_sameAnswer (sp := .lbuf) h hf)
  case lbPush b => exact whenHealthy_sameAnswer h hf (pushByte_sameAnswer (sp := .lbuf) h hf _ b)
  case pqPop => exact popPixel_sameAnswer h hf
  case obPop => exact popOutput_sameAnswer h hf
  case encStart m => exact whenHealthy_sameAnswer h hf (startEncode_sameAnswer h hf m)
  case encPix => exact whenHealthy_sameAnswer h hf (withMode_sameAnswer h (onePixel_sameAnswer h hf))
  case encRun => exact whenHealthy_sameAnswer h hf (withMode_sameAnswer h (runEncode_sameAnswer h hf _))
  case decRun m => exact whenHealthy_sameAnswer h hf (decodeAt_sameAnswer h hf _ _)
  case decRunh => exact whenHealthy_sameAnswer h hf (decodeAtHeader_sameAnswer h hf (hh rfl) _)
  case hdrStart => exact whenHealthy_sameAnswer h hf (startHeader_sameAnswer h hf)
  case hdrLine => exact whenHealthy_sameAnswer h hf (presentLine_sameAnswer h hf _)
  case hdrEos => exact whenHealthy_sameAnswer h hf (endOfStream_sameAnswer h hf)

end Sys2Proof.Machine

open Sys2Proof Sys2Proof.Machine

/-- Settles O49: the frame and the locality of each command, unit by unit. -/
theorem unitsDoNotInterfere : Obligations.UnitsDoNotInterfere :=
  ⟨fun _ _ _ _ hi hu e => exec_agreeOn_other hi hu e,
    fun _ _ _ _ _ _ hu h hf hh e e' => exec_sameAnswer hu h hf hh e e'⟩

end

section
/-! Decoding loses nothing: a word that decodes to a command is that command's word (R81, R84). -/

namespace Sys2Proof

section Decode

variable {w : Word} {i : Instr} {n : Nat} (ho : (opcOf w).toNat = n)
include ho

theorem opcOf_eq_ofNat : opcOf w = BitVec.ofNat 8 n :=
  (opcOf_toNat_eq_iff w (ho ▸ (opcOf w).isLt)).1 ho

theorem eq_encode_of_formatZ {j : Instr} (h : formatZ w j = .instr i) (hj : encode j = wordZ (BitVec.ofNat 8 n)) :
    w = encode i := by
  obtain ⟨hw, rfl⟩ := formatZ_eq_instr h (opcOf_eq_ofNat ho)
  exact hw.trans hj.symm

theorem eq_encode_of_formatB {f : BitVec 8 → Instr} (h : formatB w f = .instr i)
    (hf : ∀ b, encode (f b) = wordB (BitVec.ofNat 8 n) b) : w = encode i := by
  obtain ⟨hw, rfl⟩ := formatB_eq_instr h (opcOf_eq_ofNat ho)
  exact hw.trans (hf _).symm

theorem eq_encode_of_formatM {f : BitVec 24 → Instr} (h : formatM w f = .instr i)
    (hf : ∀ m, encode (f m) = wordM (BitVec.ofNat 8 n) m) : w = encode i := by
  obtain ⟨hw, rfl⟩ := formatM_eq_instr h (opcOf_eq_ofNat ho)
  exact hw.trans (hf _).symm

theorem eq_encode_of_formatS {f : BitVec 4 → BitVec 16 → Instr} (h : formatS w f = .instr i)
    (hf : ∀ sel idx, encode (f sel idx) = wordS (BitVec.ofNat 8 n) sel idx) : w = encode i := by
  obtain ⟨hw, rfl⟩ := formatS_eq_instr h (opcOf_eq_ofNat ho)
  exact hw.trans (hf _ _).symm

theorem eq_encode_of_formatK {f : BitVec 4 → Instr} (h : formatK w f = .instr i)
    (hf : ∀ c, encode (f c) = wordK (BitVec.ofNat 8 n) c) : w = encode i := by
  obtain ⟨hw, rfl⟩ := formatK_eq_instr h (opcOf_eq_ofNat ho)
  exact hw.trans (hf _).symm

end Decode

/-- By the rows of the opcode map: the opcode and the format of a row fix the word. -/
theorem eq_encode_of_decode {w : Word} {i : Instr} (h : decode w = .instr i) : w = encode i := by
  unfold decode at h
  split at h
  next ho => exact eq_encode_of_formatZ ho h rfl
  next ho => exact eq_encode_of_formatK ho h (fun _ => rfl)
  next ho => exact eq_encode_of_formatB ho h (fun _ => rfl)
  next ho => exact eq_encode_of_formatS ho h (fun _ _ => rfl)
  next ho => exact eq_encode_of_formatZ ho h rfl
  next ho => exact eq_encode_of_formatB ho h (fun _ => rfl)
  next ho => exact eq_encode_of_formatZ ho h rfl
  next ho => exact eq_encode_of_formatB ho h (fun _ => rfl)
  next ho => exact eq_encode_of_formatZ ho h rfl
  next ho => exact eq_encode_of_formatB ho h (fun _ => rfl)
  next ho => exact eq_encode_of_formatZ ho h rfl
  next ho => exact eq_encode_of_formatZ ho h rfl
  next ho => exact eq_encode_of_formatM ho h (fun _ => rfl)
  next ho => exact eq_encode_of_formatZ ho h rfl
  next ho => exact eq_encode_of_formatZ ho h rfl
  next ho => exact eq_encode_of_formatM ho h (fun _ => rfl)
  next ho => exact eq_encode_of_formatZ ho h rfl
  next ho => exact eq_encode_of_formatZ ho h rfl
  next ho => exact eq_encode_of_formatZ ho h rfl
  next ho => exact eq_encode_of_formatZ ho h rfl
  next => cases h

end Sys2Proof
end

section
/-! The frame of memory and of the header registers: a push writes one entry (R60, R181, R183, R185), and in Done only
`HDR.START` and reset write the header (R71, R165). -/

namespace Sys2Proof.Machine

section Push

variable {s t : State} {b : Byte} {sp : ByteSpace}

/-- A push that does not raise is an append. -/
theorem pushByte_mem_of_not_fault {size : Nat} (hok : (pushByte sp size b s).fault = false) :
    (pushByte sp size b s).mem = s.mem.append sp b := by
  rcases pushByte_cases sp size b s with ⟨-, e⟩ | ⟨-, e⟩ <;> rw [e] at hok ⊢
  · cases hok
  · rfl

theorem whenHealthy_push_mem {size : Nat} (hs : Healthy s) (hok : (whenHealthy (pushByte sp size b) s).fault = false) :
    (whenHealthy (pushByte sp size b) s).mem = s.mem.append sp b := by
  rw [whenHealthy_of_healthy hs] at hok ⊢
  exact pushByte_mem_of_not_fault hok

theorem exec_push_mem {i : Instr} (hs : Healthy s)
    (hi : (i = .pbPush b ∧ sp = .pbuf) ∨ (i = .cbPush b ∧ sp = .cbuf) ∨ (i = .lbPush b ∧ sp = .lbuf))
    (e : exec i s = .next t) (hok : t.fault = false) : t.mem = s.mem.append sp b := by
  rcases hi with ⟨rfl, rfl⟩ | ⟨rfl, rfl⟩ | ⟨rfl, rfl⟩ <;> cases e
  · exact whenHealthy_push_mem hs hok
  · exact whenHealthy_push_mem hs hok
  · exact whenHealthy_push_mem hs hok

end Push

section HeaderInDone

variable {s t : State}

theorem whenHealthy_hdr {f : State → State} (h : (f s).hdr = s.hdr) : (whenHealthy f s).hdr = s.hdr := by
  rcases whenHealthy_cases f s with ⟨-, e⟩ | ⟨-, e⟩ <;> rw [e]
  · rfl
  · exact h

theorem pushByte_hdr (sp : ByteSpace) (size : Nat) (b : Byte) (s : State) : (pushByte sp size b s).hdr = s.hdr := by
  rcases pushByte_cases sp size b s with ⟨-, e⟩ | ⟨-, e⟩ <;> rw [e] <;> rfl

theorem endOfStream_hdr (s : State) : (endOfStream s).hdr = s.hdr := by
  rcases endOfStream_cases s with ⟨-, e⟩ | ⟨-, e⟩ <;> rw [e] <;> rfl

/-- In Done a line is taken without a step of the parser (R162). -/
theorem presentLine_done (hd : s.hdr.hstate = .done) (p : Params) :
    presentLine p s = respond .ok (lineData false .done) { s with mem.lbuf := [] } := by
  rw [presentLine, parseLine_done hd]
  simp only [hd]

theorem presentLine_hdr_of_done (hd : s.hdr.hstate = .done) (p : Params) : (presentLine p s).hdr = s.hdr := by
  rw [presentLine_done hd, respond_hdr]

/-- In Done no command of HDR's own but `HDR.START` writes the header registers. -/
theorem exec_hdr_of_done_of_unit {i : Instr} (hd : s.hdr.hstate = .done) (hu : unitOf i = some .hdr)
    (hstart : i ≠ .hdrStart) (e : exec i s = .next t) : t.hdr = s.hdr := by
  cases i <;> cases hu <;> cases e
  case lbClr => exact whenHealthy_hdr (clearBytes_hdr .lbuf s)
  case lbPush b => exact whenHealthy_hdr (pushByte_hdr .lbuf _ b s)
  case hdrStart => exact absurd rfl hstart
  case hdrLine => exact whenHealthy_hdr (presentLine_hdr_of_done hd _)
  case hdrEos => exact whenHealthy_hdr (endOfStream_hdr s)

/-- In Done no command but `SRST` and `HDR.START` writes the header registers: those of the other units never do. -/
theorem exec_hdr_of_done {i : Instr} (hd : s.hdr.hstate = .done) (hsrst : i ≠ .srst) (hstart : i ≠ .hdrStart)
    (e : exec i s = .next t) : t.hdr = s.hdr := by
  by_cases hu : unitOf i = some .hdr
  · exact exec_hdr_of_done_of_unit hd hu hstart e
  · obtain ⟨-, hhdr⟩ := exec_agreeOn_other hsrst hu e
    exact hhdr.symm

end HeaderInDone

end Sys2Proof.Machine

open Sys2Proof Sys2Proof.Machine

/-- Settles O22: a push that does not raise appends, and an append shows at the old length only. -/
theorem pushWritesOneEntry : Obligations.PushWritesOneEntry := by
  intro s t b sp i hs hi e hok
  rw [exec_push_mem hs hi e hok]
  exact ⟨fun sp' n => read_append s.mem sp sp' b n, fun n => append_readPixel s.mem sp b n⟩

/-- Settles O47: by the event the step takes, and for a command by `exec_hdr_of_done`; the words of the two commands
left are theirs by `eq_encode_of_decode`. -/
theorem headerIsFrozenInDone : Obligations.HeaderIsFrozenInDone := by
  intro s t hd e
  rcases step_cases s with ⟨-, e'⟩ | ⟨rest, hp, -⟩ | ⟨w, rest, i, hp, hi, e'⟩ | ⟨w, rest, why, -, -, e'⟩
  · rw [e'] at e
    cases e
    exact .inl rfl
  · exact .inr (.inl ⟨rest, hp⟩)
  · have hw := eq_encode_of_decode hi
    by_cases hsrst : i = .srst
    · subst hsrst
      exact .inr (.inr ⟨w, rest, hp, .inl hw⟩)
    by_cases hstart : i = .hdrStart
    · subst hstart
      exact .inr (.inr ⟨w, rest, hp, .inr hw⟩)
    rw [e'] at e
    exact .inl (exec_hdr_of_done (s := { s with port := rest }) hd hsrst hstart e)
  · rw [e'] at e
    cases e
    exact .inl (whenHealthy_hdr rfl)

end

section
/-! The decoder inverts the encoder, and the rows of the opcode table are the commands (R81, R84, R85). -/

namespace Sys2Proof

/-! ## The words of the five formats, read back (R81, R82) -/

theorem opcOf_wordB (opc imm8 : Byte) : opcOf (wordB opc imm8) = opc :=
  ((eq_wordB_iff _ _ _).1 rfl).1

theorem opcOf_wordM (opc : Byte) (m : BitVec 24) : opcOf (wordM opc m) = opc :=
  ((eq_wordM_iff _ _ _).1 rfl).1

theorem opcOf_wordS (opc : Byte) (sel : BitVec 4) (idx : BitVec 16) : opcOf (wordS opc sel idx) = opc :=
  ((eq_wordS_iff _ _ _ _).1 rfl).1

theorem opcOf_wordK (opc : Byte) (c : BitVec 4) : opcOf (wordK opc c) = opc :=
  ((eq_wordK_iff _ _ _).1 rfl).1

theorem formatB_wordB (opc imm8 : Byte) (f : BitVec 8 → Instr) : formatB (wordB opc imm8) f = .instr (f imm8) := by
  obtain ⟨-, hzero, himm⟩ := (eq_wordB_iff _ opc imm8).1 rfl
  rw [formatB, requireZero, if_pos hzero, himm]

theorem formatM_wordM (opc : Byte) (m : BitVec 24) (f : BitVec 24 → Instr) :
    formatM (wordM opc m) f = .instr (f m) := by
  obtain ⟨-, hm⟩ := (eq_wordM_iff _ opc m).1 rfl
  rw [formatM, hm]

theorem formatS_wordS (opc : Byte) (sel : BitVec 4) (idx : BitVec 16) (f : BitVec 4 → BitVec 16 → Instr) :
    formatS (wordS opc sel idx) f = .instr (f sel idx) := by
  obtain ⟨-, hzero, hsel, hidx⟩ := (eq_wordS_iff _ opc sel idx).1 rfl
  rw [formatS, requireZero, if_pos hzero, hsel, hidx]

theorem formatK_wordK (opc : Byte) (c : BitVec 4) (f : BitVec 4 → Instr) :
    formatK (wordK opc c) f = .instr (f c) := by
  obtain ⟨-, hzero, hc⟩ := (eq_wordK_iff _ opc c).1 rfl
  rw [formatK, requireZero, if_pos hzero, hc]

/-- The opcode selects the format, and the format reads the operands back. -/
theorem decode_encode (i : Instr) : decode (encode i) = .instr i := by
  cases i
  case srst | pbClr | cbClr | lbClr | pqPop | obPop | encPix | encRun | decRunh | hdrStart | hdrLine | hdrEos => rfl
  case abort c => rw [encode, decode, opcOf_wordK]; exact formatK_wordK _ c _
  case rd a => rw [encode, decode, opcOf_wordB]; exact formatB_wordB _ a _
  case rdStr sel idx => rw [encode, decode, opcOf_wordS]; exact formatS_wordS _ sel idx _
  case pbPush b => rw [encode, decode, opcOf_wordB]; exact formatB_wordB _ b _
  case cbPush v => rw [encode, decode, opcOf_wordB]; exact formatB_wordB _ v _
  case lbPush b => rw [encode, decode, opcOf_wordB]; exact formatB_wordB _ b _
  case encStart m => rw [encode, decode, opcOf_wordM]; exact formatM_wordM _ m _
  case decRun m => rw [encode, decode, opcOf_wordM]; exact formatM_wordM _ m _

theorem decode_eq_instr_iff (w : Word) (i : Instr) : decode w = .instr i ↔ w = encode i :=
  ⟨eq_encode_of_decode, fun h => h ▸ decode_encode i⟩

/-! ## The rows of the opcode table (R84) -/

/-- A field that a mask keeps whole is fixed by the masked word. -/
theorem extractLsb'_eq_of_masked {w mask pattern : Word} {start len : Nat} (h : w &&& mask = pattern)
    (hmask : mask.extractLsb' start len = BitVec.allOnes len) :
    w.extractLsb' start len = pattern.extractLsb' start len := by
  rw [← h, BitVec.extractLsb'_and, hmask, BitVec.and_allOnes]

theorem eq_of_maskedZ {w : Word} {pattern : Word} (h : w &&& 0xFFFFFFFF = pattern) : w = pattern :=
  (BitVec.and_allOnes (x := w)).symm.trans h

theorem eq_wordB_of_masked {w : Word} {opc : Byte} (h : w &&& 0xFFFFFF00 = wordB opc 0) :
    w = wordB opc (imm8Of w) := by
  obtain ⟨hopc, hzero, -⟩ := (eq_wordB_iff _ opc 0).1 rfl
  exact (eq_wordB_iff ..).2
    ⟨(extractLsb'_eq_of_masked h rfl).trans hopc, (extractLsb'_eq_of_masked h rfl).trans hzero, rfl⟩

theorem eq_wordM_of_masked {w : Word} {opc : Byte} (h : w &&& 0xFF000000 = wordM opc 0) :
    w = wordM opc (opdOf w) := by
  obtain ⟨hopc, -⟩ := (eq_wordM_iff _ opc 0).1 rfl
  exact (eq_wordM_iff ..).2 ⟨(extractLsb'_eq_of_masked h rfl).trans hopc, rfl⟩

theorem eq_wordS_of_masked {w : Word} {opc : Byte} (h : w &&& 0xFFF00000 = wordS opc 0 0) :
    w = wordS opc (selOf w) (idxOf w) := by
  obtain ⟨hopc, hzero, -⟩ := (eq_wordS_iff _ opc 0 0).1 rfl
  exact (eq_wordS_iff ..).2
    ⟨(extractLsb'_eq_of_masked h rfl).trans hopc, (extractLsb'_eq_of_masked h rfl).trans hzero, rfl, rfl⟩

theorem eq_wordK_of_masked {w : Word} {opc : Byte} (h : w &&& 0xFFFFFFF0 = wordK opc 0) :
    w = wordK opc (code4Of w) := by
  obtain ⟨hopc, hzero, -⟩ := (eq_wordK_iff _ opc 0).1 rfl
  exact (eq_wordK_iff ..).2
    ⟨(extractLsb'_eq_of_masked h rfl).trans hopc, (extractLsb'_eq_of_masked h rfl).trans hzero, rfl⟩

/-- Every command has its row (R84). -/
theorem inTable (i : Instr) : Laws.InTable.Statement i := by
  cases i
  case srst => exact Laws.InTable.srst
  case abort c => exact Laws.InTable.abort c
  case rd a => exact Laws.InTable.rd a
  case rdStr sel idx => exact Laws.InTable.rdStr sel idx
  case pbClr => exact Laws.InTable.pbClr
  case pbPush b => exact Laws.InTable.pbPush b
  case cbClr => exact Laws.InTable.cbClr
  case cbPush v => exact Laws.InTable.cbPush v
  case lbClr => exact Laws.InTable.lbClr
  case lbPush b => exact Laws.InTable.lbPush b
  case pqPop => exact Laws.InTable.pqPop
  case obPop => exact Laws.InTable.obPop
  case encStart m => exact Laws.InTable.encStart m
  case encPix => exact Laws.InTable.encPix
  case encRun => exact Laws.InTable.encRun
  case decRun m => exact Laws.InTable.decRun m
  case decRunh => exact Laws.InTable.decRunh
  case hdrStart => exact Laws.InTable.hdrStart
  case hdrLine => exact Laws.InTable.hdrLine
  case hdrEos => exact Laws.InTable.hdrEos

/-- Every row is its command's: a word that matches it is an encoding with the row's mnemonic. -/
theorem exists_encode_of_matchedBy {row : OpcodeRow} {w : Word} (hrow : row ∈ opcodeRows) (h : row.matchedBy w) :
    ∃ i, w = encode i ∧ i.mnemonic = row.mnemonic := by
  simp only [opcodeRows, List.mem_cons, List.not_mem_nil, or_false] at hrow
  rcases hrow with rfl | rfl | rfl | rfl | rfl | rfl | rfl | rfl | rfl | rfl | rfl | rfl | rfl | rfl | rfl | rfl | rfl |
    rfl | rfl | rfl
  · exact ⟨.srst, eq_of_maskedZ h, rfl⟩
  · exact ⟨.abort _, eq_wordK_of_masked (opc := 0x02) h, rfl⟩
  · exact ⟨.rd _, eq_wordB_of_masked (opc := 0x03) h, rfl⟩
  · exact ⟨.rdStr _ _, eq_wordS_of_masked (opc := 0x04) h, rfl⟩
  · exact ⟨.pbClr, eq_of_maskedZ h, rfl⟩
  · exact ⟨.pbPush _, eq_wordB_of_masked (opc := 0x11) h, rfl⟩
  · exact ⟨.cbClr, eq_of_maskedZ h, rfl⟩
  · exact ⟨.cbPush _, eq_wordB_of_masked (opc := 0x13) h, rfl⟩
  · exact ⟨.lbClr, eq_of_maskedZ h, rfl⟩
  · exact ⟨.lbPush _, eq_wordB_of_masked (opc := 0x15) h, rfl⟩
  · exact ⟨.pqPop, eq_of_maskedZ h, rfl⟩
  · exact ⟨.obPop, eq_of_maskedZ h, rfl⟩
  · exact ⟨.encStart _, eq_wordM_of_masked (opc := 0x20) h, rfl⟩
  · exact ⟨.encPix, eq_of_maskedZ h, rfl⟩
  · exact ⟨.encRun, eq_of_maskedZ h, rfl⟩
  · exact ⟨.decRun _, eq_wordM_of_masked (opc := 0x30) h, rfl⟩
  · exact ⟨.decRunh, eq_of_maskedZ h, rfl⟩
  · exact ⟨.hdrStart, eq_of_maskedZ h, rfl⟩
  · exact ⟨.hdrLine, eq_of_maskedZ h, rfl⟩
  · exact ⟨.hdrEos, eq_of_maskedZ h, rfl⟩

/-- No two rows share a mnemonic. -/
theorem row_eq_of_mnemonic_eq {r r' : OpcodeRow} (hr : r ∈ opcodeRows) (hr' : r' ∈ opcodeRows)
    (h : r.mnemonic = r'.mnemonic) : r = r' :=
  List.inj_on_of_nodup_map (show (opcodeRows.map OpcodeRow.mnemonic).Nodup by decide) hr hr' h

theorem matchedBy_iff {row : OpcodeRow} (hrow : row ∈ opcodeRows) (w : Word) :
    row.matchedBy w ↔ ∃ i, decode w = .instr i ∧ i.mnemonic = row.mnemonic := by
  constructor
  · intro h
    obtain ⟨i, rfl, hm⟩ := exists_encode_of_matchedBy hrow h
    exact ⟨i, decode_encode i, hm⟩
  · rintro ⟨i, hi, hm⟩
    obtain ⟨row', hrow', hm', hmatch⟩ := inTable i
    obtain rfl := row_eq_of_mnemonic_eq hrow' hrow (hm'.trans hm)
    rwa [eq_encode_of_decode hi]

/-- The illegal words are those of no row (R85). -/
theorem no_row_iff_illegal (w : Word) :
    (∀ row ∈ opcodeRows, ¬ row.matchedBy w) ↔ ∃ why, decode w = .illegal why := by
  constructor
  · intro hno
    rcases hd : decode w with i | why
    · obtain ⟨row, hrow, -, hmatch⟩ := inTable i
      exact absurd (eq_encode_of_decode hd ▸ hmatch) (hno row hrow)
    · exact ⟨why, rfl⟩
  · rintro ⟨why, hd⟩ row hrow hmatch
    obtain ⟨i, hi, -⟩ := (matchedBy_iff hrow w).1 hmatch
    cases hd.symm.trans hi

end Sys2Proof

open Sys2Proof Sys2Proof.Machine

/-- Settles O1: one direction is `eq_encode_of_decode`, the other is decoding each command's own word. -/
theorem decodeReadsExactlyTheEncodings : Obligations.DecodeReadsExactlyTheEncodings :=
  decode_eq_instr_iff

/-- Settles O2: a row fixes every bit of its word outside the operands, so it matches the words of its own command. -/
theorem wordIsRowsCommandExactlyWhenMasked : Obligations.WordIsRowsCommandExactlyWhenMasked :=
  ⟨rfl, fun w _ hrow => matchedBy_iff hrow w, no_row_iff_illegal⟩

/-- Settles O3: each legal word is the encoding of its command, and each illegal one is refused by evaluation. -/
theorem specWordsDecode : Obligations.SpecWordsDecode :=
  ⟨decode_encode .srst, decode_encode (.abort 5), decode_encode (.rd 0x16), decode_encode (.rdStr 4 2),
    decode_encode (.pbPush 0xA5), decode_encode (.cbPush 233), decode_encode .pqPop, decode_encode (.encStart 12),
    decode_encode (.decRun 1), decode_encode .hdrLine, rfl, rfl, rfl, rfl⟩

end

section
/-! How a command ends (R83): a faulted block does not execute it, or it is executed and then it answers with data,
finds nothing to return, or raises. -/

namespace Sys2Proof.Machine

/-- The command has nothing to return (R118, R186, R187, R202, R203). -/
def findsNothing : Instr → State → Prop
  | .encPix, s => s.fault = false ∧ validMode s.emode.toNat = true ∧ s.mem.pbuf.length ≤ s.cursor.byteIdx.toNat
  | .pqPop, s => s.mem.pixq = []
  | .obPop, s => s.mem.obuf = []
  | .rd a, s => readReg s a = none
  | .rdStr sel idx, s => readString s.hdr sel idx = none
  | _, _ => False

theorem findsNothing_iff (i : Instr) (s : State) :
    findsNothing i s ↔
      (i = .encPix ∧ s.fault = false ∧ validMode s.emode.toNat = true ∧
        s.mem.pbuf.length ≤ s.cursor.byteIdx.toNat) ∨
      (i = .pqPop ∧ s.mem.pixq = []) ∨ (i = .obPop ∧ s.mem.obuf = []) ∨
      (∃ a, i = .rd a ∧ readReg s a = none) ∨
      ∃ sel idx, i = .rdStr sel idx ∧ readString s.hdr sel idx = none := by
  cases i <;> simp [findsNothing]

/-- The block executes the command (R86, R262): it is healthy or the command is one that survives. -/
def Executes (i : Instr) (s : State) : Prop := s.fault = false ∨ survivesFault i = true

theorem not_executes_iff (i : Instr) (s : State) : ¬ Executes i s ↔ s.fault = true ∧ survivesFault i = false := by
  simp [Executes]

/-- The three ends of a command that is executed. -/
inductive Ends (i : Instr) (s : State) : State → Prop
  | ok {u : State} (data : Word) (hfound : ¬ findsNothing i s) (hfault : s.fault = false → u.fault = false)
      (hport : u.port = s.port) : Ends i s (respond .ok data u)
  | empty (hnothing : findsNothing i s) : Ends i s (respond .empty 0 s)
  | raised (code : BitVec 4) (info : Word) (hfound : ¬ findsNothing i s) (hhealthy : s.fault = false) :
      Ends i s (latch code info s)

/-! ## The ends of each operation -/

section Operations

variable {i : Instr} {s : State}

theorem whenHealthy_ends {f : State → State} (hex : Executes i s) (hi : survivesFault i = false)
    (h : s.fault = false → Ends i s (f s)) : Ends i s (whenHealthy f s) := by
  have hs : s.fault = false := hex.resolve_right (by simp [hi])
  rw [whenHealthy_of_healthy hs]
  exact h hs

theorem abortWith_ends (hi : ¬ findsNothing i s) (hs : s.fault = false) (c : BitVec 4) :
    Ends i s (abortWith c s) := by
  unfold abortWith
  split_ifs
  · exact .raised _ _ hi hs
  · exact .raised _ _ hi hs

theorem respondWith_ends {found : Option Word} (hi : findsNothing i s ↔ found = none) :
    Ends i s (respondWith found s) := by
  cases found with
  | none => exact .empty (hi.2 rfl)
  | some data => exact .ok data (by simp [hi]) id rfl

theorem pushByte_ends (hi : ¬ findsNothing i s) (hs : s.fault = false) (sp : ByteSpace) (size : Nat) (b : Byte) :
    Ends i s (pushByte sp size b s) := by
  rcases pushByte_cases sp size b s with ⟨-, e⟩ | ⟨-, e⟩ <;> rw [e]
  · exact .raised _ _ hi hs
  · exact .ok _ hi id rfl

theorem popPixel_ends (s : State) : Ends .pqPop s (popPixel s) := by
  rcases popPixel_cases s with ⟨hq, e⟩ | ⟨px, rest, hq, e⟩ <;> rw [e]
  · exact .empty hq
  · exact .ok _ (by simp [findsNothing, hq]) id rfl

theorem popOutput_ends (s : State) : Ends .obPop s (popOutput s) := by
  rcases popOutput_cases s with ⟨hq, e⟩ | ⟨v, rest, hq, e⟩ <;> rw [e]
  · exact .empty hq
  · exact .ok _ (by simp [findsNothing, hq]) id rfl

theorem startEncode_ends (hi : ¬ findsNothing i s) (hs : s.fault = false) (m : BitVec 24) :
    Ends i s (startEncode m s) := by
  rcases startEncode_cases m s with ⟨-, e⟩ | ⟨-, e⟩ <;> rw [e]
  · exact .ok _ hi id rfl
  · exact .raised _ _ hi hs

theorem encPix_ends (hs : s.fault = false) : Ends .encPix s (withMode onePixel s) := by
  rcases withMode_cases onePixel s with ⟨hm, e⟩ | ⟨hm, e⟩ <;> rw [e]
  · rcases onePixel_cases s.emode.toNat s with ⟨hend, e'⟩ | ⟨hend, e'⟩ <;> rw [e'] <;>
      simp only [Cursor.atEnd, decide_eq_true_eq, decide_eq_false_iff_not] at hend
    · exact .empty ⟨hs, hm, hend⟩
    · exact .ok _ (fun hn => hend hn.2.2) id rfl
  · exact .raised _ _ (by simp [findsNothing, hm]) hs

theorem encRun_ends (hi : ¬ findsNothing i s) (hs : s.fault = false) (size : Nat) :
    Ends i s (withMode (runEncode size) s) := by
  rcases withMode_cases (runEncode size) s with ⟨-, e⟩ | ⟨-, e⟩ <;> rw [e]
  · exact .ok _ hi id rfl
  · exact .raised _ _ hi hs

theorem decodeAt_ends (hi : ¬ findsNothing i s) (hs : s.fault = false) (size m : Nat) :
    Ends i s (decodeAt size m s) := by
  rcases decodeAt_cases size m s with ⟨-, e⟩ | ⟨-, -, e⟩ | ⟨-, -, e⟩ <;> rw [e]
  · exact .raised _ _ hi hs
  · exact .raised _ _ hi hs
  · exact .ok _ hi id rfl

theorem decodeAtHeader_ends (hi : ¬ findsNothing i s) (hs : s.fault = false) (size : Nat) :
    Ends i s (decodeAtHeader size s) := by
  rcases decodeAtHeader_cases size s with ⟨-, e⟩ | ⟨-, e⟩ <;> rw [e]
  · exact decodeAt_ends hi hs _ _
  · exact .raised _ _ hi hs

theorem presentLine_ends (hi : ¬ findsNothing i s) (hs : s.fault = false) (p : Params) :
    Ends i s (presentLine p s) := by
  rcases presentLine_cases p s with ⟨c, info, -, e⟩ | ⟨hit, h, -, e⟩ <;> rw [e]
  · exact .raised _ _ hi hs
  · exact .ok _ hi id rfl

theorem endOfStream_ends (hi : ¬ findsNothing i s) (hs : s.fault = false) : Ends i s (endOfStream s) := by
  rcases endOfStream_cases s with ⟨-, e⟩ | ⟨-, e⟩ <;> rw [e]
  · exact .ok _ hi id rfl
  · exact .raised _ _ hi hs

end Operations

/-! ## Every command and every step -/

/-- Every command but the five that survive makes the dead-state test first. -/
theorem exec_eq_whenHealthy {i : Instr} (hi : survivesFault i = false) :
    ∃ f, ∀ s, exec i s = .next (whenHealthy f s) := by
  cases i
  case srst | rd | rdStr | pqPop | obPop => cases hi
  all_goals exact ⟨_, fun _ => rfl⟩

theorem exec_not_executed {i : Instr} {s : State} (h : ¬ Executes i s) :
    exec i s = .next (respond .dead (s.err.setWidth 32) s) := by
  obtain ⟨hf, hi⟩ := (not_executes_iff i s).1 h
  obtain ⟨f, e⟩ := exec_eq_whenHealthy hi
  rw [e, whenHealthy_of_faulted hf]

theorem exec_executed {i : Instr} {s : State} (hex : Executes i s) : ∃ t, exec i s = .next t ∧ Ends i s t := by
  cases i
  case srst => exact ⟨_, exec_srst s, .ok _ id (fun _ => rfl) rfl⟩
  case abort c => exact ⟨_, exec_abort c s, whenHealthy_ends hex rfl fun hs => abortWith_ends id hs c⟩
  case rd a => exact ⟨_, exec_rd a s, respondWith_ends .rfl⟩
  case rdStr sel idx => exact ⟨_, exec_rdStr sel idx s, respondWith_ends (by simp [findsNothing])⟩
  case pbClr => exact ⟨_, exec_pbClr s, whenHealthy_ends hex rfl fun _ => .ok _ id id rfl⟩
  case pbPush b => exact ⟨_, exec_pbPush b s, whenHealthy_ends hex rfl fun hs => pushByte_ends id hs _ _ b⟩
  case cbClr => exact ⟨_, exec_cbClr s, whenHealthy_ends hex rfl fun _ => .ok _ id id rfl⟩
  case cbPush v => exact ⟨_, exec_cbPush v s, whenHealthy_ends hex rfl fun hs => pushByte_ends id hs _ _ v⟩
  case lbClr => exact ⟨_, exec_lbClr s, whenHealthy_ends hex rfl fun _ => .ok _ id id rfl⟩
  case lbPush b => exact ⟨_, exec_lbPush b s, whenHealthy_ends hex rfl fun hs => pushByte_ends id hs _ _ b⟩
  case pqPop => exact ⟨_, exec_pqPop s, popPixel_ends s⟩
  case obPop => exact ⟨_, exec_obPop s, popOutput_ends s⟩
  case encStart m => exact ⟨_, exec_encStart m s, whenHealthy_ends hex rfl fun hs => startEncode_ends id hs m⟩
  case encPix => exact ⟨_, exec_encPix s, whenHealthy_ends hex rfl encPix_ends⟩
  case encRun => exact ⟨_, exec_encRun s, whenHealthy_ends hex rfl fun hs => encRun_ends id hs _⟩
  case decRun m => exact ⟨_, exec_decRun m s, whenHealthy_ends hex rfl fun hs => decodeAt_ends id hs _ _⟩
  case decRunh => exact ⟨_, exec_decRunh s, whenHealthy_ends hex rfl fun hs => decodeAtHeader_ends id hs _⟩
  case hdrStart => exact ⟨_, exec_hdrStart s, whenHealthy_ends hex rfl fun _ => .ok _ id id rfl⟩
  case hdrLine => exact ⟨_, exec_hdrLine s, whenHealthy_ends hex rfl fun hs => presentLine_ends id hs _⟩
  case hdrEos => exact ⟨_, exec_hdrEos s, whenHealthy_ends hex rfl fun hs => endOfStream_ends id hs⟩

/-- All that a command can do, by its response: it is not executed, or it ends in one of three ways. -/
theorem exec_cases (i : Instr) (s : State) :
    (¬ Executes i s ∧ exec i s = .next (respond .dead (s.err.setWidth 32) s)) ∨
      (Executes i s ∧ ∃ t, exec i s = .next t ∧ Ends i s t) := by
  by_cases h : Executes i s
  · exact .inr ⟨h, exec_executed h⟩
  · exact .inl ⟨h, exec_not_executed h⟩

theorem Ends.answers {i : Instr} {s t : State} (h : Ends i s t) : t.resp.isSome = true ∧ t.port = s.port := by
  cases h with
  | ok data hfound hfault hport => exact ⟨rfl, hport⟩
  | empty hnothing => exact ⟨rfl, rfl⟩
  | raised code info hfound hhealthy => exact ⟨rfl, rfl⟩

theorem exec_answers (i : Instr) (s : State) :
    ∃ t, exec i s = .next t ∧ t.resp.isSome = true ∧ t.port = s.port := by
  rcases exec_cases i s with ⟨-, e⟩ | ⟨-, t, e, ht⟩
  · exact ⟨_, e, rfl, rfl⟩
  · exact ⟨t, e, ht.answers⟩

theorem step_next (s : State) : ∃ t, step s = .next t := by
  rcases step_cases s with ⟨-, e⟩ | ⟨rest, -, e⟩ | ⟨w, rest, i, -, -, e⟩ | ⟨w, rest, why, -, -, e⟩
  · exact ⟨_, e⟩
  · exact ⟨_, e⟩
  · obtain ⟨t, et, -⟩ := exec_answers i { s with port := rest }
    exact ⟨t, e.trans et⟩
  · exact ⟨_, e⟩

/-! ## Status codes -/

theorem code_eq_one_iff (st : RespStatus) : st.code = 1 ↔ st = .empty := by cases st <;> decide
theorem code_eq_two_iff (st : RespStatus) : st.code = 2 ↔ st = .err := by cases st <;> decide
theorem code_eq_three_iff (st : RespStatus) : st.code = 3 ↔ st = .dead := by cases st <;> decide

/-- A command that finds nothing has been executed. -/
theorem executes_of_findsNothing {i : Instr} {s : State} (h : findsNothing i s) : Executes i s := by
  cases i
  case encPix => exact .inl h.1
  case rd | rdStr | pqPop | obPop => exact .inr rfl
  all_goals exact h.elim

/-! ## The decoding procedure (R86) -/

/-- The five commands that survive, by their mnemonics (R86 step 1, R262). -/
theorem survivesFault_iff (i : Instr) :
    survivesFault i = true ↔ i.mnemonic ∈ ["SRST", "RD", "RD.STR", "PQ.POP", "OB.POP"] := by
  cases i <;> simp [survivesFault, Instr.mnemonic]

/-- The word is one of the five that step 1 of R86 lets through, told by its row. -/
def SurvivingWord (w : Word) : Prop :=
  ∃ row ∈ opcodeRows, row.mnemonic ∈ ["SRST", "RD", "RD.STR", "PQ.POP", "OB.POP"] ∧ w &&& row.mask = row.pattern

theorem survivingWord_encode_iff (i : Instr) : SurvivingWord (encode i) ↔ survivesFault i = true := by
  rw [survivesFault_iff]
  constructor
  · rintro ⟨row, hrow, hm, hmatch⟩
    obtain ⟨j, hj, hjm⟩ := (matchedBy_iff hrow _).1 hmatch
    cases (decode_encode i).symm.trans hj
    rwa [hjm]
  · intro hm
    obtain ⟨row, hrow, hrm, hmatch⟩ := inTable i
    exact ⟨row, hrow, hrm ▸ hm, hmatch⟩

theorem step_of_decode {s : State} {w : Word} {rest : List PortEvent} {i : Instr} (hp : s.port = .command w :: rest)
    (hi : decode w = .instr i) : step s = exec i { s with port := rest } :=
  (step_command hp).trans (stepCommand_instr hi _)

theorem step_of_illegal {s : State} {w : Word} {rest : List PortEvent} {why : Illegal}
    (hp : s.port = .command w :: rest) (hw : decode w = .illegal why) :
    step s = .next (illegalCommand w { s with port := rest }) :=
  (step_command hp).trans (stepCommand_illegal hw _)

/-- Step 1 of R86. -/
theorem step_dead {s : State} {w : Word} {rest : List PortEvent} (hp : s.port = .command w :: rest)
    (hf : s.fault = true) (hw : ¬ SurvivingWord w) :
    step s = .next { s with port := rest, resp := some ⟨.dead, s.err.setWidth 32⟩ } := by
  rcases hd : decode w with i | why
  · rw [step_of_decode hp hd]
    rw [eq_encode_of_decode hd, survivingWord_encode_iff, Bool.not_eq_true] at hw
    exact exec_not_executed ((not_executes_iff _ _).2 ⟨hf, hw⟩)
  · rw [step_of_illegal hp hd]
    exact congrArg _ (whenHealthy_of_faulted (s := { s with port := rest }) hf)

/-- Step 3 of R86. -/
theorem step_illegal_of_healthy {s : State} {w : Word} {rest : List PortEvent} (hp : s.port = .command w :: rest)
    (hf : s.fault = false) (hno : ∀ row ∈ opcodeRows, w &&& row.mask ≠ row.pattern) :
    step s = .next { s with port := rest, fault := true, err := 9, errInfo := w, resp := some ⟨.err, 9⟩ } := by
  obtain ⟨why, hd⟩ := (no_row_iff_illegal w).1 hno
  rw [step_of_illegal hp hd]
  exact congrArg _ (whenHealthy_of_healthy (s := { s with port := rest }) hf)

end Sys2Proof.Machine

open Sys2Proof Sys2Proof.Machine

/-- Settles O4. -/
theorem stepRunsDecodedCommand : Obligations.StepRunsDecodedCommand :=
  fun _ _ _ _ hp hi => step_of_decode hp hi

/-- Settles O5: step by step; a word of no row is not one of the five, so step 3 is reached on a healthy block only. -/
theorem decodingProcedureHasThreeSteps : Obligations.DecodingProcedureHasThreeSteps := by
  intro s w rest hp
  refine ⟨step_dead hp, fun hlive => ⟨fun i => step_of_decode hp, fun hno => ?_⟩⟩
  refine step_illegal_of_healthy hp (hlive.resolve_right ?_) hno
  rintro ⟨row, hrow, -, hmatch⟩
  exact hno row hrow hmatch

/-- Settles O7, by the four ways a command ends. -/
theorem everyCommandAnswersOnce : Obligations.EveryCommandAnswersOnce :=
  ⟨exec_answers, step_next⟩

/-- Settles O60: each of the four ways a command ends has its status. -/
theorem statusCodeSaysWhatHappened : Obligations.StatusCodeSaysWhatHappened := by
  intro i s
  simp only [code_eq_one_iff, code_eq_two_iff, code_eq_three_iff, ← findsNothing_iff, ← not_executes_iff]
  rcases exec_cases i s with ⟨hdead, e⟩ | ⟨hex, t, e, ht⟩
  · have hfound : ¬ findsNothing i s := fun h => hdead (executes_of_findsNothing h)
    obtain ⟨hf, -⟩ := (not_executes_iff i s).1 hdead
    exact ⟨_, _, e, rfl, by simp [hdead, hfound, hf, respond]⟩
  · cases ht with
    | ok data hfound hfault hport => exact ⟨_, _, e, rfl, by simpa [hex, hfound] using hfault⟩
    | empty hnothing => exact ⟨_, _, e, rfl, by simp [hex, hnothing]⟩
    | raised code info hfound hhealthy => exact ⟨_, _, e, rfl, by simp [hex, hfound, hhealthy]⟩

end

section
/-! Runs that stay healthy, put together command by command, and a header given line by line (R88, R237). -/

namespace Sys2Proof.Machine

/-! ## Healthy runs -/

theorem HealthyRun.refl {s : State} (hs : Healthy s) : HealthyRun 0 s s := ⟨rfl, hs⟩

/-- A first step before a healthy run. -/
theorem HealthyRun.cons {k : Nat} {s t u : State} (h : step s = .next t) (ht : HealthyRun k t u) :
    HealthyRun (k + 1) s u := by
  obtain ⟨hrun, hu⟩ := ht
  exact ⟨(run_succ h).trans hrun, hu⟩

/-- Steps do not fault the model, so a run of `j + k` steps is one of `j` and then one of `k`. -/
theorem HealthyRun.trans {j k : Nat} {s t u : State} (hj : HealthyRun j s t) (hk : HealthyRun k t u) :
    HealthyRun (j + k) s u := by
  induction j generalizing s with
  | zero =>
    obtain ⟨hrun, -⟩ := hj
    cases hrun
    rwa [Nat.zero_add]
  | succ j ih =>
    obtain ⟨s', hs'⟩ := step_next s
    obtain ⟨hrun, ht⟩ := hj
    rw [run_succ hs'] at hrun
    rw [Nat.succ_add]
    exact (ih ⟨hrun, ht⟩).cons hs'

/-- One presented command before a healthy run. -/
theorem HealthyRun.command {k : Nat} {s t u : State} {i : Instr} {is : List Instr} {rest : List PortEvent}
    (hp : s.port = present (i :: is) ++ rest) (he : exec i { s with port := present is ++ rest } = .next t)
    (ht : HealthyRun k t u) : HealthyRun (k + 1) s u :=
  ht.cons ((step_present (decode_encode i) hp).trans he)

@[simp] theorem present_append (is js : List Instr) : present (is ++ js) = present is ++ present js :=
  List.map_append

@[simp] theorem setBytes_setBytes_same (m : Memory) (l l' : List Byte) (sp : ByteSpace) :
    (m.setBytes l sp).setBytes l' sp = m.setBytes l' sp := by
  cases sp <;> rfl

/-- Pushes into a byte space with room for them append their bytes (R67). -/
theorem healthyRun_pushes {sp : ByteSpace} {size : Nat} {push : Byte → Instr}
    (he : ∀ b s, Healthy s → exec (push b) s = .next (pushByte sp size b s)) {rest : List PortEvent} (q : List Byte)
    {s : State} (hs : Healthy s) (hl : (s.mem.bytes sp).length + q.length ≤ size)
    (hp : s.port = present (q.map push) ++ rest) :
    ∃ resp, HealthyRun q.length s
      { s with mem := s.mem.setBytes (s.mem.bytes sp ++ q) sp, port := rest, resp := resp } := by
  induction q generalizing s with
  | nil =>
    refine ⟨s.resp, ?_⟩
    have hend : { s with mem := s.mem.setBytes (s.mem.bytes sp ++ []) sp, port := rest } = s := by
      rw [List.append_nil, setBytes_bytes, ← show s.port = rest from hp]
    rw [hend]
    exact .refl hs
  | cons b q ih =>
    rw [List.length_cons] at hl
    have hpush : ∀ {u : State}, Healthy u → u.mem = s.mem →
        exec (push b) u = .next (respond .ok 0 { u with mem := s.mem.append sp b }) := by
      intro u hu hm
      rw [he b u hu, pushByte, hm, if_neg (by omega)]
    obtain ⟨resp, hrun⟩ := ih (s := respond .ok 0
      { s with mem := s.mem.append sp b, port := present (q.map push) ++ rest }) hs
      (by simp only [respond_mem, Memory.append, bytes_setBytes_same, List.length_append, List.length_singleton]; omega)
      rfl
    refine ⟨resp, .command hp (hpush hs rfl) ?_⟩
    simpa [respond, Memory.append] using hrun

/-! ## Header lines -/

theorem exec_lbClr_of_healthy {s : State} (hs : Healthy s) : exec .lbClr s = .next (clearBytes .lbuf s) := by
  rw [exec_lbClr, whenHealthy_of_healthy hs]

theorem exec_lbPush_of_healthy (b : Byte) (s : State) (hs : Healthy s) :
    exec (.lbPush b) s = .next (pushByte .lbuf Config.params.lbufSize b s) := by
  rw [exec_lbPush, whenHealthy_of_healthy hs]

theorem exec_hdrStart_of_healthy {s : State} (hs : Healthy s) : exec .hdrStart s = .next (startHeader s) := by
  rw [exec_hdrStart, whenHealthy_of_healthy hs]

theorem exec_hdrLine_of_stepped {s : State} {hit : Bool} {h : HdrRegs} (hs : Healthy s)
    (hparse : parseLine Config.params s.mem.lbuf s.hdr = .stepped hit h) :
    exec .hdrLine s = .next (respond .ok (lineData hit h.hstate) { s with hdr := h, mem.lbuf := [] }) := by
  rw [exec_hdrLine, whenHealthy_of_healthy hs, presentLine, hparse]

/-- One line given to a healthy block whose parser takes or skips it (R88, R156). -/
theorem healthyRun_line {s : State} {line : Bytes} {rest : List PortEvent} {hit : Bool} {h : HdrRegs} (hs : Healthy s)
    (hl : line.length ≤ Config.params.lbufSize) (hp : s.port = present (lineRecipe line) ++ rest)
    (hparse : parseLine Config.params line s.hdr = .stepped hit h) :
    ∃ resp, HealthyRun (lineRecipe line).length s
      { s with hdr := h, mem.lbuf := [], port := rest, resp := resp } := by
  obtain ⟨resp, hpushes⟩ := healthyRun_pushes exec_lbPush_of_healthy line (rest := present [.hdrLine] ++ rest)
    (s := clearBytes .lbuf { s with port := present (line.map .lbPush) ++ (present [.hdrLine] ++ rest) })
    hs (by simpa using hl) rfl
  have hpushed : HealthyRun line.length _ { s with mem.lbuf := line, port := present [.hdrLine] ++ rest, resp } :=
    hpushes
  refine ⟨some ⟨.ok, lineData hit h.hstate⟩, ?_⟩
  rw [lineRecipe, List.cons_append, List.length_cons, List.length_append, List.length_map]
  refine .command (by simpa [lineRecipe] using hp) (exec_lbClr_of_healthy hs) (hpushed.trans ?_)
  exact .command (is := []) (rest := rest) rfl (exec_hdrLine_of_stepped hs hparse) (.refl hs)

/-- Lines given one after another to a healthy block whose parser raises at none; where there is no line at all, LBUF
has to be empty already. -/
theorem healthyRun_lines (lines : List Bytes) {s : State} {rest : List PortEvent} {hit : Bool} {h : HdrRegs}
    (hs : Healthy s) (hempty : lines = [] → s.mem.lbuf = [])
    (hl : ∀ l ∈ lines, l.length ≤ Config.params.lbufSize)
    (hp : s.port = present (lines.flatMap lineRecipe) ++ rest)
    (hparse : parseLines Config.params lines s.hdr = .stepped hit h) :
    ∃ resp, HealthyRun (lines.flatMap lineRecipe).length s
      { s with hdr := h, mem.lbuf := [], port := rest, resp := resp } := by
  induction lines generalizing s with
  | nil =>
    cases hparse
    refine ⟨s.resp, ?_⟩
    rw [← hempty rfl, ← show s.port = rest from hp]
    exact .refl hs
  | cons line lines ih =>
    rw [List.forall_mem_cons] at hl
    obtain ⟨hfit, hfits⟩ := hl
    rw [List.flatMap_cons, present_append, List.append_assoc] at hp
    cases hstep : parseLine Config.params line s.hdr with
    | raised c info => simp [parseLines, hstep] at hparse
    | stepped hit₁ h₁ =>
      simp only [parseLines, hstep] at hparse
      obtain ⟨resp₁, hfirst⟩ := healthyRun_line hs hfit hp hstep
      obtain ⟨resp, hothers⟩ := ih (s := { s with
        hdr := h₁, mem.lbuf := [], port := present (lines.flatMap lineRecipe) ++ rest, resp := resp₁ })
        hs (fun _ => rfl) hfits rfl hparse
      rw [List.flatMap_cons, List.length_append]
      exact ⟨resp, hfirst.trans hothers⟩

end Sys2Proof.Machine

open Sys2Proof Sys2Proof.Machine

/-- Settles O56: `HDR.START` arms the parser, and the lines after it are taken one at a time. -/
theorem headerRecipeFollowsTheLines : Obligations.HeaderRecipeFollowsTheLines := by
  intro s line lines rest hit h hs hl hp hparse
  obtain ⟨resp, hrun⟩ := healthyRun_lines (line :: lines)
    (s := startHeader { s with port := present ((line :: lines).flatMap lineRecipe) ++ rest }) hs nofun hl rfl hparse
  exact ⟨_, .command hp (exec_hdrStart_of_healthy hs) hrun, rfl⟩

end

section
/-! Advancing the cursor in steps (R101, R104). -/

namespace Sys2Proof.Machine

/-- Two advances add up: the first one's position is read back whole, so only the sum of positions counts (R104). -/
theorem Cursor.advance_advance {c : Cursor} {a b : Nat} (h : c.pos + a < 2 ^ 35) :
    (c.advance a).advance b = c.advance (a + b) := by
  calc (c.advance a).advance b
      = Cursor.ofPos ((c.advance a).pos + b) := rfl
    _ = Cursor.ofPos (c.pos + (a + b)) := by rw [Cursor.advance_pos h, Nat.add_assoc]

/-- `AtEnd` as R102 states it, by the byte index; `Cursor.atEnd_iff` says it by positions. -/
theorem Cursor.atEnd_iff_byteIdx (c : Cursor) (len : Nat) : c.atEnd len = true ↔ len ≤ c.byteIdx.toNat :=
  decide_eq_true_iff

end Sys2Proof.Machine

open Sys2Proof Sys2Proof.Machine

/-- Settles O24: the cursor is its bit position, and `Advance` adds to it. -/
theorem cursorAdvancesByPositions : Obligations.CursorAdvancesByPositions := by
  refine ⟨fun c n h => ?_, fun c a b h => ?_, Cursor.atEnd_iff_byteIdx⟩
  · exact ⟨Cursor.ofPos_byteIdx_toNat h, Cursor.ofPos_bitIdx_toNat (c.pos + n)⟩
  · have first : c.pos + a < 2 ^ 35 := by
      simp only [Cursor.pos]
      omega
    exact Cursor.advance_advance first

end

section
/-! The encoder's commands by their cases: the valid modes (R110), `ENC.START` (R112), `ENC.PIX` (R118) and the pixel it
answers in each kind of mode (R114, R115, R117). -/

namespace Sys2Proof.Machine

/-! ## Modes and commands -/

/-- The nine valid modes one by one (R110). -/
theorem validMode_iff_mem (m : Nat) : validMode m = true ↔ m ∈ [1, 3, 6, 9, 12, 15, 18, 21, 24] := by
  rw [validMode_iff]
  simp only [List.mem_cons, List.not_mem_nil, or_false]
  omega

section Commands

variable {s : State}

theorem startEncode_of_valid {m : BitVec 24} (hm : validMode m.toNat = true) :
    startEncode m s = respond .ok 0 { s with emode := m.setWidth 8, cursor := Cursor.zero } := by
  rw [startEncode, if_pos hm]

theorem exec_encStart_of_valid {m : BitVec 24} (hs : Healthy s) (hm : validMode m.toNat = true) :
    exec (.encStart m) s = .next (respond .ok 0 { s with emode := m.setWidth 8, cursor := Cursor.zero }) := by
  rw [exec_encStart, whenHealthy_of_healthy hs, startEncode_of_valid hm]

theorem exec_encStart_of_invalid {m : BitVec 24} (hs : Healthy s) (hm : validMode m.toNat = false) :
    exec (.encStart m) s = .next (raise .formatError (m.setWidth 32) s) := by
  rw [exec_encStart, whenHealthy_of_healthy hs, startEncode, hm, if_neg Bool.false_ne_true]

theorem withMode_of_valid {f : Nat → State → State} (hm : validMode s.emode.toNat = true) :
    withMode f s = f s.emode.toNat s := by
  rw [withMode, if_pos hm]

theorem withMode_of_invalid {f : Nat → State → State} (hm : validMode s.emode.toNat = false) :
    withMode f s = raise .formatError (s.emode.setWidth 32) s := by
  rw [withMode, hm, if_neg Bool.false_ne_true]

theorem exec_encPix_of_invalid (hs : Healthy s) (hm : validMode s.emode.toNat = false) :
    exec .encPix s = .next (raise .formatError (s.emode.setWidth 32) s) := by
  rw [exec_encPix, whenHealthy_of_healthy hs, withMode_of_invalid hm]

theorem exec_encPix_at_end (hs : Healthy s) (hm : validMode s.emode.toNat = true)
    (hend : s.mem.pbuf.length ≤ s.cursor.byteIdx.toNat) : exec .encPix s = .next (respond .empty 0 s) := by
  rw [exec_encPix, whenHealthy_of_healthy hs, withMode_of_valid hm, onePixel_eq,
    if_pos ((Cursor.atEnd_iff_byteIdx _ _).2 hend)]

/-- Before the end of the payload `ENC.PIX` answers the mode's pixel and leaves its cursor (R118). -/
theorem exec_encPix_of_nextPixel {px : Pixel} {cur : Cursor} (hs : Healthy s) (hm : validMode s.emode.toNat = true)
    (hlt : s.cursor.byteIdx.toNat < s.mem.pbuf.length)
    (hpx : nextPixel s.mem.pbuf s.emode.toNat s.cursor = (px, cur)) :
    exec .encPix s = .next (respond .ok (px.pack.setWidth 32) { s with cursor := cur }) := by
  rw [exec_encPix, whenHealthy_of_healthy hs, withMode_of_valid hm, onePixel_eq, hpx,
    if_neg (mt (Cursor.atEnd_iff_byteIdx _ _).1 (Nat.not_le.2 hlt))]

end Commands

/-! ## The pixel of each kind of mode -/

theorem Cursor.pos_lt_of_byteIdx_lt {cur : Cursor} {len : Nat} (h : cur.byteIdx.toNat < len) : cur.pos < 8 * len := by
  have := cur.bitIdx.isLt
  simp only [Cursor.pos]
  omega

section Pixels

variable {buf : List Byte}

/-- One channel of mode 24 at byte `i` or at the end of the payload, whichever comes first (R114). -/
theorem takeByte_at (hlen : buf.length < 2 ^ 32) (i : Nat) :
    takeByte buf ⟨BitVec.ofNat 32 (min i buf.length), 0⟩ =
      (buf.getD i 0, BitVec.ofNat 2 (min 1 (buf.length - i)), ⟨BitVec.ofNat 32 (min (i + 1) buf.length), 0⟩) := by
  have hi : (BitVec.ofNat 32 (min i buf.length)).toNat = min i buf.length := by
    rw [BitVec.toNat_ofNat]
    omega
  rw [takeByte_eq rfl (by rw [hi]; omega)]
  simp only [hi]
  rcases Nat.le_total i buf.length with h | h
  · rw [Nat.min_eq_left h]
  · rw [Nat.min_eq_right h, List.getD_eq_default _ _ (Nat.le_refl _), List.getD_eq_default _ _ h,
      Nat.sub_self, Nat.sub_eq_zero_of_le h, Nat.min_eq_right (by omega : buf.length ≤ buf.length + 1),
      Nat.min_eq_right (by omega : buf.length ≤ i + 1)]

/-- The pixel of mode 24 at byte `i` of the payload: its next up to three bytes (R114). -/
theorem nextPixelBytes_at (hlen : buf.length < 2 ^ 32) {i : Nat} (hi : i ≤ buf.length) :
    nextPixelBytes buf ⟨BitVec.ofNat 32 i, 0⟩ =
      ({ nv := BitVec.ofNat 2 (min 3 (buf.length - i)), r := buf.getD i 0, g := buf.getD (i + 1) 0,
         b := buf.getD (i + 2) 0 }, ⟨BitVec.ofNat 32 (min (i + 3) buf.length), 0⟩) := by
  have hfirst := takeByte_at hlen i
  rw [Nat.min_eq_left hi] at hfirst
  have hcount : min 3 (buf.length - i) =
      min 1 (buf.length - i) + min 1 (buf.length - (i + 1)) + min 1 (buf.length - (i + 1 + 1)) := by
    omega
  simp only [nextPixelBytes, hfirst, takeByte_at hlen (i + 1), takeByte_at hlen (i + 1 + 1), hcount, BitVec.ofNat_add]

theorem zero_getMsbD (j : Nat) : (0 : Byte).getMsbD j = false := BitVec.getMsbD_zero

/-- The byte under the cursor, masked, is zero exactly when the bit under the cursor is not set (R115). -/
theorem masked_eq_zero_iff {cur : Cursor} :
    buf.getD (cur.pos / 8) 0 &&& mask cur.bitIdx = 0 ↔ bitAt buf cur.pos = false := by
  rw [← Bool.not_eq_true]
  constructor
  · intro hzero hbit
    have hone := (masked_bit (cur := cur) (Nat.mod_lt cur.pos (by decide))).2 ⟨rfl, hbit⟩
    rw [hzero, zero_getMsbD] at hone
    cases hone
  · intro hbit
    apply BitVec.eq_of_getMsbD_eq
    intro j hj
    rw [zero_getMsbD, ← Bool.not_eq_true, masked_bit hj]
    exact fun h => hbit h.2

/-- The pixel of mode 1: all three channels are the bit under the cursor (R115). -/
theorem nextPixelMono_eq {cur : Cursor} (h : cur.pos < 8 * buf.length) :
    nextPixelMono buf cur =
      (if bitAt buf cur.pos then { nv := 3, r := 0xFF, g := 0xFF, b := 0xFF } else { nv := 3, r := 0, g := 0, b := 0 },
        Cursor.ofPos (cur.pos + 1)) := by
  rw [nextPixelMono, byteUnder_of_lt h]
  simp only [masked_eq_zero_iff]
  cases bitAt buf cur.pos <;> rfl

/-- A channel holds the payload's bits of the `k` positions from `first`, each at its own place, as far as the payload
goes (R116). -/
def Lane (buf : List Byte) (k first : Nat) (v : Byte) : Prop :=
  ∀ j < 8, (v.getMsbD j = true ↔
    ∃ q, first ≤ q ∧ q < min (first + k) (8 * buf.length) ∧ q % 8 = j ∧ bitAt buf q = true)

/-- `Chan(k)` from an empty accumulator, at position `first` or at the end of the payload, whichever comes first
(R116). -/
theorem chan_lane (hlen : buf.length < 2 ^ 32) (k first : Nat) :
    ∃ v, Lane buf k first v ∧ chan buf k 0 (Cursor.ofPos (min first (8 * buf.length))) =
      (v, Cursor.ofPos (min (first + k) (8 * buf.length))) := by
  have hpos : (Cursor.ofPos (min first (8 * buf.length))).pos = min first (8 * buf.length) :=
    Cursor.pos_ofPos (by omega)
  obtain ⟨hcur, hbits⟩ := chan_spec hlen k 0 (Cursor.ofPos (min first (8 * buf.length))) (by rw [hpos]; omega)
  refine ⟨_, fun j hj => ?_, Prod.ext rfl ?_⟩
  · rw [hbits j hj, hpos, zero_getMsbD]
    simp only [Bool.false_eq_true, false_or]
    exact exists_congr fun q => and_assoc.symm.trans ((and_congr_left fun _ => by omega).trans and_assoc)
  · rw [hcur, hpos]
    congr 1
    omega

/-- The pixel of a grouped mode: three lanes side by side (R117). -/
theorem nextPixelGrouped_lanes (hlen : buf.length < 2 ^ 32) (k : Nat) {cur : Cursor} (hcur : cur.pos ≤ 8 * buf.length) :
    ∃ px : Pixel, px.nv = 3 ∧ Lane buf k cur.pos px.r ∧ Lane buf k (cur.pos + k) px.g ∧
      Lane buf k (cur.pos + 2 * k) px.b ∧
      nextPixelGrouped buf k cur = (px, Cursor.ofPos (min (cur.pos + 3 * k) (8 * buf.length))) := by
  obtain ⟨r, hr, er⟩ := chan_lane hlen k cur.pos
  obtain ⟨g, hg, eg⟩ := chan_lane hlen k (cur.pos + k)
  obtain ⟨b, hb, eb⟩ := chan_lane hlen k (cur.pos + k + k)
  rw [Nat.min_eq_left hcur, Cursor.ofPos_pos] at er
  rw [show cur.pos + 2 * k = cur.pos + k + k by omega, show cur.pos + 3 * k = cur.pos + k + k + k by omega]
  exact ⟨{ nv := 3, r, g, b }, rfl, hr, hg, hb, by simp only [nextPixelGrouped, er, eg, eb]⟩

end Pixels

end Sys2Proof.Machine

open Sys2Proof Sys2Proof.Machine

/-- Settles O25. -/
theorem validModesAreNine : Obligations.ValidModesAreNine := by
  refine ⟨validMode_iff_mem, fun m hm => ?_⟩
  simp only [List.mem_cons, List.not_mem_nil, or_false] at hm
  simp only [bitsPerChannel]
  omega

/-- Settles O26: `EMODE` and `ERRINFO` hold the operand cut or widened to their width. -/
theorem startLatchesModeOrFails : Obligations.StartLatchesModeOrFails := by
  intro s m hs
  rw [← validMode_iff_mem, BitVec.ofNat_toNat, BitVec.ofNat_toNat]
  refine ⟨fun hm => exec_encStart_of_valid hs hm, fun hm => exec_encStart_of_invalid hs ?_⟩
  rwa [Bool.not_eq_true] at hm

/-- Settles O27. -/
theorem onePixelOrEmptyOrFormatError : Obligations.OnePixelOrEmptyOrFormatError :=
  fun _ hs => ⟨fun hm => exec_encPix_of_invalid hs hm, fun hm hend => exec_encPix_at_end hs hm hend,
    fun hm hlt => exec_encPix_of_nextPixel hs hm hlt rfl⟩

/-- Settles O28: an aligned cursor is at a byte, and each channel takes one. -/
theorem bytesModePixelTakesThreeBytes : Obligations.BytesModePixelTakesThreeBytes := by
  intro s hs hm haligned hlen hlt
  have hcur : s.cursor = ⟨BitVec.ofNat 32 s.cursor.byteIdx.toNat, 0⟩ := by
    rw [← haligned, BitVec.ofNat_toNat, BitVec.setWidth_eq]
  refine exec_encPix_of_nextPixel hs (by rw [hm]; rfl) hlt ?_
  rw [hm]
  exact (congrArg _ hcur).trans (nextPixelBytes_at hlen hlt.le)

/-- Settles O29: the packed pixel is all ones or all zeros below its `nv`. -/
theorem monoModePixelTakesOneBit : Obligations.MonoModePixelTakesOneBit := by
  intro s hs hm hlen hlt
  have hmode : s.emode.toNat = 1 := by rw [hm]; rfl
  have hpx := nextPixelMono_eq (Cursor.pos_lt_of_byteIdx_lt hlt)
  rw [exec_encPix_of_nextPixel hs (by rw [hmode]; rfl) hlt
    ((congrArg (nextPixel s.mem.pbuf · s.cursor) hmode).trans hpx)]
  cases bitAt s.mem.pbuf s.cursor.pos <;> rfl

/-- Settles O30: the three channels are three lanes of `k` positions, one behind the other. -/
theorem groupedModePixelKeepsNativePositions : Obligations.GroupedModePixelKeepsNativePositions := by
  intro s hs hm hlen hlt
  simp only [List.mem_cons, List.not_mem_nil, or_false] at hm
  obtain ⟨px, hnv, hr, hg, hb, hpx⟩ :=
    nextPixelGrouped_lanes hlen (s.emode.toNat / 3) (Cursor.pos_lt_of_byteIdx_lt hlt).le
  refine ⟨px, hnv, hr, hg, hb, exec_encPix_of_nextPixel hs ?_ hlt ?_⟩
  · rw [validMode_iff]
    omega
  · rw [nextPixel, if_neg (by omega), if_neg (by omega)]
    exact hpx

end

section
/-! The pixels of a whole encode (R119, R120): how many there are, and how an `ENC.RUN` that stops at a full queue
splits them. -/

namespace Sys2Proof.Machine

section Encode

variable {buf : List Byte} {m turns : Nat} {cur : Cursor}

/-- The encode from a cursor before the end of the payload: one pixel, then the encode from the cursor after it; a bound
on the turns that covers the bits left covers those left then (R113). -/
theorem encodeFrom_eq_cons (hlen : buf.length < 2 ^ 32) (hm : validMode m = true) (hcur : cur.Within buf.length m)
    (hturns : 8 * buf.length - cur.pos ≤ turns) (he : cur.atEnd buf.length = false) :
    encodeFrom buf m turns cur = (nextPixel buf m cur).1 :: encodeFrom buf m turns (nextPixel buf m cur).2 := by
  have hlt := (cur.not_atEnd_iff _).1 he
  have hpos := nextPixel_pos hlen hm hlt hcur.aligned
  have hnext := nextPixel_within hlen hm hcur he
  have hm1 : 1 ≤ m := by
    rw [validMode_iff] at hm
    omega
  obtain ⟨turns, rfl⟩ : ∃ n, turns = n + 1 := ⟨turns - 1, by omega⟩
  rw [encodeFrom_succ he, encodeFrom_turns hlen hm turns (turns + 1) _ hnext.aligned (by omega) (by omega)]

theorem encodeFrom_eq_nil_iff (hturns : 8 * buf.length - cur.pos ≤ turns) :
    encodeFrom buf m turns cur = [] ↔ cur.atEnd buf.length = true := by
  refine ⟨fun hnil => ?_, fun he => encodeFrom_atEnd he turns⟩
  by_contra he
  rw [Bool.not_eq_true] at he
  have hlt := (cur.not_atEnd_iff _).1 he
  obtain ⟨turns, rfl⟩ : ∃ n, turns = n + 1 := ⟨turns - 1, by omega⟩
  rw [encodeFrom_succ he] at hnil
  cases hnil

/-- The number of pixels left: the bits left, divided by the bits of a pixel and rounded up. -/
theorem encodeFrom_length (hlen : buf.length < 2 ^ 32) (hm : validMode m = true) (hcur : cur.Within buf.length m)
    (hturns : 8 * buf.length - cur.pos ≤ turns) :
    (encodeFrom buf m turns cur).length = (8 * buf.length - cur.pos + m - 1) / m := by
  have hm1 : 1 ≤ m := by
    rw [validMode_iff] at hm
    omega
  have hnone : ∀ bits, bits = 0 → (bits + m - 1) / m = 0 := by
    rintro _ rfl
    exact Nat.div_eq_of_lt (by omega)
  induction turns generalizing cur with
  | zero => exact (hnone _ (by omega)).symm
  | succ turns ih =>
    cases he : cur.atEnd buf.length with
    | true =>
      have hend := (cur.atEnd_iff _).1 he
      rw [encodeFrom_atEnd he]
      exact (hnone _ (by omega)).symm
    | false =>
      have hlt := (cur.not_atEnd_iff _).1 he
      have hpos := nextPixel_pos hlen hm hlt hcur.aligned
      rw [encodeFrom_succ he, List.length_cons, ih (nextPixel_within hlen hm hcur he) (by omega), hpos]
      by_cases hlast : cur.pos + m ≤ 8 * buf.length
      · rw [← Nat.add_div_right _ hm1]
        congr 1
        omega
      · rw [hnone _ (by omega), Nat.div_eq_of_lt_le (k := 1) (by omega) (by omega)]

theorem codecEncode_length {p : List Byte} (hlen : p.length < 2 ^ 32) (hm : validMode m = true) :
    (codecEncode p m).length = (8 * p.length + m - 1) / m :=
  encodeFrom_length hlen hm (Cursor.zero_within _ _) (Nat.sub_le _ _)

/-- After `n` pixels the encode goes on with the rest: it resumes where it stopped (R119). -/
theorem encodeFrom_iterate (hlen : buf.length < 2 ^ 32) (hm : validMode m = true) (hcur : cur.Within buf.length m)
    (hturns : 8 * buf.length - cur.pos ≤ turns) {n : Nat} (hn : n ≤ (encodeFrom buf m turns cur).length) :
    encodeFrom buf m turns ((fun c => (nextPixel buf m c).2)^[n] cur) = (encodeFrom buf m turns cur).drop n := by
  induction n generalizing cur with
  | zero => rfl
  | succ n ih =>
    have he : cur.atEnd buf.length = false := by
      by_contra he
      rw [Bool.not_eq_false] at he
      rw [encodeFrom_atEnd he] at hn
      exact Nat.not_succ_le_zero n hn
    have hpos := nextPixel_pos hlen hm ((cur.not_atEnd_iff _).1 he) hcur.aligned
    have hless : 8 * buf.length - (nextPixel buf m cur).2.pos ≤ turns := by omega
    rw [encodeFrom_eq_cons hlen hm hcur hturns he] at hn ⊢
    exact ih (nextPixel_within hlen hm hcur he) hless (Nat.le_of_succ_le_succ hn)

end Encode

/-! ## `ENC.RUN` -/

section Run

variable {s : State}

theorem exec_encRun_of_invalid (hs : Healthy s) (hm : validMode s.emode.toNat = false) :
    exec .encRun s = .next (raise .formatError (s.emode.setWidth 32) s) := by
  rw [exec_encRun, whenHealthy_of_healthy hs, withMode_of_invalid hm]

theorem exec_encRun_of_valid (hs : Healthy s) (hm : validMode s.emode.toNat = true) :
    exec .encRun s = .next (runEncode Config.params.pixqSize s.emode.toNat s) := by
  rw [exec_encRun, whenHealthy_of_healthy hs, withMode_of_valid hm]

/-- The pixels that the encode of a block has left. -/
def leftToEncode (s : State) : List Pixel :=
  encodeFrom s.mem.pbuf s.emode.toNat (8 * s.mem.pbuf.length) s.cursor

/-- `ENC.RUN` by the number of pixels it makes: as many as the queue has room for and the encode has left (R119). -/
theorem runEncode_eq_of_count {size n : Nat} (hn : n = min (size - s.mem.pixq.length) (leftToEncode s).length) :
    runEncode size s.emode.toNat s = { s with
      mem.pixq := s.mem.pixq ++ (leftToEncode s).take n,
      cursor := (fun c => (nextPixel s.mem.pbuf s.emode.toNat c).2)^[n] s.cursor,
      resp := some ⟨.ok, BitVec.ofNat 32 n⟩ } := by
  have hpixels : (runResult size s.emode.toNat s).1 = (leftToEncode s).take n := by
    rw [runResult, encodeRun_pixels, leftToEncode, List.take_eq_take_iff, hn, leftToEncode]
    omega
  have hcount : (runResult size s.emode.toNat s).1.length = n := by
    rw [hpixels, List.length_take, hn]
    omega
  have hcursor : (runResult size s.emode.toNat s).2 =
      (fun c => (nextPixel s.mem.pbuf s.emode.toNat c).2)^[n] s.cursor := by
    rw [← hcount]
    exact encodeRun_cursor _ _ _ _ _
  rw [runEncode_eq, hcount, hpixels, hcursor]
  rfl

end Run

end Sys2Proof.Machine

open Sys2Proof Sys2Proof.Machine

/-- Settles O31: the pixels left, split at the room of the queue; where the split is not at the room it is at their
end, which is the end of the payload. -/
theorem runAppendsPixelsUntilFullOrDone : Obligations.RunAppendsPixelsUntilFullOrDone := by
  intro s hs
  refine ⟨fun hm => exec_encRun_of_invalid hs hm, fun hm hinv => ?_⟩
  intro turns all n
  have hlen := wf_pbuf_lt hinv.mem_wf
  have hrest : encodeFrom s.mem.pbuf s.emode.toNat turns
      ((fun c => (nextPixel s.mem.pbuf s.emode.toNat c).2)^[n] s.cursor) = all.drop n :=
    encodeFrom_iterate hlen hm hinv.within (Nat.sub_le _ _) (Nat.min_le_right _ _)
  refine ⟨_, exec_encRun_of_valid hs hm, runEncode_eq_of_count rfl, ?_, ?_⟩ <;>
    rw [runEncode_eq_of_count (n := n) rfl]
  · obtain ⟨-, hroom, -⟩ := hinv.mem_wf
    by_cases hn : n = all.length
    · rw [hn, List.drop_length, encodeFrom_eq_nil_iff (Nat.sub_le _ _), Cursor.atEnd_iff_byteIdx] at hrest
      rw [hn]
      exact .inl hrest
    · have htake : (all.take n).length = n := by
        rw [List.length_take]
        omega
      refine .inr ?_
      simp only [List.length_append]
      rw [show (leftToEncode s).take n = all.take n from rfl, htake]
      omega
  · exact hrest

/-- Settles O32: the bits of the payload, divided by the mode and rounded up; at mode 24 both are multiples of 8. -/
theorem encodeLengthIsTheTables : Obligations.EncodeLengthIsTheTables := by
  intro p m hm hlen
  rw [codecEncode_length hlen hm]
  split_ifs with h24 h1 <;> subst_vars <;> omega

end

section
/-! The forward recipe on the block (R236): the repeated `ENC.RUN` and `PQ.POP` hand over the pixels of the encode one
by one, whatever the size of the queue, and the runs made of it hand over a whole container (R226, R228). -/

namespace Sys2Proof

theorem Params.pixqSize_pos (p : Params) : 0 < p.pixqSize := Nat.succ_pos _

theorem Params.lt_of_le_pbufSize (p : Params) {n : Nat} (h : n ≤ p.pbufSize) : n < 2 ^ 32 := by
  have := p.pbufTop.isLt
  simp only [Params.pbufSize] at h
  omega

end Sys2Proof

namespace Sys2Proof.Machine

/-! ## An encode under way -/

/-- A healthy block with an encode under way: a valid mode is latched and the cursor is where its pixels leave it. -/
structure Encoding (s : State) : Prop where
  healthy : Healthy s
  valid : validMode s.emode.toNat = true
  payload_lt : s.mem.pbuf.length < 2 ^ 32
  within : s.cursor.Within s.mem.pbuf.length s.emode.toNat

/-- The pixels still to be popped: those queued, then those that the encode has left. -/
def pendingPixels (s : State) : List Pixel := s.mem.pixq ++ leftToEncode s

/-- Every turn makes at most one pixel (R113). -/
theorem encodeFrom_length_le (buf : List Byte) (m turns : Nat) (cur : Cursor) :
    (encodeFrom buf m turns cur).length ≤ turns := by
  induction turns generalizing cur with
  | zero => rfl
  | succ turns ih =>
    cases he : cur.atEnd buf.length with
    | true => simp [encodeFrom_atEnd he]
    | false =>
      rw [encodeFrom_succ he]
      exact Nat.succ_le_succ (ih _)

section Pending

variable {s : State}

theorem leftToEncode_eq_nil_iff : leftToEncode s = [] ↔ s.cursor.atEnd s.mem.pbuf.length = true :=
  encodeFrom_eq_nil_iff (Nat.sub_le _ _)

theorem pendingPixels_eq_nil_iff :
    pendingPixels s = [] ↔ s.mem.pixq = [] ∧ s.cursor.atEnd s.mem.pbuf.length = true := by
  rw [pendingPixels, List.append_eq_nil_iff, leftToEncode_eq_nil_iff]

/-- At the end of the payload the cursor is just behind its last byte. -/
theorem Encoding.cursor_at_end (h : Encoding s) (he : s.cursor.atEnd s.mem.pbuf.length = true) :
    s.cursor = ⟨BitVec.ofNat 32 s.mem.pbuf.length, 0⟩ := by
  have hpos : s.cursor.pos = 8 * s.mem.pbuf.length := le_antisymm h.within.pos_le ((Cursor.atEnd_iff _ _).1 he)
  rw [← s.cursor.ofPos_pos, hpos, Cursor.ofPos]
  simp

/-- The test that ends the recipe says that no pixel is left to be popped (R236). -/
theorem encodeDrained_iff : encodeDrained (statusWord s) = true ↔ pendingPixels s = [] := by
  rw [encodeDrained_statusWord, pendingPixels_eq_nil_iff, Cursor.atEnd_iff_byteIdx, Bool.and_eq_true,
    decide_eq_true_iff, decide_eq_true_iff, and_comm]

/-- `ENC.RUN` moves pixels from the encode to the queue: none is lost and none is made twice (R119). -/
theorem runEncode_pending (h : Encoding s) (size : Nat) :
    pendingPixels (runEncode size s.emode.toNat s) = pendingPixels s := by
  rw [runEncode_eq_of_count rfl]
  have hrest : leftToEncode { s with
      cursor := (fun c => (nextPixel s.mem.pbuf s.emode.toNat c).2)^[
        min (size - s.mem.pixq.length) (leftToEncode s).length] s.cursor } =
      (leftToEncode s).drop (min (size - s.mem.pixq.length) (leftToEncode s).length) :=
    encodeFrom_iterate h.payload_lt h.valid h.within (Nat.sub_le _ _) (Nat.min_le_right _ _)
  calc s.mem.pixq ++ (leftToEncode s).take _ ++ leftToEncode _
      = s.mem.pixq ++ ((leftToEncode s).take _ ++ (leftToEncode s).drop _) := by rw [← hrest, List.append_assoc]; rfl
    _ = pendingPixels s := by rw [List.take_append_drop, pendingPixels]

theorem runEncode_encoding (h : Encoding s) (size : Nat) : Encoding (runEncode size s.emode.toNat s) :=
  ⟨h.healthy, h.valid, h.payload_lt, encodeRun_within h.payload_lt h.valid _ _ h.within⟩

/-- After `ENC.RUN`, however small the queue, the queue is empty only when no pixel is left (R119). -/
theorem runEncode_pixq_eq_nil_iff {size : Nat} (hsize : 0 < size) :
    (runEncode size s.emode.toNat s).mem.pixq = [] ↔ pendingPixels s = [] := by
  have htake : (leftToEncode s).take (min (size - s.mem.pixq.length) (leftToEncode s).length) = [] ↔
      size - s.mem.pixq.length = 0 ∨ leftToEncode s = [] := by
    rw [List.take_eq_nil_iff, ← List.length_eq_zero_iff]
    omega
  rw [runEncode_eq_of_count rfl, pendingPixels, List.append_eq_nil_iff, List.append_eq_nil_iff, htake]
  refine and_congr_right fun hq => or_iff_right ?_
  rw [hq, List.length_nil]
  omega

theorem withPixq_encoding (h : Encoding s) (q : List Pixel) : Encoding { s with mem.pixq := q } :=
  ⟨h.healthy, h.valid, h.payload_lt, h.within⟩

theorem respond_encoding (h : Encoding s) (st : RespStatus) (data : Word) : Encoding (respond st data s) :=
  ⟨h.healthy, h.valid, h.payload_lt, h.within⟩

theorem startEncode_encoding {m : BitVec 24} (hs : Healthy s) (hm : validMode m.toNat = true)
    (hlen : s.mem.pbuf.length < 2 ^ 32) : Encoding (startEncode m s) := by
  rw [startEncode_of_valid hm]
  exact ⟨hs, (toNat_setWidth_of_validMode hm).symm ▸ hm, hlen, Cursor.zero_within _ _⟩

/-- With the queue empty, the pixels of an encode just begun are those of the whole payload (R120). -/
theorem startEncode_pending {m : BitVec 24} (hm : validMode m.toNat = true) (hempty : s.mem.pixq = []) :
    pendingPixels (startEncode m s) = codecEncode s.mem.pbuf m.toNat := by
  rw [startEncode_of_valid hm, codecEncode, ← toNat_setWidth_of_validMode hm]
  exact congrArg (· ++ _) hempty

end Pending

/-! ## Draining the encode -/

/-- Pixels written as a row from column `j` on (R223). -/
def declsFrom (rowIndex j : Nat) (pixels : List Pixel) : List PixelDecl :=
  (pixels.zipIdx j).map fun (px, x) => { x, y := rowIndex, r := px.r, g := px.g, b := px.b }

theorem writeRow_eq_declsFrom (rowIndex : Nat) (pixels : List Pixel) :
    writeRow rowIndex pixels = declsFrom rowIndex 0 pixels := rfl

theorem declsFrom_cons (rowIndex j : Nat) (px : Pixel) (pixels : List Pixel) :
    declsFrom rowIndex j (px :: pixels) =
      { x := j, y := rowIndex, r := px.r, g := px.g, b := px.b } :: declsFrom rowIndex (j + 1) pixels := rfl

theorem popDecl_pack (rowIndex j : Nat) (px : Pixel) :
    popDecl rowIndex j (px.pack.setWidth 32) = { x := j, y := rowIndex, r := px.r, g := px.g, b := px.b } := by
  rw [popDecl, Pixel.unpack_pack]

section Drain

variable {α : Type} {s : State}

theorem answer_encRun (h : Encoding s) : ∃ n, answer .encRun s =
    (⟨.ok, n⟩, runEncode Config.params.pixqSize s.emode.toNat s) :=
  ⟨_, answer_of_exec (decode_encode _) (exec_encRun_of_valid h.healthy h.valid) rfl⟩

theorem answer_pqPop_nil (hq : s.mem.pixq = []) : answer .pqPop s = (⟨.empty, 0⟩, respond .empty 0 s) := by
  refine answer_of_exec (decode_encode _) ?_ rfl
  rw [exec_pqPop, popPixel, hq]

/-- The end test of the recipe: the program goes on exactly while pixels are left (R236). -/
theorem run_untilDrained (next again : Script α) (s : State) :
    (Script.ask (.rd 0x01) fun status => if encodeDrained status.data then next else again).run s =
      if pendingPixels s = [] then next.run (respond .ok (statusWord s) s)
      else again.run (respond .ok (statusWord s) s) := by
  rw [run_ask (r := ⟨.ok, statusWord s⟩) (answer_of_exec (decode_encode _) (exec_rd _ s) rfl) rfl]
  simp only [encodeDrained_iff]
  split_ifs <;> rfl

/-- A block whose encode is drained, at the end of its payload with the queue empty. -/
def drained (s : State) (resp : Option Response) : State :=
  { s with cursor := ⟨BitVec.ofNat 32 s.mem.pbuf.length, 0⟩, mem.pixq := [], resp := resp }

theorem Encoding.eq_drained (h : Encoding s) (hp : pendingPixels s = []) : s = drained s s.resp := by
  obtain ⟨hq, he⟩ := pendingPixels_eq_nil_iff.1 hp
  rw [drained, ← h.cursor_at_end he, ← hq]

/-- One turn of the recipe where no pixel is left: nothing is popped and the program goes on. -/
theorem run_drainEncode_of_nil (line : PixelDecl → α) (rowIndex : Nat) (next : Script α) (turns j : Nat)
    (h : Encoding s) (hp : pendingPixels s = []) :
    ∃ resp, (drainEncode line rowIndex next (turns + 1) j).run s = next.run (drained s resp) := by
  obtain ⟨n, hrun⟩ := answer_encRun h
  have ht := runEncode_encoding h Config.params.pixqSize
  have hpt := (runEncode_pending h Config.params.pixqSize).trans hp
  have hdrained := ht.eq_drained hpt
  obtain ⟨hq, -⟩ := pendingPixels_eq_nil_iff.1 hpt
  rw [drainEncode, run_ask hrun rfl, run_ask (answer_pqPop_nil hq) rfl, if_neg (by simp), run_untilDrained,
    if_pos (by exact hpt), hdrained]
  exact ⟨_, rfl⟩

/-- With a pixel queued, `PQ.POP` answers the first of those to be popped and leaves the others (R186). -/
theorem answer_pqPop_of_cons (h : Encoding s) (hne : s.mem.pixq ≠ []) {px : Pixel} {rest : List Pixel}
    (hp : pendingPixels s = px :: rest) :
    ∃ t, answer .pqPop s = (⟨.ok, px.pack.setWidth 32⟩, t) ∧ Encoding t ∧ pendingPixels t = rest ∧
      ∀ resp, drained t resp = drained s resp := by
  obtain ⟨head, queued, hq⟩ := List.exists_cons_of_ne_nil hne
  rw [pendingPixels, hq, List.cons_append, List.cons.injEq] at hp
  obtain ⟨rfl, hrest⟩ := hp
  refine ⟨respond .ok (head.pack.setWidth 32) { s with mem.pixq := queued }, answer_of_exec (decode_encode _) ?_ rfl,
    respond_encoding (withPixq_encoding h queued) _ _, hrest, fun _ => rfl⟩
  rw [exec_pqPop, popPixel, hq]

/-- One turn of the recipe where pixels are left: the first of them goes out, and the program goes on unless it was the
last. -/
theorem run_drainEncode_of_cons (line : PixelDecl → α) (rowIndex : Nat) (next : Script α) (turns j : Nat)
    (h : Encoding s) {px : Pixel} {rest : List Pixel} (hp : pendingPixels s = px :: rest) :
    ∃ t, Encoding t ∧ pendingPixels t = rest ∧ (∀ resp, drained t resp = drained s resp) ∧
      (drainEncode line rowIndex next (turns + 1) j).run s =
        (Script.emit (line { x := j, y := rowIndex, r := px.r, g := px.g, b := px.b })
          (if rest = [] then next else drainEncode line rowIndex next turns (j + 1))).run t := by
  obtain ⟨n, hrun⟩ := answer_encRun h
  have hne : (runEncode Config.params.pixqSize s.emode.toNat s).mem.pixq ≠ [] := by
    rw [Ne, runEncode_pixq_eq_nil_iff Config.params.pixqSize_pos, hp]
    exact List.cons_ne_nil _ _
  obtain ⟨t, hpop, ht, hrest, hdrained⟩ := answer_pqPop_of_cons (runEncode_encoding h Config.params.pixqSize) hne
    ((runEncode_pending h Config.params.pixqSize).trans hp)
  refine ⟨respond .ok (statusWord t) t, respond_encoding ht _ _, hrest, hdrained, ?_⟩
  rw [drainEncode, run_ask hrun rfl, run_ask hpop rfl, if_pos rfl, run_emit, run_emit, run_untilDrained, popDecl_pack,
    hrest]
  split_ifs <;> rfl

/-- The repeated `ENC.RUN` and `PQ.POP` hand over the pixels left, one a turn, and leave the encode drained (R236). -/
theorem run_drainEncode (line : PixelDecl → α) (rowIndex : Nat) (next : Script α) (turns j : Nat) (h : Encoding s)
    (hturns : (pendingPixels s).length ≤ turns) :
    ∃ resp, (drainEncode line rowIndex next (turns + 1) j).run s =
      (Script.emits ((declsFrom rowIndex j (pendingPixels s)).map line) next).run (drained s resp) := by
  induction turns generalizing s j with
  | zero =>
    have hp := List.length_eq_zero_iff.1 (Nat.le_zero.1 hturns)
    rw [hp]
    exact run_drainEncode_of_nil line rowIndex next 0 j h hp
  | succ turns ih =>
    cases hp : pendingPixels s with
    | nil => exact run_drainEncode_of_nil line rowIndex next _ j h hp
    | cons px rest =>
      obtain ⟨t, ht, hrest, hdrained, hrun⟩ := run_drainEncode_of_cons line rowIndex next (turns + 1) j h hp
      rw [hp, List.length_cons] at hturns
      rw [hrun, declsFrom_cons, List.map_cons, Script.emits, run_emit]
      by_cases hlast : rest = []
      · rw [if_pos hlast, hlast, ht.eq_drained (hrest.trans hlast), hdrained]
        exact ⟨_, rfl⟩
      · obtain ⟨resp, hothers⟩ := ih (j + 1) ht (by rw [hrest]; omega)
        rw [if_neg hlast, hothers, hrest, hdrained]
        exact ⟨resp, rfl⟩

end Drain

/-! ## One packet -/

section Packet

variable {α : Type} {s : State}

theorem asks_append (is js : List Instr) (next : Script α) :
    Script.asks (is ++ js) next = Script.asks is (Script.asks js next) := by
  induction is with
  | nil => rfl
  | cons i is ih => simp only [List.cons_append, Script.asks, ih]

theorem exec_pbPush_of_healthy (b : Byte) (s : State) (hs : s.fault = false) :
    exec (.pbPush b) s = .next (pushByte .pbuf Config.params.pbufSize b s) := by
  rw [exec_pbPush, whenHealthy_of_healthy hs]

/-- `PB.LOAD q`: the payload is `q` and the cursor is rewound (R88, R180, R181). -/
theorem run_loadPayload (next : Script α) {q : List Byte} (hs : Healthy s) (hq : q.length ≤ Config.params.pbufSize) :
    ∃ resp, (Script.asks (.pbClr :: q.map .pbPush) next).run s =
      next.run { s with cursor := Cursor.zero, mem.pbuf := q, resp := resp } := by
  have hclr : answer .pbClr s = (⟨.ok, 0⟩, clearPayload s) :=
    answer_of_exec (decode_encode _) (by rw [exec_pbClr, whenHealthy_of_healthy hs]) rfl
  obtain ⟨resp, -, hpushes⟩ := run_pushes (fun b => decode_encode (.pbPush b)) exec_pbPush_of_healthy next q
    (clearPayload s) hs (by simpa using hq)
  exact ⟨resp, by rw [Script.asks, run_ask hclr rfl, hpushes]; rfl⟩

theorem run_encStart_of_valid (next : Script α) {m : BitVec 24} (hs : Healthy s) (hm : validMode m.toNat = true) :
    (Script.asks [.encStart m] next).run s = next.run (startEncode m s) := by
  have he : exec (.encStart m) s = .next (startEncode m s) := by rw [exec_encStart, whenHealthy_of_healthy hs]
  have hresp : (startEncode m s).resp = some ⟨.ok, 0⟩ := by
    rw [startEncode_of_valid hm]
    rfl
  rw [Script.asks, run_ask (answer_of_exec (decode_encode _) he hresp) rfl, Script.asks]

theorem run_encStart_of_invalid (next : Script α) {m : BitVec 24} (hs : Healthy s) (hm : validMode m.toNat = false) :
    (Script.asks [.encStart m] next).run s =
      { out := [], fault := some 1, block := raise .formatError (m.setWidth 32) s } := by
  rw [Script.asks, run_ask_faulted (answer_of_exec (decode_encode _) (exec_encStart_of_invalid hs hm) rfl) rfl]
  rfl

/-- The recipe for one packet at a valid mode does what handing over the declarations of its encode does, on the block
with that encode drained (R236). -/
theorem run_forwardScript_of_valid (line : PixelDecl → α) {m : BitVec 24} (rowIndex : Nat) {q : List Byte}
    (next : Script α) (hs : Healthy s) (hempty : s.mem.pixq = []) (hq : q.length ≤ Config.params.pbufSize)
    (hm : validMode m.toNat = true) :
    ∃ resp, (forwardScript line m rowIndex q next).run s =
      (Script.emits ((writeRow rowIndex (codecEncode q m.toNat)).map line) next).run
        { s with cursor := ⟨BitVec.ofNat 32 q.length, 0⟩, emode := m.setWidth 8, mem.pbuf := q, resp := resp } := by
  obtain ⟨resp, hload⟩ := run_loadPayload
    (Script.asks [.encStart m] (drainEncode line rowIndex next (8 * q.length + 1) 0)) hs hq
  have hstarted : Encoding (startEncode m { s with cursor := Cursor.zero, mem.pbuf := q, resp := resp }) :=
    startEncode_encoding hs hm (Config.params.lt_of_le_pbufSize hq)
  have hpending : pendingPixels (startEncode m { s with cursor := Cursor.zero, mem.pbuf := q, resp := resp }) =
      codecEncode q m.toNat :=
    startEncode_pending hm hempty
  obtain ⟨resp', hdrain⟩ := run_drainEncode line rowIndex next (8 * q.length) 0 hstarted
    (by rw [hpending]; exact encodeFrom_length_le _ _ _ _)
  refine ⟨resp', ?_⟩
  rw [forwardScript, asks_append, hload, run_encStart_of_valid _ (by exact hs) hm, hdrain, hpending,
    ← writeRow_eq_declsFrom, startEncode_of_valid hm, drained, ← hempty]
  rfl

/-- At an invalid mode the recipe ends with `FormatError` before any pixel, the packet loaded (R112). -/
theorem run_forwardScript_of_invalid (line : PixelDecl → α) {m : BitVec 24} (rowIndex : Nat) {q : List Byte}
    (next : Script α) (hs : Healthy s) (hq : q.length ≤ Config.params.pbufSize) (hm : validMode m.toNat = false) :
    (forwardScript line m rowIndex q next).run s =
      { out := [], fault := some 1,
        block := raise .formatError (m.setWidth 32) { s with cursor := Cursor.zero, mem.pbuf := q } } := by
  obtain ⟨resp, hload⟩ := run_loadPayload
    (Script.asks [.encStart m] (drainEncode line rowIndex next (8 * q.length + 1) 0)) hs hq
  rw [forwardScript, asks_append, hload, run_encStart_of_invalid _ (by exact hs) hm]
  rfl

end Packet

/-! ## A whole run -/

section Container

variable {s : State}

theorem transformPayload_length (g : Gate) (op : Byte) (p : List Byte) : (transformPayload g op p).length = p.length :=
  List.length_map _

/-- The recipes for packets at a valid mode do what handing over the declarations of all their rows does, on a block
that is healthy and has its queue empty. -/
theorem run_forwardRows_of_valid (cfg : ForwardConfig) (next : Script Bytes) (rows : List (Nat × List Byte))
    (hs : Healthy s) (hempty : s.mem.pixq = []) (hfit : ∀ row ∈ rows, row.2.length ≤ Config.params.pbufSize)
    (hm : validMode cfg.mode.toNat = true) :
    ∃ t, Healthy t ∧ (forwardRows cfg next rows).run s =
      (Script.emits ((rows.flatMap fun row => packetDecls cfg row.1 row.2).map cfg.format.declLine) next).run t := by
  induction rows generalizing s with
  | nil => exact ⟨s, hs, rfl⟩
  | cons row rows ih =>
    obtain ⟨hrow, hrows⟩ := List.forall_mem_cons.1 hfit
    obtain ⟨resp, hfirst⟩ := run_forwardScript_of_valid cfg.format.declLine row.1 (forwardRows cfg next rows) hs hempty
      (q := transformPayload cfg.gate cfg.operand row.2) (by rwa [transformPayload_length]) hm
    obtain ⟨t, ht, hothers⟩ := ih (s := { s with
      cursor := ⟨BitVec.ofNat 32 (transformPayload cfg.gate cfg.operand row.2).length, 0⟩, emode := cfg.mode.setWidth 8,
      mem.pbuf := transformPayload cfg.gate cfg.operand row.2, resp := resp }) hs hempty hrows
    refine ⟨t, ht, ?_⟩
    rw [forwardRows, hfirst, run_emits, hothers, run_emits, run_emits, List.flatMap_cons, List.map_append,
      List.append_assoc]
    rfl

theorem packetRows_payload (cfg : ForwardConfig) (first : Capture) (j : Nat) (packets : List Capture) :
    (packetRows cfg first j packets).map Prod.snd = packets.map Capture.payload := by
  induction packets generalizing j with
  | nil => rfl
  | cons c packets ih => rw [packetRows, List.map_cons, List.map_cons, ih]

/-- Each packet has one row, of its own payload (R223). -/
theorem captureRows_payload (cfg : ForwardConfig) (packets : List Capture) :
    (captureRows cfg packets).map Prod.snd = packets.map Capture.payload := by
  cases packets with
  | nil => rfl
  | cons first packets => exact packetRows_payload cfg first 0 _

theorem captureRows_fit {cfg : ForwardConfig} {packets : List Capture} {size : Nat}
    (h : ∀ c ∈ packets, c.payload.length ≤ size) : ∀ row ∈ captureRows cfg packets, row.2.length ≤ size := by
  intro row hrow
  have hmem := List.mem_map_of_mem (f := Prod.snd) hrow
  rw [captureRows_payload] at hmem
  obtain ⟨c, hc, hpayload⟩ := List.mem_map.1 hmem
  exact hpayload ▸ h c hc

/-- A run of a host program delivers what a flow hands over: the same outputs, and the flow's error is the one that the
response carries and the fault registers hold (R233, R260). -/
structure Delivers (got : ScriptRun Bytes) (want : FlowResult Bytes) : Prop where
  out_eq : got.out = want.out
  fault_eq : got.fault = want.error.map fun e => e.1.code.setWidth 32
  latched : ∀ e, want.error = some e → got.block.err = e.1.code ∧ got.block.errInfo = e.2

/-- Outputs handed over first are the first of those delivered. -/
theorem Delivers.emits {next : Script Bytes} {want : FlowResult Bytes} (h : Delivers (next.run s) want)
    (lines : List Bytes) : Delivers ((Script.emits lines next).run s) { want with out := lines ++ want.out } := by
  rw [run_emits]
  exact ⟨congrArg (lines ++ ·) h.out_eq, h.fault_eq, h.latched⟩

/-- What the forward flow hands over after its last packet. -/
def forwardEnding (cfg : ForwardConfig) : SourceEnd → FlowResult Bytes
  | .endOfStream => { out := [cfg.format.terminatorLine], error := none }
  | .error => { out := [], error := some (.ioError, 0) }

/-- A source that signals an error is a collaborator that fails after the last packet (R234, R257). -/
theorem forwardEnd_error (cfg : ForwardConfig) : forwardEnd cfg .error = Script.failAfter 0 .done := rfl

theorem forwardEnd_delivers (cfg : ForwardConfig) (ending : SourceEnd) (hs : Healthy s) :
    Delivers ((forwardEnd cfg ending).run s) (forwardEnding cfg ending) := by
  cases ending with
  | endOfStream => exact ⟨rfl, rfl, nofun⟩
  | error =>
    rw [forwardEnd_error, run_failAfter_zero _ hs]
    refine ⟨rfl, rfl, ?_⟩
    rintro e ⟨⟩
    exact ⟨rfl, rfl⟩

/-- The forward flow where no encode fails: header, body and ending. -/
theorem forwardRun_of_valid {cfg : ForwardConfig} {src : CaptureSource}
    (h : src.packets = [] ∨ validMode cfg.mode.toNat = true) :
    forwardRun cfg src = { forwardEnding cfg src.ending with
      out := cfg.headerText.lines ++
        ((forwardBody cfg src.packets).map cfg.format.declLine ++ (forwardEnding cfg src.ending).out) } := by
  rw [forwardRun, if_pos h]
  cases src.ending <;> simp [forwardEnding]

theorem forwardRun_of_invalid {cfg : ForwardConfig} {src : CaptureSource}
    (h : ¬ (src.packets = [] ∨ validMode cfg.mode.toNat = true)) :
    forwardRun cfg src = { out := cfg.headerText.lines, error := some (.formatError, cfg.mode.setWidth 32) } :=
  if_neg h

/-- The packets and the ending, where no encode fails. -/
theorem forwardRows_delivers {cfg : ForwardConfig} {src : CaptureSource} (hs : Healthy s) (hempty : s.mem.pixq = [])
    (hfit : ∀ c ∈ src.packets, c.payload.length ≤ Config.params.pbufSize)
    (h : src.packets = [] ∨ validMode cfg.mode.toNat = true) :
    Delivers ((forwardRows cfg (forwardEnd cfg src.ending) (captureRows cfg src.packets)).run s)
      { forwardEnding cfg src.ending with
        out := (forwardBody cfg src.packets).map cfg.format.declLine ++ (forwardEnding cfg src.ending).out } := by
  rcases h with hnone | hm
  · rw [hnone]
    exact forwardEnd_delivers cfg src.ending hs
  · obtain ⟨t, ht, hrun⟩ := run_forwardRows_of_valid cfg (forwardEnd cfg src.ending) (captureRows cfg src.packets) hs
      hempty (captureRows_fit hfit) hm
    rw [hrun]
    exact (forwardEnd_delivers cfg src.ending ht).emits _

/-- At an invalid mode the first packet ends the run with `FormatError`. -/
theorem forwardRows_delivers_of_invalid {cfg : ForwardConfig} {packets : List Capture} {next : Script Bytes}
    (hs : Healthy s) (hfit : ∀ c ∈ packets, c.payload.length ≤ Config.params.pbufSize) (hsome : packets ≠ [])
    (hm : validMode cfg.mode.toNat = false) :
    Delivers ((forwardRows cfg next (captureRows cfg packets)).run s)
      { out := [], error := some (.formatError, cfg.mode.setWidth 32) } := by
  obtain ⟨c, packets, rfl⟩ := List.exists_cons_of_ne_nil hsome
  obtain ⟨hc, -⟩ := List.forall_mem_cons.1 hfit
  rw [captureRows, packetRows, forwardRows, run_forwardScript_of_invalid _ _ _ hs
    (by rwa [transformPayload_length]) hm]
  refine ⟨rfl, rfl, ?_⟩
  rintro e ⟨⟩
  exact ⟨rfl, rfl⟩

theorem forwardContainer_delivers {cfg : ForwardConfig} {src : CaptureSource} (hs : Healthy s)
    (hempty : s.mem.pixq = []) (hfit : ∀ c ∈ src.packets, c.payload.length ≤ Config.params.pbufSize) :
    Delivers ((forwardContainer cfg src).run s) (forwardRun cfg src) := by
  by_cases h : src.packets = [] ∨ validMode cfg.mode.toNat = true
  · rw [forwardRun_of_valid h]
    exact (forwardRows_delivers hs hempty hfit h).emits cfg.headerText.lines
  · rw [forwardRun_of_invalid h]
    obtain ⟨hsome, hm⟩ := not_or.1 h
    rw [Bool.not_eq_true] at hm
    have hrun := (forwardRows_delivers_of_invalid (next := forwardEnd cfg src.ending) hs hfit hsome hm).emits
      cfg.headerText.lines
    simp only [List.append_nil] at hrun
    exact hrun

end Container

end Sys2Proof.Machine

open Sys2Proof Sys2Proof.Machine

/-- Settles O57: a packet's recipe by the pixels still to be popped, of which every turn pops the first, and a whole run
by its packets. -/
theorem forwardRunDeliversTheContainer : Obligations.ForwardRunDeliversTheContainer := by
  refine ⟨fun s m row q hs hempty hq => ⟨fun hm => ?_, fun hm => ?_⟩, fun s cfg src hs hempty hfit => ?_⟩
  · obtain ⟨resp, hrun⟩ := run_forwardScript_of_valid id row .done hs hempty hq hm
    rw [hrun, run_emits, List.map_id]
    exact ⟨List.append_nil _, rfl, rfl⟩
  · rw [run_forwardScript_of_invalid id row .done hs hq hm]
    exact ⟨rfl, rfl, rfl⟩
  · obtain ⟨hout, hfault, hlatched⟩ := forwardContainer_delivers hs hempty hfit
    exact ⟨hout, hfault, hlatched⟩

end

section
/-! The decoder commands by their cases (R131, R132). -/

namespace Sys2Proof.Machine

section Decoder

variable {s : State}

theorem decodeAt_of_invalid {m : Nat} (size : Nat) (hm : validMode m = false) :
    decodeAt size m s = raise .formatError (BitVec.ofNat 32 m) s := by
  rw [decodeAt, hm, if_neg Bool.false_ne_true]

theorem decodeAt_of_full {size m : Nat} (hm : validMode m = true)
    (hfull : size < s.mem.obuf.length + (codecDecode s.mem.cbuf m).length) :
    decodeAt size m s = raise .capacityFault 4 s := by
  rw [decodeAt, if_pos hm]
  exact if_pos hfull

theorem decodeAt_of_room {size m : Nat} (hm : validMode m = true)
    (hroom : s.mem.obuf.length + (codecDecode s.mem.cbuf m).length ≤ size) :
    decodeAt size m s = respond .ok (BitVec.ofNat 32 (codecDecode s.mem.cbuf m).length)
      { s with mem.obuf := s.mem.obuf ++ codecDecode s.mem.cbuf m } := by
  rw [decodeAt, if_pos hm]
  exact if_neg (Nat.not_lt.2 hroom)

theorem exec_decRun_of_healthy (m : BitVec 24) (hs : Healthy s) :
    exec (.decRun m) s = .next (decodeAt Config.params.obufSize m.toNat s) := by
  rw [exec_decRun, whenHealthy_of_healthy hs]

theorem exec_decRunh_of_known (hs : Healthy s) (hb : bppKnown s = true) :
    exec .decRunh s = .next (decodeAt Config.params.obufSize s.hdr.bpp.toNat s) := by
  rw [exec_decRunh, whenHealthy_of_healthy hs, decodeAtHeader, if_pos hb]

theorem exec_decRunh_of_unknown (hs : Healthy s) (hb : bppKnown s = false) :
    exec .decRunh s = .next (raise .formatError 0 s) := by
  rw [exec_decRunh, whenHealthy_of_healthy hs, decodeAtHeader, hb, if_neg Bool.false_ne_true]

end Decoder

end Sys2Proof.Machine

open Sys2Proof Sys2Proof.Machine

/-- Settles O33: the three cases of a decode; `ERRINFO` holds the operand widened. -/
theorem decodeAppendsOrFails : Obligations.DecodeAppendsOrFails := by
  intro s m hs out
  rw [exec_decRun_of_healthy m hs]
  refine ⟨fun hm => ?_, fun hm hfull => ?_, fun hm hroom => ?_⟩
  · rw [decodeAt_of_invalid _ hm, BitVec.ofNat_toNat]
    rfl
  · rw [decodeAt_of_full hm hfull]
    rfl
  · rw [decodeAt_of_room hm hroom]
    rfl

/-- Settles O34: where the header has its mode, the cases are those of a decode at it. -/
theorem headerDecodeUsesHeaderMode : Obligations.HeaderDecodeUsesHeaderMode := by
  intro s hs m out
  refine ⟨fun hb => exec_decRunh_of_unknown hs hb, fun hb hm => ?_, fun hb hm hfull => ?_, fun hb hm hroom => ?_⟩ <;>
    rw [exec_decRunh_of_known hs hb]
  · rw [decodeAt_of_invalid _ hm, BitVec.ofNat_toNat, BitVec.setWidth_eq]
    rfl
  · rw [decodeAt_of_full hm hfull]
    rfl
  · rw [decodeAt_of_room hm hroom]
    rfl

/-- Settles O35, by evaluating the four decodes. -/
theorem workedDecodesComeOut : Obligations.WorkedDecodesComeOut :=
  ⟨by decide +kernel, by decide +kernel, by decide +kernel, rfl⟩

end

section
/-! What a decode gives (R136, R137, R139): the bytes of a stream of bits, the last of them only if it is complete or
not zero. A decode of mode 1 is one of `k = 1` on its red channels, so one argument serves both. -/

namespace Sys2Proof.Machine

/-- The bytes of the first `n` bits of the stream `f` under the end rule (R139): all that are complete, and the partial
one exactly when it has a bit set. -/
def Emits (f : Nat → Bool) (n : Nat) (out : List Byte) : Prop :=
  ((∃ q, 8 * (n / 8) ≤ q ∧ q < n ∧ f q = true) → out.length = n / 8 + 1) ∧
    ((∀ q, 8 * (n / 8) ≤ q → q < n → f q = false) → out.length = n / 8) ∧
    ∀ q < 8 * out.length, bitAt out q = (decide (q < n) && f q)

/-- The byte in progress holds the bits after the complete bytes. -/
theorem DecAcc.Took.bitAt_out_acc {f : Nat → Bool} {n q : Nat} {a : DecAcc} (h : a.Took f n)
    (hq : q < 8 * (n / 8 + 1)) : bitAt (a.out ++ [a.acc]) q = (decide (q < n) && f q) := by
  have hlen := h.length_out
  by_cases hcomplete : q < 8 * (n / 8)
  · have hqn : q < n := by omega
    rw [bitAt_append_left (by omega), h.out_bits q hcomplete, decide_eq_true hqn, Bool.true_and]
  · have hplace : q - 8 * a.out.length < 8 := by omega
    rw [bitAt_append_right (by omega), bitAt, Nat.div_eq_of_lt hplace, List.getD_cons_zero, Nat.mod_eq_of_lt hplace,
      h.acc_bits _ hplace, hlen, show 8 * (n / 8) + (q - 8 * (n / 8)) = q by omega]
    congr 2
    exact propext (by omega)

theorem DecAcc.Took.finish_emits {f : Nat → Bool} {n : Nat} {a : DecAcc} (h : a.Took f n) : Emits f n a.finish := by
  have hlen := h.length_out
  rcases h.finish_cases with ⟨⟨q, hge, hlt, hset⟩, e⟩ | ⟨hzero, e⟩ <;> rw [e]
  · have hlen' : (a.out ++ [a.acc]).length = n / 8 + 1 := by
      rw [List.length_append, hlen, List.length_singleton]
    refine ⟨fun _ => hlen', fun hzero => ?_, fun q hq => h.bitAt_out_acc (hlen' ▸ hq)⟩
    rw [hzero q hge hlt] at hset
    cases hset
  · refine ⟨fun ⟨q, hge, hlt, hset⟩ => ?_, fun _ => hlen, fun q hq => ?_⟩
    · rw [hzero q hge hlt] at hset
      cases hset
    · rw [hlen] at hq
      have hqn : q < n := by omega
      rw [h.out_bits q hq, decide_eq_true hqn, Bool.true_and]

/-- Integers that have the stream's bits at its places, `k` each, are taken one after another (R136). -/
theorem DecAcc.Took.foldl_takeBits {f : Nat → Bool} {k : Nat} (c : List Byte) {n : Nat} {a : DecAcc} (h : a.Took f n)
    (hc : ∀ i < c.length, ∀ t < k, (c.getD i 0).getMsbD ((n + k * i + t) % 8) = f (n + k * i + t)) :
    (c.foldl (fun a v => a.takeBits v k) a).Took f (n + k * c.length) := by
  induction c generalizing n a with
  | nil => exact h
  | cons v c ih =>
    have hfirst : (a.takeBits v k).Took f (n + k) := h.takeBits (hc 0 (Nat.succ_pos _))
    have hstep : ∀ i, n + k + k * i = n + k * (i + 1) := by
      intro i
      rw [Nat.mul_succ]
      omega
    have hrest := ih hfirst fun i hi t ht => by
      rw [hstep]
      exact hc (i + 1) (Nat.succ_lt_succ hi) t ht
    rwa [hstep] at hrest

/-- A decode of `k` bits an integer: bit `q` is that of integer `q / k` at the place `q mod 8` (R136). -/
theorem decodeGrouped_emits {k : Nat} (hk : 1 ≤ k) (c : List Byte) :
    Emits (fun q => (c.getD (q / k) 0).getMsbD (q % 8)) (k * c.length) (decodeGrouped k c) := by
  have htook := (DecAcc.start_took fun q => (c.getD (q / k) 0).getMsbD (q % 8)).foldl_takeBits (k := k) c
    fun i _ t ht => by
      rw [Nat.zero_add, Nat.mul_add_div hk, Nat.div_eq_of_lt ht, Nat.add_zero]
  rw [Nat.zero_add] at htook
  exact htook.finish_emits

/-! ## Mode 1 -/

/-- What a sample of mode 1 brings to the byte in progress: every bit set, or none (R137). -/
def sampleByte (r : Byte) : Byte := if r = 0 then 0x00 else 0xFF

theorem sampleByte_getMsbD (r : Byte) {j : Nat} (hj : j < 8) : (sampleByte r).getMsbD j = decide (r ≠ 0) := by
  unfold sampleByte
  split_ifs with hr
  · simp [hr]
  · rw [decide_eq_true hr]
    exact (BitVec.getMsbD_allOnes (v := 8)).trans (decide_eq_true hj)

/-- Mode 1 takes one bit of each red channel (R137). -/
theorem decodeMono_eq_decodeGrouped (c : List Byte) :
    decodeMono c = decodeGrouped 1 ((redSamples c).map sampleByte) := by
  rw [decodeGrouped, List.foldl_map]
  rfl

theorem decodeMono_emits (c : List Byte) :
    Emits (fun j => decide (c.getD (3 * j) 0 ≠ 0)) ((c.length + 2) / 3) (decodeMono c) := by
  obtain ⟨hlen, hsample⟩ := redSamples_spec c
  have hbit : (fun j => (((redSamples c).map sampleByte).getD (j / 1) 0).getMsbD (j % 8)) =
      fun j => decide (c.getD (3 * j) 0 ≠ 0) := by
    funext j
    rw [Nat.div_one, ← show sampleByte 0 = 0 from rfl, List.getD_map,
      sampleByte_getMsbD _ (Nat.mod_lt j (by decide)), hsample]
    rfl
  have hemits := decodeGrouped_emits (Nat.le_refl 1) ((redSamples c).map sampleByte)
  rwa [hbit, List.length_map, hlen, Nat.one_mul, ← decodeMono_eq_decodeGrouped] at hemits

/-! ## The decoder of each kind of mode -/

theorem codecDecode_bytes (c : List Byte) : codecDecode c 24 = c := rfl

theorem codecDecode_mono (c : List Byte) : codecDecode c 1 = decodeMono c := rfl

theorem codecDecode_grouped {k : Nat} (hk : k ≤ 7) (c : List Byte) :
    codecDecode c (3 * k) = decodeGrouped k c := by
  rw [codecDecode, if_neg (by omega), if_neg (by omega), bitsPerChannel, Nat.mul_div_cancel_left k (by decide)]

end Sys2Proof.Machine

open Sys2Proof Sys2Proof.Machine

/-- Settles O36. -/
theorem groupedDecodeReadsNativePositions : Obligations.GroupedDecodeReadsNativePositions := by
  intro k c hk hk7 total bit out
  have hemits := decodeGrouped_emits hk c
  rw [← codecDecode_grouped hk7] at hemits
  exact hemits

/-- Settles O37. -/
theorem monoDecodeSamplesRed : Obligations.MonoDecodeSamplesRed :=
  decodeMono_emits

end

section
/-! The round-trip law (R140). A decoder that takes the pixels of an encode takes the bits of the payload in their
order: each pixel's `m` bits are those the encoder passed over, so the decoder's stream and the payload stay in step. -/

namespace Sys2Proof.Machine

/-! ## Byte strings by their bits -/

theorem bitAt_of_le {p : List Byte} {q : Nat} (h : 8 * p.length ≤ q) : bitAt p q = false := by
  rw [bitAt, List.getD_eq_default _ _ (by omega), zero_getMsbD]

theorem bitAt_append_zeros (p : List Byte) (z q : Nat) : bitAt (p ++ List.replicate z 0) q = bitAt p q := by
  by_cases h : q < 8 * p.length
  · exact bitAt_append_left h
  · rw [bitAt_append_right (Nat.not_lt.1 h), bitAt_of_le (p := p) (Nat.not_lt.1 h), bitAt,
      List.getD_eq_getElem?_getD, List.getElem?_replicate]
    split_ifs <;> exact zero_getMsbD _

theorem bitAt_byte {p : List Byte} {i j : Nat} (hj : j < 8) : bitAt p (8 * i + j) = (p.getD i 0).getMsbD j := by
  rw [bitAt, Nat.mul_add_div (by decide), Nat.div_eq_of_lt hj, Nat.add_zero, Nat.mul_add_mod, Nat.mod_eq_of_lt hj]

/-- Byte strings of one length with the same bits are equal. -/
theorem eq_of_bitAt_eq {p r : List Byte} (hlen : p.length = r.length)
    (hbits : ∀ q < 8 * p.length, bitAt p q = bitAt r q) : p = r := by
  refine List.ext_getElem hlen fun i hp hr => BitVec.eq_of_getMsbD_eq fun j hj => ?_
  have hq := hbits (8 * i + j) (by omega)
  rwa [bitAt_byte hj, bitAt_byte hj, List.getD_eq_getElem _ _ hp, List.getD_eq_getElem _ _ hr] at hq

/-- A stream that is a payload and then nothing but zeros gives the payload and zero bytes: the partial byte is all
zero and dropped. -/
theorem Emits.eq_append_zeros {p out : List Byte} {n : Nat} (h : Emits (bitAt p) n out) (hn : 8 * p.length ≤ n) :
    out = p ++ List.replicate (n / 8 - p.length) 0 := by
  obtain ⟨-, hpartial, hbits⟩ := h
  have hlen : out.length = n / 8 := hpartial fun q hge _ => bitAt_of_le (by omega)
  refine eq_of_bitAt_eq ?_ fun q hq => ?_
  · rw [List.length_append, List.length_replicate]
    omega
  · rw [hbits q hq, bitAt_append_zeros, decide_eq_true (by omega), Bool.true_and]

/-! ## Taking the pixels of an encode -/

/-- Taking each pixel of an encode takes the payload's bits from the cursor on, if taking one pixel does. The stream
goes on behind the payload to the last pixel's full width. -/
theorem DecAcc.Took.foldl_encodeFrom {buf : List Byte} (hlen : buf.length < 2 ^ 32) {m : Nat}
    (hm : validMode m = true) {take : DecAcc → Pixel → DecAcc}
    (htake : ∀ {a : DecAcc} {cur : Cursor}, cur.pos < 8 * buf.length → a.Took (bitAt buf) cur.pos →
      (take a (nextPixel buf m cur).1).Took (bitAt buf) (cur.pos + m))
    (turns : Nat) {cur : Cursor} (hcur : cur.Within buf.length m) {a : DecAcc} (h : a.Took (bitAt buf) cur.pos) :
    ((encodeFrom buf m turns cur).foldl take a).Took (bitAt buf)
      (cur.pos + m * (encodeFrom buf m turns cur).length) := by
  induction turns generalizing cur a with
  | zero => exact h
  | succ turns ih =>
    cases he : cur.atEnd buf.length with
    | true =>
      rw [encodeFrom_atEnd he]
      exact h
    | false =>
      have hlt := (cur.not_atEnd_iff _).1 he
      have hpos := nextPixel_pos hlen hm hlt hcur.aligned
      have hpixel := htake hlt h
      rw [encodeFrom_succ he, List.foldl_cons, List.length_cons, Nat.mul_succ]
      by_cases hlast : cur.pos + m < 8 * buf.length
      · rw [Nat.min_eq_left hlast.le] at hpos
        have hrest := ih (nextPixel_within hlen hm hcur he) (hpos.symm ▸ hpixel)
        rwa [hpos, Nat.add_right_comm, Nat.add_assoc] at hrest
      · rw [encodeFrom_atEnd ((Cursor.atEnd_iff _ _).2 (by omega))]
        simpa using hpixel

/-- A lane's integer has the payload's bit at the place of each of its positions (R116). -/
theorem Lane.getMsbD {buf : List Byte} {k first q : Nat} {v : Byte} (h : Lane buf k first v) (hk : k ≤ 8)
    (hfirst : first ≤ q) (hq : q < first + k) : v.getMsbD (q % 8) = bitAt buf q := by
  rw [Bool.eq_iff_iff, h (q % 8) (Nat.mod_lt q (by decide))]
  constructor
  · rintro ⟨q', hge, hlt, hplace, hset⟩
    have hsame : q' = q := by omega
    exact hsame ▸ hset
  · intro hset
    refine ⟨q, hfirst, lt_min hq ?_, rfl, hset⟩
    by_contra hend
    rw [bitAt_of_le (Nat.not_lt.1 hend)] at hset
    cases hset

theorem DecAcc.Took.takeLane {buf : List Byte} {k n : Nat} {v : Byte} {a : DecAcc} (h : a.Took (bitAt buf) n)
    (hv : Lane buf k n v) (hk : k ≤ 8) : (a.takeBits v k).Took (bitAt buf) (n + k) :=
  h.takeBits fun i hi => hv.getMsbD hk (Nat.le_add_right n i) (Nat.add_lt_add_left hi n)

/-- The three integers of a grouped pixel are taken as the `3 k` bits the encoder passed over (R117, R136). -/
theorem DecAcc.Took.takeGroupedPixel {buf : List Byte} (hlen : buf.length < 2 ^ 32) {k : Nat} (hk : k ≤ 7)
    {cur : Cursor} (hcur : cur.pos < 8 * buf.length) {a : DecAcc} (h : a.Took (bitAt buf) cur.pos) :
    ((nextPixel buf (3 * k) cur).1.fullInts.foldl (fun a v => a.takeBits v k) a).Took (bitAt buf)
      (cur.pos + 3 * k) := by
  obtain ⟨px, -, hr, hg, hb, hpx⟩ := nextPixelGrouped_lanes hlen k hcur.le
  have hnext : (nextPixel buf (3 * k) cur).1 = px := by
    rw [nextPixel, if_neg (by omega), if_neg (by omega), bitsPerChannel, Nat.mul_div_cancel_left k (by decide), hpx]
  have h8 : k ≤ 8 := by omega
  have htwo : cur.pos + k + k = cur.pos + 2 * k := by omega
  have hrg := (h.takeLane hr h8).takeLane hg h8
  rw [htwo] at hrg
  have hrgb := hrg.takeLane hb h8
  rw [show cur.pos + 2 * k + k = cur.pos + 3 * k by omega] at hrgb
  rwa [hnext]

/-- The red channel of a mode 1 pixel is taken as the one bit the encoder passed over (R115, R137). -/
theorem DecAcc.Took.takeMonoPixel {buf : List Byte} {cur : Cursor} (hcur : cur.pos < 8 * buf.length) {a : DecAcc}
    (h : a.Took (bitAt buf) cur.pos) :
    (a.takeBits (sampleByte (nextPixel buf 1 cur).1.r) 1).Took (bitAt buf) (cur.pos + 1) := by
  have hred : (nextPixel buf 1 cur).1.r = if bitAt buf cur.pos then 0xFF else 0 := by
    rw [nextPixel, if_neg (by decide), if_pos rfl, nextPixelMono_eq hcur]
    cases bitAt buf cur.pos <;> rfl
  refine h.takeBits fun i hi => ?_
  rw [Nat.lt_one_iff.1 hi, Nat.add_zero, sampleByte_getMsbD _ (Nat.mod_lt _ (by decide)), hred]
  cases bitAt buf cur.pos <;> rfl

/-! ## The modes that decode bit by bit -/

/-- The bits that an encode's pixels stand for: the payload's, filled up to whole pixels (R120). -/
def pixelBits (m n : Nat) : Nat := m * ((8 * n + m - 1) / m)

theorem le_pixelBits {m : Nat} (hm : 1 ≤ m) (n : Nat) : 8 * n ≤ pixelBits m n := by
  have h := Nat.lt_mul_div_succ (8 * n + m - 1) hm
  rw [Nat.mul_succ] at h
  unfold pixelBits
  omega

theorem pixelBits_lt {m : Nat} (hm : 1 ≤ m) (n : Nat) : pixelBits m n < 8 * n + m := by
  have h := Nat.mul_div_le (8 * n + m - 1) m
  unfold pixelBits
  omega

/-- Taking the pixels of a whole encode in a way that keeps in step gives the payload back (R140). -/
theorem finish_foldl_codecEncode {p : List Byte} (hlen : p.length < 2 ^ 32) {m : Nat} (hm : validMode m = true)
    {take : DecAcc → Pixel → DecAcc}
    (htake : ∀ {a : DecAcc} {cur : Cursor}, cur.pos < 8 * p.length → a.Took (bitAt p) cur.pos →
      (take a (nextPixel p m cur).1).Took (bitAt p) (cur.pos + m)) :
    ((codecEncode p m).foldl take DecAcc.start).finish =
      p ++ List.replicate (pixelBits m p.length / 8 - p.length) 0 := by
  have hm1 : 1 ≤ m := by
    rw [validMode_iff] at hm
    omega
  have htook := DecAcc.Took.foldl_encodeFrom hlen hm htake (8 * p.length) (Cursor.zero_within _ _)
    (DecAcc.start_took (bitAt p))
  rw [Cursor.zero_pos, Nat.zero_add] at htook
  have hemits := htook.finish_emits
  rw [← codecEncode, codecEncode_length hlen hm, ← pixelBits] at hemits
  exact hemits.eq_append_zeros (le_pixelBits hm1 _)

theorem decodeGrouped_codecEncode {p : List Byte} (hlen : p.length < 2 ^ 32) {k : Nat} (hk : 1 ≤ k) (hk7 : k ≤ 7) :
    decodeGrouped k ((codecEncode p (3 * k)).flatMap Pixel.fullInts) =
      p ++ List.replicate (pixelBits (3 * k) p.length / 8 - p.length) 0 := by
  rw [decodeGrouped, List.foldl_flatMap]
  refine finish_foldl_codecEncode hlen ?_ fun hcur h => h.takeGroupedPixel hlen hk7 hcur
  rw [validMode_iff]
  omega

theorem redSamples_fullInts (pixels : List Pixel) :
    redSamples (pixels.flatMap Pixel.fullInts) = pixels.map Pixel.r := by
  induction pixels with
  | nil => rfl
  | cons px pixels ih =>
    rw [List.map_cons, ← ih]
    rfl

theorem decodeMono_codecEncode {p : List Byte} (hlen : p.length < 2 ^ 32) :
    decodeMono ((codecEncode p 1).flatMap Pixel.fullInts) =
      p ++ List.replicate (pixelBits 1 p.length / 8 - p.length) 0 := by
  rw [decodeMono_eq_decodeGrouped, redSamples_fullInts, decodeGrouped, List.foldl_map, List.foldl_map]
  exact finish_foldl_codecEncode hlen rfl fun hcur h => h.takeMonoPixel hcur

/-! ## Mode 24 -/

theorem three_getD_eq (l : List Byte) :
    [l.getD 0 0, l.getD 1 0, l.getD 2 0] = l.take 3 ++ List.replicate (3 - l.length) 0 := by
  rcases l with _ | ⟨a, _ | ⟨b, _ | ⟨c, l⟩⟩⟩
  · rfl
  · rfl
  · rfl
  · simp

section Bytes

variable {buf : List Byte} {i : Nat}

/-- A pixel of mode 24 has the next up to three bytes, and its zero channels behind them (R114). -/
theorem nextPixelBytes_fullInts (hlen : buf.length < 2 ^ 32) (hi : i ≤ buf.length) :
    (nextPixelBytes buf ⟨BitVec.ofNat 32 i, 0⟩).1.fullInts =
      (buf.drop i).take 3 ++ List.replicate (3 - (buf.drop i).length) 0 := by
  rw [nextPixelBytes_at hlen hi, ← three_getD_eq]
  simp [Pixel.fullInts]

theorem nextPixelBytes_chanInts (hlen : buf.length < 2 ^ 32) (hi : i ≤ buf.length) :
    (nextPixelBytes buf ⟨BitVec.ofNat 32 i, 0⟩).1.chanInts = (buf.drop i).take 3 := by
  have hnv : (nextPixelBytes buf ⟨BitVec.ofNat 32 i, 0⟩).1.nv.toNat = ((buf.drop i).take 3).length := by
    rw [nextPixelBytes_at hlen hi, BitVec.toNat_ofNat, List.length_take, List.length_drop]
    omega
  rw [Pixel.chanInts, nextPixelBytes_fullInts hlen hi, hnv, List.take_left]

/-- The first pixel of mode 24, then those from three bytes further on, if the payload goes on there. -/
theorem encodeFrom_bytes_cons (hlen : buf.length < 2 ^ 32) (hi : i < buf.length) (turns : Nat) :
    encodeFrom buf 24 (turns + 1) ⟨BitVec.ofNat 32 i, 0⟩ = (nextPixelBytes buf ⟨BitVec.ofNat 32 i, 0⟩).1 ::
      if i + 3 < buf.length then encodeFrom buf 24 turns ⟨BitVec.ofNat 32 (i + 3), 0⟩ else [] := by
  have he : Cursor.atEnd buf.length ⟨BitVec.ofNat 32 i, 0⟩ = false := by
    rw [← Bool.not_eq_true, Cursor.atEnd_iff_byteIdx, BitVec.toNat_ofNat]
    omega
  have hnext : (nextPixelBytes buf ⟨BitVec.ofNat 32 i, 0⟩).2 = ⟨BitVec.ofNat 32 (min (i + 3) buf.length), 0⟩ :=
    congrArg Prod.snd (nextPixelBytes_at hlen hi.le)
  rw [encodeFrom_succ he, nextPixel, if_pos rfl, hnext]
  split_ifs with hmore
  · rw [Nat.min_eq_left hmore.le]
  · rw [Nat.min_eq_right (Nat.not_lt.1 hmore), encodeFrom_atEnd]
    rw [Cursor.atEnd_iff_byteIdx, BitVec.toNat_ofNat]
    omega

theorem encodeFrom_bytes_fullInts (hlen : buf.length < 2 ^ 32) (turns : Nat) (hi : i < buf.length)
    (hturns : buf.length - i ≤ turns) :
    (encodeFrom buf 24 turns ⟨BitVec.ofNat 32 i, 0⟩).flatMap Pixel.fullInts =
      buf.drop i ++ List.replicate ((3 - (buf.length - i) % 3) % 3) 0 := by
  induction turns generalizing i with
  | zero => omega
  | succ turns ih =>
    rw [encodeFrom_bytes_cons hlen hi, List.flatMap_cons, nextPixelBytes_fullInts hlen hi.le, List.length_drop]
    split_ifs with hmore
    · rw [ih hmore (by omega), show 3 - (buf.length - i) = 0 by omega,
        show (3 - (buf.length - (i + 3)) % 3) % 3 = (3 - (buf.length - i) % 3) % 3 by omega, List.replicate_zero,
        List.append_nil, ← List.append_assoc, ← List.drop_drop, List.take_append_drop]
    · rw [List.take_of_length_le (by rw [List.length_drop]; omega), List.flatMap_nil, List.append_nil,
        show (3 - (buf.length - i) % 3) % 3 = 3 - (buf.length - i) by omega]

theorem encodeFrom_bytes_chanInts (hlen : buf.length < 2 ^ 32) (turns : Nat) (hi : i < buf.length)
    (hturns : buf.length - i ≤ turns) :
    (encodeFrom buf 24 turns ⟨BitVec.ofNat 32 i, 0⟩).flatMap Pixel.chanInts = buf.drop i := by
  induction turns generalizing i with
  | zero => omega
  | succ turns ih =>
    rw [encodeFrom_bytes_cons hlen hi, List.flatMap_cons, nextPixelBytes_chanInts hlen hi.le]
    split_ifs with hmore
    · rw [ih hmore (by omega), ← List.drop_drop, List.take_append_drop]
    · rw [List.take_of_length_le (by rw [List.length_drop]; omega), List.flatMap_nil, List.append_nil]

end Bytes

/-! ## Every mode -/

theorem codecEncode_bytes_fullInts {p : List Byte} (hlen : p.length < 2 ^ 32) :
    (codecEncode p 24).flatMap Pixel.fullInts = p ++ List.replicate ((3 - p.length % 3) % 3) 0 := by
  rcases Nat.eq_zero_or_pos p.length with hnil | hpos
  · rw [List.length_eq_zero_iff.1 hnil]
    rfl
  · exact encodeFrom_bytes_fullInts hlen (8 * p.length) hpos (by omega)

theorem codecEncode_bytes_chanInts {p : List Byte} (hlen : p.length < 2 ^ 32) :
    (codecEncode p 24).flatMap Pixel.chanInts = p := by
  rcases Nat.eq_zero_or_pos p.length with hnil | hpos
  · rw [List.length_eq_zero_iff.1 hnil]
    rfl
  · exact encodeFrom_bytes_chanInts hlen (8 * p.length) hpos (by omega)

theorem roundTripZeros_grouped {k : Nat} (hk : 1 ≤ k) (hk7 : k ≤ 7) (n : Nat) :
    roundTripZeros (3 * k) n = pixelBits (3 * k) n / 8 - n := by
  have hge := le_pixelBits (m := 3 * k) (by omega) n
  rw [roundTripZeros, if_neg (by omega), if_neg (by omega), ← pixelBits]
  omega

theorem roundTripZeros_mono (n : Nat) : roundTripZeros 1 n = pixelBits 1 n / 8 - n := by
  rw [roundTripZeros, if_pos rfl, pixelBits]
  omega

/-- A valid mode is that of whole bytes, that of single bits, or one of the grouped modes (R110). -/
theorem validMode_cases {m : Nat} (hm : validMode m = true) :
    m = 24 ∨ m = 1 ∨ ∃ k, 1 ≤ k ∧ k ≤ 7 ∧ m = 3 * k := by
  rw [validMode_iff] at hm
  by_cases h24 : m = 24
  · exact .inl h24
  by_cases h1 : m = 1
  · exact .inr (.inl h1)
  exact .inr (.inr ⟨m / 3, by omega, by omega, by omega⟩)

/-- The round-trip law (R140). -/
theorem codecDecode_codecEncode {m : Nat} (hm : validMode m = true) {p : List Byte} (hlen : p.length < 2 ^ 32) :
    codecDecode ((codecEncode p m).flatMap Pixel.fullInts) m = p ++ List.replicate (roundTripZeros m p.length) 0 := by
  rcases validMode_cases hm with rfl | rfl | ⟨k, hk, hk7, rfl⟩
  · rw [codecDecode_bytes, codecEncode_bytes_fullInts hlen]
    rfl
  · rw [codecDecode_mono, roundTripZeros_mono, decodeMono_codecEncode hlen]
  · rw [codecDecode_grouped hk7, roundTripZeros_grouped hk hk7, decodeGrouped_codecEncode hlen hk hk7]

theorem roundTripZeros_le_two {m : Nat} (hm : validMode m = true) (n : Nat) : roundTripZeros m n ≤ 2 := by
  rcases validMode_cases hm with rfl | rfl | ⟨k, hk, hk7, rfl⟩
  · rw [roundTripZeros, if_neg (by decide), if_pos rfl]
    omega
  · exact Nat.zero_le 2
  · have hlt := pixelBits_lt (m := 3 * k) (by omega) n
    rw [roundTripZeros_grouped hk hk7]
    omega

end Sys2Proof.Machine

open Sys2Proof Sys2Proof.Machine

/-- Settles O38: mode by mode; the channel integers of mode 24 are the bytes it took. -/
theorem decodeOfEncodeRecoversThePayload : Obligations.DecodeOfEncodeRecoversThePayload :=
  fun _ p hm hlen => ⟨codecDecode_codecEncode hm hlen, roundTripZeros_le_two hm p.length,
    codecEncode_bytes_chanInts hlen⟩

end

section
/-! The rows that the read path regains from the write path (R221 to R225), and their decodes (R140). -/

namespace Sys2Proof.Machine

section Rows

variable {limit : Nat}

theorem reassemble_cons_of_lt {d : PixelDecl} (hx : d.x < limit) (rest : List PixelDecl) (a : Reassembler) :
    reassemble limit (d :: rest) a = reassemble limit rest (a.feed d) :=
  if_neg (Nat.not_le.2 hx)

theorem reassemble_cons_of_ge {d : PixelDecl} (hx : limit ≤ d.x) (rest : List PixelDecl) (a : Reassembler) :
    reassemble limit (d :: rest) a = (a.rows, false) :=
  if_pos hx

theorem feed_of_same_row {a : Reassembler} {d : PixelDecl} (hy : a.y = none ∨ a.y = some d.y) :
    a.feed d = { a with y := some d.y, ints := a.ints ++ d.ints } :=
  if_pos hy

theorem feed_of_new_row {a : Reassembler} {d : PixelDecl} (hy : ¬ (a.y = none ∨ a.y = some d.y)) :
    a.feed d = { y := some d.y, ints := d.ints, rows := a.rows ++ [a.ints] } :=
  if_neg hy

theorem finish_of_pending {a : Reassembler} (h : a.ints ≠ []) : a.finish = a.rows ++ [a.ints] :=
  if_neg h

/-- More pixels of the row under way are collected behind its integers (R221). -/
theorem reassemble_declsFrom {y j : Nat} (pixels : List Pixel) (rest : List PixelDecl)
    (hx : j + pixels.length ≤ limit) (ints : List Byte) (flushed : List (List Byte)) :
    reassemble limit (declsFrom y j pixels ++ rest) ⟨some y, ints, flushed⟩ =
      reassemble limit rest ⟨some y, ints ++ pixels.flatMap Pixel.fullInts, flushed⟩ := by
  induction pixels generalizing j ints with
  | nil => rw [List.flatMap_nil, List.append_nil]; rfl
  | cons px pixels ih =>
    rw [List.length_cons] at hx
    have hj : j < limit := by omega
    rw [declsFrom_cons, List.cons_append, reassemble_cons_of_lt hj, feed_of_same_row (.inr rfl), ih (by omega),
      List.flatMap_cons, ← List.append_assoc]
    rfl

/-- A row begun at its first declaration is collected whole, whatever `feed` did with the row before it. -/
theorem reassemble_writeRow {y : Nat} {row : List Pixel} (hne : row ≠ []) (hx : row.length ≤ limit)
    (rest : List PixelDecl) {a : Reassembler} {flushed : List (List Byte)}
    (hfirst : ∀ d : PixelDecl, d.y = y → a.feed d = ⟨some y, d.ints, flushed⟩) :
    reassemble limit (writeRow y row ++ rest) a =
      reassemble limit rest ⟨some y, row.flatMap Pixel.fullInts, flushed⟩ := by
  obtain ⟨px, pixels, rfl⟩ := List.exists_cons_of_ne_nil hne
  rw [List.length_cons] at hx
  have hpos : 0 < limit := by omega
  rw [writeRow_eq_declsFrom, declsFrom_cons, List.cons_append, reassemble_cons_of_lt hpos, hfirst _ rfl,
    reassemble_declsFrom pixels rest (by omega)]
  rfl

theorem fullInts_ne_nil {row : List Pixel} (hne : row ≠ []) : row.flatMap Pixel.fullInts ≠ [] := by
  obtain ⟨px, pixels, rfl⟩ := List.exists_cons_of_ne_nil hne
  exact List.cons_ne_nil _ _

/-- Rows numbered upwards behind a pending one: each flushes the one before it, and the end flushes the last (R222,
R225). -/
theorem reassemble_rows_pending (rows : List (List Pixel)) (hrows : ∀ row ∈ rows, row ≠ [] ∧ row.length ≤ limit)
    (y : Nat) {ints : List Byte} (hints : ints ≠ []) (flushed : List (List Byte)) :
    reassemble limit ((rows.zipIdx (y + 1)).flatMap fun ry => writeRow ry.2 ry.1) ⟨some y, ints, flushed⟩ =
      (flushed ++ ints :: rows.map fun row => row.flatMap Pixel.fullInts, true) := by
  induction rows generalizing y ints flushed with
  | nil => exact congrArg (·, true) (finish_of_pending hints)
  | cons row rows ih =>
    obtain ⟨⟨hne, hlen⟩, hothers⟩ := List.forall_mem_cons.1 hrows
    have hfirst : ∀ d : PixelDecl, d.y = y + 1 →
        Reassembler.feed ⟨some y, ints, flushed⟩ d = ⟨some (y + 1), d.ints, flushed ++ [ints]⟩ := by
      rintro d hd
      rw [feed_of_new_row (by simp [hd]), hd]
    rw [List.zipIdx_cons, List.flatMap_cons, reassemble_writeRow hne hlen _ hfirst,
      ih hothers (y + 1) (fullInts_ne_nil hne), List.append_assoc]
    rfl

/-- The read path regains the rows of the write path (R222, R223, R225). -/
theorem reassemble_rows (rows : List (List Pixel)) (hrows : ∀ row ∈ rows, row ≠ [] ∧ row.length ≤ limit) :
    reassemble limit (rows.zipIdx.flatMap fun ry => writeRow ry.2 ry.1) Reassembler.start =
      (rows.map fun row => row.flatMap Pixel.fullInts, true) := by
  cases rows with
  | nil => rfl
  | cons row rows =>
    obtain ⟨⟨hne, hlen⟩, hothers⟩ := List.forall_mem_cons.1 hrows
    have hfirst : ∀ d : PixelDecl, d.y = 0 → Reassembler.start.feed d = ⟨some 0, d.ints, []⟩ := by
      rintro d hd
      rw [feed_of_same_row (.inl rfl), hd]
      rfl
    rw [List.zipIdx_cons, List.flatMap_cons, reassemble_writeRow hne hlen _ hfirst,
      reassemble_rows_pending rows hothers 0 (fullInts_ne_nil hne)]
    rfl

end Rows

/-! ## The packets of a forward run -/

/-- The pixels of a packet at a mode: its transformed payload encoded (R228). -/
def packetPixels (m : Nat) (g : Gate) (op : Byte) (p : List Byte) : List Pixel :=
  codecEncode (transformPayload g op p) m

section Packets

variable {m : Nat} {g : Gate} {op : Byte}

theorem packetPixels_ne_nil {p : List Byte} (hne : p ≠ []) : packetPixels m g op p ≠ [] := by
  rw [Ne, packetPixels, codecEncode, encodeFrom_eq_nil_iff (Nat.sub_le _ _), Cursor.atEnd_iff, transformPayload_length]
  have hpos := List.length_pos_iff.2 hne
  simp only [Cursor.zero_pos]
  omega

/-- A packet's row decodes to its transformed payload and the zero bytes of R140. -/
theorem decode_packetPixels (hm : validMode m = true) {p : List Byte} (hlen : p.length < 2 ^ 32) :
    codecDecode ((packetPixels m g op p).flatMap Pixel.fullInts) m =
      transformPayload g op p ++ List.replicate (roundTripZeros m p.length) 0 := by
  have hlen' : (transformPayload g op p).length < 2 ^ 32 := by rwa [transformPayload_length]
  rw [packetPixels, codecDecode_codecEncode hm hlen', transformPayload_length]

/-- The body of packets written as rows 0, 1, 2 and so on gives one row for each packet. -/
theorem reassemble_packets {limit : Nat} {packets : List (List Byte)}
    (hfit : ∀ p ∈ packets, p ≠ [] ∧ (packetPixels m g op p).length ≤ limit) :
    reassemble limit ((packets.map (packetPixels m g op)).zipIdx.flatMap fun ry => writeRow ry.2 ry.1)
        Reassembler.start =
      (packets.map fun p => (packetPixels m g op p).flatMap Pixel.fullInts, true) := by
  rw [reassemble_rows, List.map_map]
  · rfl
  · intro row hrow
    obtain ⟨p, hp, rfl⟩ := List.mem_map.1 hrow
    obtain ⟨hne, hlen⟩ := hfit p hp
    exact ⟨packetPixels_ne_nil hne, hlen⟩

theorem reconstruct_packets (hm : validMode m = true) {limit : Nat} {packets : List (List Byte)}
    (hfit : ∀ p ∈ packets, p ≠ [] ∧ p.length < 2 ^ 32 ∧ (packetPixels m g op p).length ≤ limit) :
    reconstruct limit m ((packets.map (packetPixels m g op)).zipIdx.flatMap fun ry => writeRow ry.2 ry.1) =
      packets.map fun p => transformPayload g op p ++ List.replicate (roundTripZeros m p.length) 0 := by
  rw [reconstruct, reassemble_packets fun p hp => ⟨(hfit p hp).1, (hfit p hp).2.2⟩, List.map_map]
  refine List.map_congr_left fun p hp => ?_
  obtain ⟨-, hlen, -⟩ := hfit p hp
  exact decode_packetPixels hm hlen

end Packets

end Sys2Proof.Machine

open Sys2Proof Sys2Proof.Machine

/-- Settles O52: the rows are regained, and each decodes by the round-trip law. -/
theorem reconstructionGivesTransformedPayloads : Obligations.ReconstructionGivesTransformedPayloads :=
  fun _ _ _ _ _ hm hfit => reconstruct_packets hm hfit

end

section
/-! The flush of a row on the block (R222): the decode goes into OBUF, and the pops answer its bytes in order. -/

namespace Sys2Proof.Machine

section Flush

variable {s : State} {rest : List PortEvent}

theorem exec_obPop_of_cons {v : Byte} {left : List Byte} (ho : s.mem.obuf = v :: left) :
    exec .obPop s = .next (respond .ok (v.setWidth 32) { s with mem.obuf := left }) := by
  rw [exec_obPop, popOutput, ho]

theorem exec_cbClr_of_healthy (hs : Healthy s) : exec .cbClr s = .next (clearBytes .cbuf s) := by
  rw [exec_cbClr, whenHealthy_of_healthy hs]

/-- One pop before a healthy run (R187). -/
theorem HealthyRun.pop {k : Nat} {u : State} {v : Byte} {left : List Byte} {is : List Instr}
    (ho : s.mem.obuf = v :: left) (hp : s.port = present (.obPop :: is) ++ rest)
    (hu : HealthyRun k { s with mem.obuf := left, port := present is ++ rest, resp := some ⟨.ok, v.setWidth 32⟩ } u) :
    HealthyRun (k + 1) s u :=
  .command hp (exec_obPop_of_cons ho) hu

/-- Pops take the oldest bytes of OBUF, as many as there are pops. -/
theorem healthyRun_pops (popped left : List Byte) (hs : Healthy s) (ho : s.mem.obuf = popped ++ left)
    (hp : s.port = present (List.replicate popped.length .obPop) ++ rest) :
    ∃ resp, HealthyRun popped.length s { s with mem.obuf := left, port := rest, resp := resp } := by
  induction popped generalizing s with
  | nil =>
    refine ⟨s.resp, ?_⟩
    rw [← show s.mem.obuf = left from ho, ← show s.port = rest from hp]
    exact .refl hs
  | cons v popped ih =>
    obtain ⟨resp, hrun⟩ := ih (s := { s with
      mem.obuf := popped ++ left, port := present (List.replicate popped.length .obPop) ++ rest,
      resp := some ⟨.ok, v.setWidth 32⟩ }) hs rfl rfl
    exact ⟨resp, .pop ho hp hrun⟩

/-- The block after the decode of a flush: the row's bytes are in OBUF, the pops and the clear are to come. -/
def flushing (s : State) (out : List Byte) (rest : List PortEvent) : State :=
  { s with mem.obuf := out, port := present (List.replicate out.length .obPop ++ [.cbClr]) ++ rest,
           resp := some ⟨.ok, BitVec.ofNat 32 out.length⟩ }

theorem healthyRun_decode {m : BitVec 24} {k : Nat} {u : State} (hs : Healthy s) (hm : validMode m.toNat = true)
    (ho : s.mem.obuf = []) (hroom : (codecDecode s.mem.cbuf m.toNat).length ≤ Config.params.obufSize)
    (hp : s.port = present (flushRecipe m (codecDecode s.mem.cbuf m.toNat).length) ++ rest)
    (hu : HealthyRun k (flushing s (codecDecode s.mem.cbuf m.toNat) rest) u) : HealthyRun (k + 1) s u := by
  refine .command hp (exec_decRun_of_healthy m hs) ?_
  rw [decodeAt_of_room hm (by rw [ho, List.length_nil, Nat.zero_add]; exact hroom)]
  simp only [ho, List.nil_append]
  exact hu

/-- The pop number `j` of a flush answers byte `j` of the row. -/
theorem flushing_pop (hs : Healthy s) {out : List Byte} {j : Nat} (hj : j < out.length) :
    ∃ t, HealthyRun (j + 1) (flushing s out rest) t ∧ t.resp = some ⟨.ok, BitVec.ofNat 32 (out.getD j 0).toNat⟩ := by
  have hsplit : List.replicate out.length Instr.obPop =
      List.replicate (out.take j).length .obPop ++ .obPop :: List.replicate (out.length - (j + 1)) .obPop := by
    rw [← List.replicate_succ, List.replicate_append_replicate, List.length_take_of_le hj.le]
    congr 1
    omega
  obtain ⟨resp, hbefore⟩ := healthyRun_pops (s := flushing s out rest)
    (rest := present (.obPop :: (List.replicate (out.length - (j + 1)) .obPop ++ [.cbClr])) ++ rest)
    (out.take j) (out.drop j) hs (List.take_append_drop j out).symm
    (by rw [flushing, hsplit, List.append_assoc, present_append, List.append_assoc]; rfl)
  rw [List.length_take_of_le hj.le] at hbefore
  refine ⟨_, hbefore.trans (.pop (List.drop_eq_getElem_cons hj) rfl (.refl hs)), ?_⟩
  rw [List.getD_eq_getElem _ _ hj, BitVec.ofNat_toNat]

/-- The whole flush leaves OBUF empty and clears CBUF. -/
theorem flushing_done (hs : Healthy s) (ho : s.mem.obuf = []) (out : List Byte) :
    HealthyRun (out.length + 1) (flushing s out rest)
      { s with mem.cbuf := [], port := rest, resp := some ⟨.ok, 0⟩ } := by
  obtain ⟨resp, hpops⟩ := healthyRun_pops (s := flushing s out rest) (rest := present [.cbClr] ++ rest) out [] hs
    (List.append_nil _).symm (by rw [flushing, present_append, List.append_assoc])
  have hempty : { s.mem with cbuf := [] } = { s.mem with cbuf := [], obuf := [] } := by rw [← ho]
  rw [hempty]
  exact hpops.trans (.command (is := []) (rest := rest) rfl (exec_cbClr_of_healthy (by exact hs)) (.refl hs))

end Flush

end Sys2Proof.Machine

open Sys2Proof Sys2Proof.Machine

/-- Settles O55: after the decode, pop number `j` is the step after `j` pops, and the clear comes after them all. -/
theorem flushRecipePopsTheDecode : Obligations.FlushRecipePopsTheDecode := by
  intro s m rest hs hm ho out hroom hp
  refine ⟨fun j hj => ?_, healthyRun_decode hs hm ho hroom hp (flushing_done hs ho out)⟩
  obtain ⟨t, hrun, hresp⟩ := flushing_pop (s := s) (rest := rest) hs hj
  exact ⟨t, healthyRun_decode hs hm ho hroom hp hrun, hresp⟩

end

section
/-! The reverse recipe on the block (R237). The header is read until Done; then, while the body is read, CBUF holds the
integers of the row that the reassembler has under way, and each flush hands over the item of one of its rows. -/

namespace Sys2Proof

theorem Params.lt_of_le_cbufSize (p : Params) {n : Nat} (h : n ≤ p.cbufSize) : n < 2 ^ 32 := by
  have := p.cbufTop.isLt
  simp only [Params.cbufSize] at h
  omega

theorem Params.lt_of_le_obufSize (p : Params) {n : Nat} (h : n ≤ p.obufSize) : n < 2 ^ 32 := by
  have := p.obufTop.isLt
  simp only [Params.obufSize] at h
  omega

end Sys2Proof

namespace Sys2Proof.Machine

/-! ## What a header read to Done has -/

theorem parseHeader_hdrInv {p : Params} {lines rest : List Bytes} {h r : HdrRegs} (hi : HdrInv p h)
    (e : parseHeader p lines h = .ok (r, rest)) : HdrInv p r ∧ r.hstate = .done := by
  induction lines generalizing h with
  | nil =>
    rw [parseHeader] at e
    split_ifs at e with hd
    cases e
    exact ⟨hi, hd⟩
  | cons l lines ih =>
    cases hstep : parseLine p l h with
    | raised c info =>
      rw [parseHeader_raised hstep] at e
      cases e
    | stepped hit h1 =>
      have hi1 := parseLine_hdrInv hi hstep
      rw [parseHeader_stepped hstep] at e
      split_ifs at e with hd
      · cases e
        exact ⟨hi1, hd⟩
      · exact ih hi1 e

/-- In Done every version has supplied BitsPerPixel (R132, R152, R166). -/
theorem HdrInv.bpp_known_of_done {p : Params} {h : HdrRegs} (hi : HdrInv p h) (hd : h.hstate = .done) :
    h.hvalid.getLsbD 1 = true := by
  have hfull := hi.done_full hd
  have hlegal := hi.fcnt_legal
  have hne : h.fcnt ≠ 0 := fun e => done_resolved (hd ▸ hi.fcnt_zero.1 e)
  have hne' : h.fcnt.toNat ≠ 0 := fun e => hne (BitVec.eq_of_toNat_eq e)
  rw [BitVec.getLsbD, hi.hvalid_eq, Nat.testBit_two_pow_sub_one, hfull, decide_eq_true_eq]
  omega

/-! ## The header on the block -/

section HeaderLines

variable {α : Type} {s : State} {body : List Bytes → Script α}

theorem exec_hdrLine_of_raised {c : Cause} {info : Word} (hs : Healthy s)
    (hparse : parseLine Config.params s.mem.lbuf s.hdr = .raised c info) :
    exec .hdrLine s = .next (raise c info s) := by
  rw [exec_hdrLine, whenHealthy_of_healthy hs, presentLine, hparse]

/-- A line loaded into LBUF (R88, R184, R185). -/
theorem run_loadLine (next : Script α) {l : Bytes} (hs : Healthy s) (hl : l.length ≤ Config.params.lbufSize) :
    ∃ resp, (Script.asks (.lbClr :: l.map .lbPush) next).run s = next.run { s with mem.lbuf := l, resp := resp } := by
  have hclr : answer .lbClr s = (⟨.ok, 0⟩, clearBytes .lbuf s) :=
    answer_of_exec (decode_encode _) (exec_lbClr_of_healthy hs) rfl
  obtain ⟨resp, -, hpushes⟩ := run_pushes (fun b => decode_encode (.lbPush b)) exec_lbPush_of_healthy next l
    (clearBytes .lbuf s) hs (by simpa using hl)
  exact ⟨resp, by rw [Script.asks, run_ask hclr rfl, hpushes]; rfl⟩

/-- A header line that is taken or skipped: the recipe goes to the body exactly at Done (R156, R237). -/
theorem run_headerScript_of_stepped {l : Bytes} {lines : List Bytes} {hit : Bool} {h : HdrRegs} (hs : Healthy s)
    (hl : l.length ≤ Config.params.lbufSize) (hparse : parseLine Config.params l s.hdr = .stepped hit h) :
    ∃ resp, (headerScript body (l :: lines)).run s =
      (if h.hstate = .done then body lines else headerScript body lines).run
        { s with hdr := h, mem.lbuf := [], resp := resp } := by
  obtain ⟨resp, hload⟩ := run_loadLine (.ask .hdrLine fun r =>
    if r.data.extractLsb' 0 3 = HState.done.code then body lines else headerScript body lines) hs hl
  have hline : answer .hdrLine { s with mem.lbuf := l, resp := resp } = (⟨.ok, lineData hit h.hstate⟩, _) :=
    answer_of_exec (decode_encode _) (exec_hdrLine_of_stepped (by exact hs) hparse) rfl
  refine ⟨some ⟨.ok, lineData hit h.hstate⟩, ?_⟩
  rw [headerScript, hload, run_ask hline rfl]
  simp only [lineData_done]
  rfl

/-- A header line that raises ends the recipe with its fault. -/
theorem run_headerScript_of_raised {l : Bytes} {lines : List Bytes} {c : Cause} {info : Word} (hs : Healthy s)
    (hl : l.length ≤ Config.params.lbufSize) (hparse : parseLine Config.params l s.hdr = .raised c info) :
    ∃ t, (headerScript body (l :: lines)).run s =
      { out := [], fault := some (c.code.setWidth 32), block := raise c info t } := by
  obtain ⟨resp, hload⟩ := run_loadLine (.ask .hdrLine fun r =>
    if r.data.extractLsb' 0 3 = HState.done.code then body lines else headerScript body lines) hs hl
  have hline : answer .hdrLine { s with mem.lbuf := l, resp := resp } = (⟨.err, c.code.setWidth 32⟩, raise c info _) :=
    answer_of_exec (decode_encode _) (exec_hdrLine_of_raised (by exact hs) hparse) rfl
  rw [headerScript, hload, run_ask_faulted hline rfl]
  exact ⟨_, rfl⟩

/-- Lines that run out before Done end the recipe with `NoTerminatorError` (R163). -/
theorem run_headerScript_nil (hs : Healthy s) (hnd : s.hdr.hstate ≠ .done) :
    (headerScript body []).run s =
      { out := [], fault := some (Cause.noTerminatorError.code.setWidth 32),
        block := raise .noTerminatorError (s.hdr.hstate.code.setWidth 32) s } := by
  have he : exec .hdrEos s = .next (raise .noTerminatorError (s.hdr.hstate.code.setWidth 32) s) := by
    rw [exec_hdrEos, whenHealthy_of_healthy hs, endOfStream, if_neg hnd]
  rw [headerScript, run_ask_faulted (answer_of_exec (decode_encode _) he rfl) rfl]

/-- The recipe reads a header as `parseHeader` does: it ends with the same error, or goes on with the body from the
lines after the header (R237). -/
theorem run_headerScript_cases {lines : List Bytes} (hs : Healthy s) (hnd : s.hdr.hstate ≠ .done)
    (hfit : ∀ l ∈ lines, l.length ≤ Config.params.lbufSize) :
    (∃ c info t, parseHeader Config.params lines s.hdr = .error (c, info) ∧ (headerScript body lines).run s =
      { out := [], fault := some (c.code.setWidth 32), block := raise c info t }) ∨
    (∃ r rest resp, parseHeader Config.params lines s.hdr = .ok (r, rest) ∧
      (headerScript body lines).run s = (body rest).run { s with hdr := r, mem.lbuf := [], resp := resp }) := by
  induction lines generalizing s with
  | nil => exact .inl ⟨_, _, s, by rw [parseHeader, if_neg hnd], run_headerScript_nil hs hnd⟩
  | cons l lines ih =>
    obtain ⟨hl, hothers⟩ := List.forall_mem_cons.1 hfit
    cases hstep : parseLine Config.params l s.hdr with
    | raised c info =>
      obtain ⟨t, hrun⟩ := run_headerScript_of_raised (body := body) (lines := lines) hs hl hstep
      exact .inl ⟨c, info, t, parseHeader_raised hstep, hrun⟩
    | stepped hit h1 =>
      obtain ⟨resp, hrun⟩ := run_headerScript_of_stepped (body := body) (lines := lines) hs hl hstep
      rw [hrun, parseHeader_stepped hstep]
      by_cases hd : h1.hstate = .done
      · rw [if_pos hd, if_pos hd]
        exact .inr ⟨h1, lines, resp, rfl, rfl⟩
      · rw [if_neg hd, if_neg hd]
        exact ih (s := { s with hdr := h1, mem.lbuf := [], resp := resp }) hs hd hothers

end HeaderLines

/-! ## The flow over the rows of a body -/

/-- The reverse flow over rows already collected, at the header's mode; `ended` says whether the body came to its end
(R222 to R225, R229). -/
def rowsFlow (mode : Word) (rows : List (List Byte)) (ended : Bool) : FlowResult SinkItem :=
  if rows = [] ∨ validMode mode.toNat = true then
    { out := rows.map fun row => sinkItem (codecDecode row mode.toNat),
      error := if ended then none else some (.boundsError, 0) }
  else { out := [], error := some (.formatError, mode) }

theorem reverseBody_eq_rowsFlow (limit : Nat) (mode : Word) (body : List PixelDecl) :
    reverseBody limit mode body =
      rowsFlow mode (reassemble limit body Reassembler.start).1 (reassemble limit body Reassembler.start).2 := by
  simp only [reverseBody, rowsFlow, reconstruct, List.map_map]
  rfl

theorem rowsFlow_nil (mode : Word) (ended : Bool) :
    rowsFlow mode [] ended = { out := [], error := if ended then none else some (.boundsError, 0) } :=
  if_pos (.inl rfl)

theorem rowsFlow_cons_of_valid {mode : Word} (hm : validMode mode.toNat = true) (row : List Byte)
    (rows : List (List Byte)) (ended : Bool) :
    rowsFlow mode (row :: rows) ended = { rowsFlow mode rows ended with
      out := sinkItem (codecDecode row mode.toNat) :: (rowsFlow mode rows ended).out } := by
  simp [rowsFlow, hm]

/-- At an invalid mode the first flush ends the flow (R132, R251). -/
theorem rowsFlow_cons_of_invalid {mode : Word} (hm : validMode mode.toNat = false) (row : List Byte)
    (rows : List (List Byte)) (ended : Bool) :
    rowsFlow mode (row :: rows) ended = { out := [], error := some (.formatError, mode) } :=
  if_neg (by simp [hm])

/-- Rows once flushed stay flushed, in their order. -/
theorem reassemble_keeps_rows (limit : Nat) (body : List PixelDecl) (a : Reassembler) :
    ∃ more, (reassemble limit body a).1 = a.rows ++ more := by
  induction body generalizing a with
  | nil =>
    rw [reassemble, Reassembler.finish]
    split_ifs
    · exact ⟨[], (List.append_nil _).symm⟩
    · exact ⟨_, rfl⟩
  | cons d body ih =>
    by_cases hx : limit ≤ d.x
    · rw [reassemble_cons_of_ge hx]
      exact ⟨[], (List.append_nil _).symm⟩
    · rw [reassemble_cons_of_lt (Nat.not_le.1 hx)]
      obtain ⟨more, e⟩ := ih (a.feed d)
      by_cases hy : a.y = none ∨ a.y = some d.y
      · exact ⟨more, by rw [e, feed_of_same_row hy]⟩
      · exact ⟨a.ints :: more, by rw [e, feed_of_new_row hy, List.append_assoc]; rfl⟩

/-! ## The body on the block -/

/-- A run of a host program hands over the items of a flow: it ends with the flow's error latched, or with the block as
given but for the response (R233, R260). -/
structure HandsOver (got : ScriptRun SinkItem) (want : FlowResult SinkItem) (s : State) : Prop where
  out_eq : got.out = want.out
  fault_eq : got.fault = want.error.map fun e => e.1.code.setWidth 32
  latched : ∀ e, want.error = some e → got.block.fault = true ∧ got.block.err = e.1.code ∧ got.block.errInfo = e.2
  ended : want.error = none → got.block = { s with resp := got.block.resp }

theorem handsOver_raise (c : Cause) (info : Word) (t s : State) :
    HandsOver { out := [], fault := some (c.code.setWidth 32), block := raise c info t }
      { out := [], error := some (c, info) } s := by
  refine ⟨rfl, rfl, ?_, nofun⟩
  rintro e ⟨⟩
  exact ⟨rfl, rfl, rfl⟩

theorem HandsOver.emit {next : Script SinkItem} {want : FlowResult SinkItem} {t s : State}
    (h : HandsOver (next.run t) want s) (item : SinkItem) :
    HandsOver ((Script.emit item next).run t) { want with out := item :: want.out } s :=
  ⟨congrArg (item :: ·) h.out_eq, h.fault_eq, h.latched, h.ended⟩

section Body

variable {s : State}

theorem exec_cbPush_of_healthy (b : Byte) (s : State) (hs : s.fault = false) :
    exec (.cbPush b) s = .next (pushByte .cbuf Config.params.cbufSize b s) := by
  rw [exec_cbPush, whenHealthy_of_healthy hs]

/-- The integers of a declaration pushed behind those of its row (R221). -/
theorem run_pushInts (next : Script SinkItem) (d : PixelDecl) (hs : Healthy s)
    (hroom : (s.mem.cbuf ++ d.ints).length ≤ Config.params.cbufSize) :
    ∃ resp, (Script.asks (d.ints.map .cbPush) next).run s =
      next.run { s with mem.cbuf := s.mem.cbuf ++ d.ints, resp := resp } := by
  rw [List.length_append] at hroom
  obtain ⟨resp, -, hpushes⟩ :=
    run_pushes (fun b => decode_encode (.cbPush b)) exec_cbPush_of_healthy next d.ints s hs hroom
  exact ⟨resp, hpushes⟩

/-- The end of a flush: the packet goes out and CBUF is cleared (R222). -/
theorem run_handOver (next : Script SinkItem) (packet : List Byte) (hs : Healthy s) :
    (Script.emit (sinkItem packet) (.ask .cbClr fun _ => next)).run s =
      (Script.emit (sinkItem packet) next).run { s with mem.cbuf := [], resp := some ⟨.ok, 0⟩ } := by
  have hclr : answer .cbClr s = (⟨.ok, 0⟩, clearBytes .cbuf s) :=
    answer_of_exec (decode_encode _) (exec_cbClr_of_healthy hs) rfl
  rw [run_emit, run_emit, run_ask hclr rfl]
  rfl

/-- A flush at a valid mode hands over the row's decode and leaves both buffers empty (R222). -/
theorem run_flushScript_of_valid (next : Script SinkItem) (hs : Healthy s) (ho : s.mem.obuf = [])
    (hb : bppKnown s = true) (hm : validMode s.hdr.bpp.toNat = true)
    (hroom : (codecDecode s.mem.cbuf s.hdr.bpp.toNat).length ≤ Config.params.obufSize) :
    ∃ resp, (flushScript next).run s =
      (Script.emit (sinkItem (codecDecode s.mem.cbuf s.hdr.bpp.toNat)) next).run
        { s with mem.cbuf := [], resp := resp } := by
  have hout : s.mem.obuf ++ codecDecode s.mem.cbuf s.hdr.bpp.toNat = codecDecode s.mem.cbuf s.hdr.bpp.toNat :=
    congrArg (· ++ _) ho
  have he := (exec_decRunh_of_known hs hb).trans
    (congrArg _ (decodeAt_of_room hm (by rw [← List.length_append, hout]; exact hroom)))
  generalize codecDecode s.mem.cbuf s.hdr.bpp.toNat = packet at hroom hout he ⊢
  have hdec : answer .decRunh s = (⟨.ok, BitVec.ofNat 32 packet.length⟩, _) :=
    answer_of_exec (decode_encode _) he rfl
  have hcount : (BitVec.ofNat 32 packet.length).toNat = packet.length := by
    rw [BitVec.toNat_ofNat, Nat.mod_eq_of_lt (Config.params.lt_of_le_obufSize hroom)]
  obtain ⟨resp, hpops⟩ := run_popBytes
    (fun packet => .emit (sinkItem packet) (.ask .cbClr fun _ => next)) packet []
    (respond .ok (BitVec.ofNat 32 packet.length) { s with mem.obuf := s.mem.obuf ++ packet }) hout
  have hempty : { s with mem.cbuf := [], resp := some ⟨.ok, 0⟩ } =
      { s with mem := { s.mem with cbuf := [], obuf := [] }, resp := some ⟨.ok, 0⟩ } := by rw [← ho]
  refine ⟨some ⟨.ok, 0⟩, ?_⟩
  rw [flushScript, run_ask hdec rfl, hcount, hpops, run_handOver _ _ (by exact hs), hempty]
  rfl

/-- A flush at an invalid mode ends the program with `FormatError` (R132). -/
theorem run_flushScript_of_invalid (next : Script SinkItem) (hs : Healthy s) (hb : bppKnown s = true)
    (hm : validMode s.hdr.bpp.toNat = false) :
    (flushScript next).run s =
      { out := [], fault := some (Cause.formatError.code.setWidth 32), block := raise .formatError s.hdr.bpp s } := by
  have he : exec .decRunh s = .next (raise .formatError s.hdr.bpp s) := by
    rw [exec_decRunh_of_known hs hb, decodeAt_of_invalid _ hm, BitVec.ofNat_toNat, BitVec.setWidth_eq]
  rw [flushScript, run_ask_faulted (answer_of_exec (decode_encode _) he rfl) rfl]

/-- A declaration out of bounds ends the program with `BoundsError` (R224, R201). -/
theorem run_abortBounds (next : Script SinkItem) (hs : Healthy s) :
    (Script.ask (.abort Cause.boundsError.code) fun _ => next).run s =
      { out := [], fault := some (Cause.boundsError.code.setWidth 32), block := raise .boundsError 0 s } := by
  have he : exec (.abort Cause.boundsError.code) s = .next (raise .boundsError 0 s) := by
    rw [exec_abort, whenHealthy_of_healthy hs]
    rfl
  rw [run_ask_faulted (answer_of_exec (decode_encode _) he rfl) rfl]

/-- The end of the body: a row still pending is flushed, and `CLEN` tells whether there is one (R225). -/
theorem run_bodyScript_nil (limit : Nat) (y : Option Nat) (hfit : s.mem.cbuf.length ≤ Config.params.cbufSize) :
    ∃ resp, (bodyScript limit y []).run s =
      (if s.mem.cbuf = [] then .done else flushScript .done).run { s with resp := resp } := by
  have hrd : answer (.rd 0x09) s = (⟨.ok, lengthReg s.mem .cbuf⟩, _) :=
    answer_of_exec (decode_encode _) (exec_rd _ s) rfl
  have hzero : lengthReg s.mem .cbuf = 0 ↔ s.mem.cbuf = [] := by
    rw [lengthReg, bytes_cbuf, ← BitVec.toNat_inj, BitVec.toNat_ofNat,
      Nat.mod_eq_of_lt (Config.params.lt_of_le_cbufSize hfit)]
    exact List.length_eq_zero_iff
  refine ⟨some ⟨.ok, lengthReg s.mem .cbuf⟩, ?_⟩
  rw [bodyScript, run_ask hrd rfl]
  simp only [hzero]
  rfl

theorem bodyScript_cons_of_ge {limit : Nat} {d : PixelDecl} (hx : limit ≤ d.x) (y : Option Nat)
    (body : List PixelDecl) : bodyScript limit y (d :: body) = .ask (.abort Cause.boundsError.code) fun _ => .done :=
  if_pos hx

theorem bodyScript_cons_of_same_row {limit : Nat} {d : PixelDecl} (hx : ¬ limit ≤ d.x) {y : Option Nat}
    (hy : y = none ∨ y = some d.y) (body : List PixelDecl) :
    bodyScript limit y (d :: body) = Script.asks (d.ints.map .cbPush) (bodyScript limit (some d.y) body) :=
  (if_neg hx).trans (if_pos hy)

theorem bodyScript_cons_of_new_row {limit : Nat} {d : PixelDecl} (hx : ¬ limit ≤ d.x) {y : Option Nat}
    (hy : ¬ (y = none ∨ y = some d.y)) (body : List PixelDecl) :
    bodyScript limit y (d :: body) =
      flushScript (Script.asks (d.ints.map .cbPush) (bodyScript limit (some d.y) body)) :=
  (if_neg hx).trans (if_neg hy)

/-- A healthy block between two rows of a body: both buffers are empty and the header has its mode. -/
structure BetweenRows (s : State) : Prop where
  healthy : Healthy s
  cbuf_empty : s.mem.cbuf = []
  obuf_empty : s.mem.obuf = []
  bpp_known : bppKnown s = true

/-- The block with a row under way. -/
def collecting (s : State) (ints : List Byte) (resp : Option Response) : State :=
  { s with mem.cbuf := ints, resp := resp }

/-- The decodes of rows have room in OBUF, as far as they are made. -/
def DecodesFit (s : State) (rows : List (List Byte)) : Prop :=
  validMode s.hdr.bpp.toNat = true →
    ∀ row ∈ rows, (codecDecode row s.hdr.bpp.toNat).length ≤ Config.params.obufSize

theorem collecting_nil_ended (h : BetweenRows s) (resp : Option Response) :
    collecting s [] resp = { s with resp := resp } := by
  rw [collecting, ← h.cbuf_empty]

/-- A flush hands over the item of the row under way, and then the program goes on between the rows. -/
theorem flushScript_handsOver (h : BetweenRows s) {next : Script SinkItem} {ints : List Byte}
    {rows : List (List Byte)} {ended : Bool} (hfit : DecodesFit s (ints :: rows)) (resp : Option Response)
    (hnext : ∀ resp, HandsOver (next.run (collecting s [] resp)) (rowsFlow s.hdr.bpp rows ended) s) :
    HandsOver ((flushScript next).run (collecting s ints resp)) (rowsFlow s.hdr.bpp (ints :: rows) ended) s := by
  cases hm : validMode s.hdr.bpp.toNat with
  | true =>
    obtain ⟨resp', hrun⟩ := run_flushScript_of_valid (s := collecting s ints resp) next h.healthy h.obuf_empty
      h.bpp_known hm (hfit hm ints List.mem_cons_self)
    rw [hrun, rowsFlow_cons_of_valid hm]
    exact (hnext resp').emit _
  | false =>
    rw [run_flushScript_of_invalid (s := collecting s ints resp) next h.healthy h.bpp_known hm,
      rowsFlow_cons_of_invalid hm]
    exact handsOver_raise _ _ _ s

/-- At the end of the body nothing more is handed over, or the one row still pending. -/
theorem bodyScript_nil_handsOver (h : BetweenRows s) (limit : Nat) {a : Reassembler} {more : List (List Byte)}
    (hmore : a.finish = a.rows ++ more) (hcbuf : a.ints.length ≤ Config.params.cbufSize) (hobuf : DecodesFit s more)
    (resp : Option Response) :
    HandsOver ((bodyScript limit a.y []).run (collecting s a.ints resp)) (rowsFlow s.hdr.bpp more true) s := by
  have hdone : ∀ resp, HandsOver ((Script.done : Script SinkItem).run (collecting s [] resp))
      (rowsFlow s.hdr.bpp [] true) s := by
    intro resp
    rw [rowsFlow_nil, collecting_nil_ended h]
    exact ⟨rfl, rfl, nofun, fun _ => rfl⟩
  obtain ⟨resp', hrun⟩ := run_bodyScript_nil (s := collecting s a.ints resp) limit a.y hcbuf
  rw [hrun]
  by_cases hints : a.ints = []
  · rw [Reassembler.finish, if_pos hints] at hmore
    obtain rfl : more = [] := List.append_right_eq_self.1 hmore.symm
    rw [if_pos (by exact hints), hints]
    exact hdone resp'
  · rw [finish_of_pending hints] at hmore
    obtain rfl := List.append_cancel_left hmore
    rw [if_neg (by exact hints)]
    exact flushScript_handsOver h hobuf resp' hdone

/-- Reading a body, with the reassembler's row under way in CBUF, hands over the items of the rows it is still to flush
(R237). -/
theorem bodyScript_handsOver (h : BetweenRows s) (limit : Nat) (body : List PixelDecl) {a : Reassembler}
    {more : List (List Byte)} {ended : Bool} (hrows : reassemble limit body a = (a.rows ++ more, ended))
    (hcbuf : ∀ n, ((body.take n).foldl Reassembler.feed a).ints.length ≤ Config.params.cbufSize)
    (hobuf : DecodesFit s more) (resp : Option Response) :
    HandsOver ((bodyScript limit a.y body).run (collecting s a.ints resp)) (rowsFlow s.hdr.bpp more ended) s := by
  induction body generalizing a more resp with
  | nil =>
    obtain ⟨hfinish, rfl⟩ := Prod.mk.inj hrows
    exact bodyScript_nil_handsOver h limit hfinish (hcbuf 0) hobuf resp
  | cons d body ih =>
    by_cases hx : limit ≤ d.x
    · rw [reassemble_cons_of_ge hx] at hrows
      obtain ⟨hnone, rfl⟩ := Prod.mk.inj hrows
      obtain rfl : more = [] := List.append_right_eq_self.1 hnone.symm
      rw [bodyScript_cons_of_ge hx, run_abortBounds _ (by exact h.healthy), rowsFlow_nil]
      exact handsOver_raise _ _ _ s
    · rw [reassemble_cons_of_lt (Nat.not_le.1 hx)] at hrows
      have hnext := hcbuf 1
      have hothers : ∀ n, ((body.take n).foldl Reassembler.feed (a.feed d)).ints.length ≤ Config.params.cbufSize :=
        fun n => hcbuf (n + 1)
      rw [List.take_succ_cons, List.take_zero, List.foldl_cons, List.foldl_nil] at hnext
      by_cases hy : a.y = none ∨ a.y = some d.y
      · have hfeed := feed_of_same_row hy
        obtain ⟨resp', hpush⟩ := run_pushInts (s := collecting s a.ints resp) (bodyScript limit (some d.y) body) d
          h.healthy (by rw [hfeed] at hnext; exact hnext)
        rw [bodyScript_cons_of_same_row hx hy, hpush]
        rw [hfeed] at hrows hothers
        exact ih hrows hothers hobuf resp'
      · have hfeed := feed_of_new_row hy
        rw [hfeed] at hrows hothers hnext
        obtain ⟨later, hlater⟩ := reassemble_keeps_rows limit body ⟨some d.y, d.ints, a.rows ++ [a.ints]⟩
        rw [hrows, List.append_assoc] at hlater
        obtain rfl := List.append_cancel_left hlater
        rw [← List.append_assoc] at hrows
        rw [bodyScript_cons_of_new_row hx hy]
        refine flushScript_handsOver h hobuf resp fun resp₁ => ?_
        obtain ⟨resp', hpush⟩ := run_pushInts (s := collecting s [] resp₁) (bodyScript limit (some d.y) body) d
          h.healthy hnext
        rw [hpush]
        exact ih hrows hothers (fun hm row hrow => hobuf hm row (List.mem_cons_of_mem _ hrow)) resp'

end Body

/-! ## A whole container -/

section Container

variable {s : State}

theorem armed_not_done : HdrRegs.armed.hstate ≠ .done := by decide

theorem run_reverseScript (f : BodyFormat) (limit : Nat) (lines : List Bytes) (hs : Healthy s) :
    (reverseScript f limit lines).run s =
      (headerScript (fun rest => bodyScript limit none (readBody f rest)) lines).run (startHeader s) :=
  run_ask (answer_of_exec (decode_encode _) (exec_hdrStart_of_healthy hs) rfl) rfl

/-- A header that is not read to Done ends the run with its error. -/
theorem reverseScript_handsOver_of_error {f : BodyFormat} {limit : Nat} {lines : List Bytes} {t : State} {c : Cause}
    {info : Word} (hs : Healthy s) (he : parseHeader Config.params lines HdrRegs.armed = .error (c, info))
    (hrun : (headerScript (fun rest => bodyScript limit none (readBody f rest)) lines).run (startHeader s) =
      { out := [], fault := some (c.code.setWidth 32), block := raise c info t }) :
    HandsOver ((reverseScript f limit lines).run s) (reverseRun Config.params f limit lines) s := by
  rw [run_reverseScript f limit lines hs, hrun, reverseRun, he]
  exact handsOver_raise c info t s

/-- After a header that is read to Done the run is that of the body, at the header's mode. -/
theorem reverseScript_handsOver_of_ok {f : BodyFormat} {limit : Nat} {lines rest : List Bytes} {h : HdrRegs}
    {resp : Option Response} (hs : Healthy s) (hc : s.mem.cbuf = []) (ho : s.mem.obuf = [])
    (he : parseHeader Config.params lines HdrRegs.armed = .ok (h, rest))
    (hrun : (headerScript (fun rest => bodyScript limit none (readBody f rest)) lines).run (startHeader s) =
      (bodyScript limit none (readBody f rest)).run { startHeader s with hdr := h, mem.lbuf := [], resp := resp })
    (hcbuf : ∀ n, (((readBody f rest).take n).foldl Reassembler.feed Reassembler.start).ints.length ≤
      Config.params.cbufSize)
    (hobuf : validMode h.bpp.toNat = true → ∀ row ∈ (reassemble limit (readBody f rest) Reassembler.start).1,
      (codecDecode row h.bpp.toNat).length ≤ Config.params.obufSize) :
    HandsOver ((reverseScript f limit lines).run s) (reverseRun Config.params f limit lines)
      { s with hdr := h, mem.lbuf := [] } := by
  obtain ⟨hinv, hdone⟩ := parseHeader_hdrInv (hdrInv_armed Config.params) he
  have hbetween : BetweenRows { s with hdr := h, mem.lbuf := [] } := ⟨hs, hc, ho, hinv.bpp_known_of_done hdone⟩
  have hstart : { startHeader s with hdr := h, mem.lbuf := [], resp := resp } =
      collecting { s with hdr := h, mem.lbuf := [] } [] resp := by
    rw [collecting, ← hc]
    rfl
  rw [run_reverseScript f limit lines hs, hrun, hstart, reverseRun, he]
  simp only [reverseBody_eq_rowsFlow]
  exact bodyScript_handsOver hbetween limit (readBody f rest) (a := Reassembler.start) rfl hcbuf hobuf resp

end Container

end Sys2Proof.Machine

open Sys2Proof Sys2Proof.Machine

/-- Settles O58: by whether the header is read to Done; the body then hands over its rows one flush at a time. -/
theorem reverseRunDeliversThePackets : Obligations.ReverseRunDeliversThePackets := by
  intro s f limit lines hs hc ho hfit hbody
  rcases run_headerScript_cases (body := fun rest => bodyScript limit none (readBody f rest)) (s := startHeader s) hs
    armed_not_done hfit with ⟨c, info, t, he, hrun⟩ | ⟨h, rest, resp, he, hrun⟩
  · obtain ⟨hout, hfault, hlatched, -⟩ := reverseScript_handsOver_of_error hs he hrun
    refine ⟨hout, hfault, hlatched, fun hnone => ?_⟩
    rw [startHeader_hdr] at he
    simp only [reverseRun, he] at hnone
    cases hnone
  · obtain ⟨hcbuf, hobuf⟩ := hbody h rest he
    obtain ⟨hout, hfault, hlatched, hended⟩ := reverseScript_handsOver_of_ok hs hc ho he hrun hcbuf hobuf
    exact ⟨hout, hfault, hlatched, fun hnone => ⟨h, rest, he, hended hnone⟩⟩

end

section
/-! The reverse flow over a written container (R217, R226 to R229). The header's lines bring the parser to Done with
every written value in its register, and the body's lines are read back as the declarations written. -/

namespace Sys2Proof.Machine

/-! ## Stored fields -/

/-- The register that a field fills (R164). -/
def HdrRegs.fieldReg (h : HdrRegs) : (f : FieldId) → f.Val
  | .scale => h.scale
  | .bitsPerPixel => h.bpp
  | .timestamp => h.timestamp
  | .source => h.source
  | .filter => h.filter
  | .logicGateName => h.gateName
  | .logicOperand => h.operand

section Fields

variable {strMax : Nat} {f : FieldId} {v : f.Val} {h stored : HdrRegs}

theorem storeField_fieldReg (e : storeField strMax f v h = some stored) : stored.fieldReg f = v := by
  cases f <;> simp only [storeField] at e <;> (try split_ifs at e) <;> cases e <;> rfl

theorem storeField_fieldReg_of_ne (e : storeField strMax f v h = some stored) {g : FieldId} (hne : f ≠ g) :
    stored.fieldReg g = h.fieldReg g := by
  obtain ⟨hscale, hbpp, htime, hsource, hfilter, hgate, hop⟩ := storeField_others e
  cases g
  case scale => exact hscale hne
  case bitsPerPixel => exact hbpp hne
  case timestamp => exact htime hne
  case source => exact hsource hne
  case filter => exact hfilter hne
  case logicGateName => exact hgate hne
  case logicOperand => exact hop hne

theorem markStored_fieldReg (h : HdrRegs) (g : FieldId) : (markStored h).fieldReg g = h.fieldReg g := by
  cases g <;> rfl

/-- Only a string can be too long to be stored (R164). -/
theorem storeField_isSome (h : HdrRegs) {vals : (f : FieldId) → f.Val}
    (htime : f = .timestamp → (vals .timestamp).length ≤ strMax)
    (hsource : f = .source → (vals .source).length ≤ strMax)
    (hfilter : f = .filter → (vals .filter).length ≤ strMax)
    (hgate : f = .logicGateName → (vals .logicGateName).length ≤ strMax) :
    ∃ stored, storeField strMax f (vals f) h = some stored := by
  cases f
  case timestamp => exact ⟨_, if_neg (Nat.not_lt.2 (htime rfl))⟩
  case source => exact ⟨_, if_neg (Nat.not_lt.2 (hsource rfl))⟩
  case filter => exact ⟨_, if_neg (Nat.not_lt.2 (hfilter rfl))⟩
  case logicGateName => exact ⟨_, if_neg (Nat.not_lt.2 (hgate rfl))⟩
  case scale | bitsPerPixel | logicOperand => exact ⟨_, rfl⟩

/-- A version's required fields are those with the first ids (R152, R153). -/
theorem requiredFields_eq_take (ver : Version) :
    requiredFields ver = (requiredFields .c).take (versionFields ver).toNat := by
  cases ver <;> rfl

theorem requiredFields_length (ver : Version) : (requiredFields ver).length = (versionFields ver).toNat := by
  cases ver <;> rfl

theorem fieldOfId_eq_getElem? (n : Nat) : fieldOfId n = (requiredFields .c)[n]? := by
  rcases n with _ | _ | _ | _ | _ | _ | _ | n <;> rfl

/-- The field awaited after `i` fields is the version's field number `i` (R160). -/
theorem fieldOfId_of_requiredFields {ver : Version} {i : Nat} (e : (requiredFields ver)[i]? = some f) :
    fieldOfId i = some f := by
  rw [requiredFields_eq_take, List.getElem?_take] at e
  split_ifs at e
  rw [fieldOfId_eq_getElem?, e]

end Fields

/-! ## Reading a written header -/

section Header

variable {p : Params}

/-- A line with the awaited field's value is stored (R160). -/
theorem parseHeader_field {l : Bytes} {lines : List Bytes} {h stored : HdrRegs} {f : FieldId} {v : f.Val}
    (hs : h.hstate = .scanFields) (he : expectedField h = some f) (hmatch : p.fieldMatch f l = some v)
    (hst : storeField p.strMax f v h = some stored) :
    parseHeader p (l :: lines) h = parseHeader p lines (markStored stored) := by
  have hparse : parseLine p l h = .stepped true (markStored stored) := by
    simp only [parseLine_scanFields hs, scanFields, he, hmatch, hst]
  obtain ⟨khs, -⟩ := storeField_keeps hst
  rw [parseHeader_stepped hparse, markStored_hstate, khs, hs, if_neg (by decide)]

/-- The comment-close line after the last field ends the header (R161). -/
theorem parseHeader_close {l : Bytes} {lines : List Bytes} {h : HdrRegs} (hs : h.hstate = .scanFields)
    (hfull : h.fidx = h.fcnt) (hclose : p.closeMatch l = true) :
    parseHeader p (l :: lines) h = .ok ({ h with hstate := .done }, lines) := by
  have hlt : ¬ h.fidx < h.fcnt := by
    rw [hfull]
    exact BitVec.lt_irrefl _
  have hparse : parseLine p l h = .stepped true { h with hstate := .done } := by
    simp only [parseLine_scanFields hs, scanFields, expectedField, if_neg hlt, scanClose, if_pos hclose]
  rw [parseHeader_stepped hparse, if_pos rfl]

/-- The field awaited is the required one with as many before it as are stored. -/
theorem expectedField_of_required {ver : Version} {h : HdrRegs} {f : FieldId} (hcnt : h.fcnt = versionFields ver)
    (hget : (requiredFields ver)[h.fidx.toNat]? = some f) : expectedField h = some f := by
  obtain ⟨hlt, -⟩ := List.getElem?_eq_some_iff.1 hget
  rw [requiredFields_length, ← hcnt] at hlt
  exact expectedField_eq_some.2 ⟨BitVec.lt_def.2 hlt, fieldOfId_of_requiredFields hget⟩

/-- After a store the next field is awaited, in the same state of the parser. -/
theorem markStored_sequencing {strMax : Nat} {h stored : HdrRegs} {f : FieldId} {v : f.Val}
    (hst : storeField strMax f v h = some stored) (hlt : h.fidx.toNat < h.fcnt.toNat) :
    (markStored stored).hstate = h.hstate ∧ (markStored stored).fcnt = h.fcnt ∧
      (markStored stored).fidx.toNat = h.fidx.toNat + 1 := by
  obtain ⟨khs, kfidx, kfcnt, -⟩ := storeField_keeps hst
  refine ⟨khs, kfcnt, ?_⟩
  have hbound := h.fcnt.isLt
  rw [markStored_fidx, kfidx, BitVec.toNat_add]
  simp
  omega

/-- What a store adds to the registers that hold their values: the field's own. -/
theorem markStored_holds {strMax : Nat} {vals : (f : FieldId) → f.Val} {h stored : HdrRegs} {f : FieldId}
    (hst : storeField strMax f (vals f) h = some stored) {g : FieldId} (hg : f = g ∨ h.fieldReg g = vals g) :
    (markStored stored).fieldReg g = vals g := by
  rw [markStored_fieldReg]
  by_cases hfg : f = g
  · subst hfg
    exact storeField_fieldReg hst
  · rw [storeField_fieldReg_of_ne hst hfg]
    exact hg.resolve_left hfg

/-- A header's lines match as intended, each in the state that meets it, and its strings fit (R151, R164, R226). -/
structure ReadsBack (p : Params) (t : HeaderText) (vals : (f : FieldId) → f.Val) : Prop where
  dim : p.dimMatch t.dimLine = true
  commentOpen : p.openMatch t.openLine = true
  version : p.verMatch t.versionLine = some (p.key t.version)
  field : ∀ f ∈ requiredFields t.version, p.fieldMatch f (t.fieldLine f) = some (vals f)
  store : ∀ f ∈ requiredFields t.version, ∀ h, ∃ stored, storeField p.strMax f (vals f) h = some stored
  close : p.closeMatch t.closeLine = true

variable {t : HeaderText} {vals : (f : FieldId) → f.Val}

/-- The fields still to come, then the comment-close line: each field's value reaches its register, and what is stored
already stays. -/
theorem parseHeader_fields (ht : ReadsBack p t vals) (lines : List Bytes) (fields : List FieldId) {h : HdrRegs}
    (hfields : (requiredFields t.version).drop h.fidx.toNat = fields) (hs : h.hstate = .scanFields)
    (hcnt : h.fcnt = versionFields t.version) (hidx : h.fidx.toNat ≤ h.fcnt.toNat) :
    ∃ r, parseHeader p (fields.map t.fieldLine ++ t.closeLine :: lines) h = .ok (r, lines) ∧
      ∀ g, (g ∈ fields ∨ h.fieldReg g = vals g) → r.fieldReg g = vals g := by
  induction fields generalizing h with
  | nil =>
    have hge := List.drop_eq_nil_iff.1 hfields
    rw [requiredFields_length, ← hcnt] at hge
    have hfull : h.fidx = h.fcnt := BitVec.eq_of_toNat_eq (le_antisymm hidx hge)
    refine ⟨_, parseHeader_close hs hfull ht.close, fun g hg => ?_⟩
    have hkept : HdrRegs.fieldReg { h with hstate := .done } g = h.fieldReg g := by cases g <;> rfl
    rw [hkept]
    exact hg.resolve_left List.not_mem_nil
  | cons f fields ih =>
    have hget : (requiredFields t.version)[h.fidx.toNat]? = some f := by
      rw [← List.head?_drop, hfields, List.head?_cons]
    have hothers : (requiredFields t.version).drop (h.fidx.toNat + 1) = fields := by
      rw [← List.tail_drop, hfields, List.tail_cons]
    have hmem := List.mem_of_getElem? hget
    have he := expectedField_of_required hcnt hget
    have hlt : h.fidx.toNat < h.fcnt.toNat := BitVec.lt_def.1 (expectedField_eq_some.1 he).1
    obtain ⟨stored, hst⟩ := ht.store f hmem h
    obtain ⟨khs, kfcnt, hnext⟩ := markStored_sequencing hst hlt
    obtain ⟨r, hread, hregs⟩ := ih (h := markStored stored) (hnext ▸ hothers) (khs.trans hs) (kfcnt.trans hcnt)
      (by rw [hnext, kfcnt]; exact hlt)
    refine ⟨r, ?_, fun g hg => hregs g ?_⟩
    · rw [List.map_cons, List.cons_append, parseHeader_field hs he (ht.field f hmem) hst, hread]
    · rw [List.mem_cons, or_assoc, eq_comm, or_left_comm] at hg
      exact hg.imp_right (markStored_holds hst)

/-- The registers once a written header's version is resolved (R159). -/
def HdrRegs.resolved (p : Params) (ver : Version) : HdrRegs :=
  { HdrRegs.armed with
    formatVersion := p.key ver, veridx := versionIndex ver, fcnt := versionFields ver, fidx := 0,
    hstate := .scanFields }

/-- The lines before the fields: dimensions, comment-open, version tag (R157 to R159). -/
theorem parseHeader_upToVersion (ht : ReadsBack p t vals) (lines : List Bytes) :
    parseHeader p (t.dimLine :: t.openLine :: t.versionLine :: lines) HdrRegs.armed =
      parseHeader p lines (HdrRegs.resolved p t.version) := by
  have hdim : parseLine p t.dimLine HdrRegs.armed =
      .stepped true { HdrRegs.armed with hstate := .scanCommentOpen } := by
    rw [parseLine_scanDimensions rfl, if_pos ht.dim]
  have hopen : parseLine p t.openLine { HdrRegs.armed with hstate := .scanCommentOpen } =
      .stepped true { HdrRegs.armed with hstate := .scanVersion } := by
    rw [parseLine_scanCommentOpen rfl, if_pos ht.commentOpen]
  have hver : parseLine p t.versionLine { HdrRegs.armed with hstate := .scanVersion } =
      .stepped true (HdrRegs.resolved p t.version) := by
    rw [parseLine_scanVersion rfl, scanVersion, ht.version]
    simp only [lookupVersion_key]
    rfl
  rw [parseHeader_stepped hdim, if_neg nofun, parseHeader_stepped hopen, if_neg nofun, parseHeader_stepped hver,
    if_neg nofun]

/-- Header lines in the order of R226 bring the parser from its reset state to Done, and the lines after them are left
for the body. -/
theorem parseHeader_headerText (ht : ReadsBack p t vals) (lines : List Bytes) :
    ∃ r, parseHeader p (t.lines ++ lines) HdrRegs.armed = .ok (r, lines) ∧
      ∀ g ∈ requiredFields t.version, r.fieldReg g = vals g := by
  obtain ⟨r, hread, hregs⟩ := parseHeader_fields ht lines (requiredFields t.version)
    (h := HdrRegs.resolved p t.version) rfl rfl rfl (Nat.zero_le _)
  refine ⟨r, ?_, fun g hg => hregs g (.inl hg)⟩
  simp only [HeaderText.lines, List.cons_append, List.nil_append, List.append_assoc]
  rw [parseHeader_upToVersion ht, hread]

theorem bitsPerPixel_required (ver : Version) : .bitsPerPixel ∈ requiredFields ver := by
  cases ver <;> decide

end Header

/-! ## Reading a written body -/

/-- Declarations and the terminator read back as written (R227). -/
theorem readBody_declLines {f : BodyFormat} (hdecl : ∀ d, f.readLine (f.declLine d) = .pixel d)
    (hterm : f.readLine f.terminatorLine = .terminator) (decls : List PixelDecl) :
    readBody f (decls.map f.declLine ++ [f.terminatorLine]) = decls := by
  induction decls with
  | nil => simp only [List.map_nil, List.nil_append, readBody, hterm]
  | cons d decls ih => simp only [List.map_cons, List.cons_append, readBody, hdecl, ih]

/-- In the fixed layout packet number `j` is row `j` (R223). -/
theorem packetRows_fixed {cfg : ForwardConfig} (hfixed : cfg.layout = .fixed) (first : Capture) (j : Nat)
    (packets : List Capture) :
    packetRows cfg first j packets = ((packets.map Capture.payload).zipIdx j).map Prod.swap := by
  induction packets generalizing j with
  | nil => rfl
  | cons c packets ih =>
    rw [packetRows, ih, hfixed]
    rfl

theorem captureRows_fixed {cfg : ForwardConfig} (hfixed : cfg.layout = .fixed) (packets : List Capture) :
    captureRows cfg packets = (packets.map Capture.payload).zipIdx.map Prod.swap := by
  cases packets with
  | nil => rfl
  | cons first packets => exact packetRows_fixed hfixed first 0 _

/-- The body of the fixed layout: the packets' pixels as rows 0, 1, 2 and so on. -/
theorem forwardBody_fixed {cfg : ForwardConfig} (hfixed : cfg.layout = .fixed) (packets : List Capture) :
    forwardBody cfg packets =
      (((packets.map Capture.payload).map (packetPixels cfg.mode.toNat cfg.gate cfg.operand)).zipIdx.flatMap
        fun ry => writeRow ry.2 ry.1) := by
  rw [forwardBody, captureRows_fixed hfixed]
  generalize packets.map Capture.payload = payloads
  rw [List.flatMap_map, List.zipIdx_map, List.flatMap_map]
  rfl

/-! ## The round trip of a container -/

/-- A whole container: the header's lines, the declarations, the terminator (R226, R227). -/
theorem forwardRun_out {cfg : ForwardConfig} (hm : validMode cfg.mode.toNat = true) (packets : List Capture) :
    (forwardRun cfg ⟨packets, .endOfStream⟩).out = cfg.headerText.lines ++
      ((forwardBody cfg packets).map cfg.format.declLine ++ [cfg.format.terminatorLine]) := by
  rw [forwardRun_of_valid (.inr hm)]
  rfl

/-- The reverse flow over the rows of packets, at the mode they were encoded at (R229). -/
theorem reverseBody_packets {mode : BitVec 24} {g : Gate} {op : Byte} (hm : validMode mode.toNat = true) {limit : Nat}
    {payloads : List (List Byte)}
    (hfit : ∀ p ∈ payloads, p ≠ [] ∧ p.length < 2 ^ 32 ∧ (packetPixels mode.toNat g op p).length ≤ limit) :
    reverseBody limit (mode.setWidth 32)
        ((payloads.map (packetPixels mode.toNat g op)).zipIdx.flatMap fun ry => writeRow ry.2 ry.1) =
      { out := payloads.map fun p =>
          sinkItem (transformPayload g op p ++ List.replicate (roundTripZeros mode.toNat p.length) 0),
        error := none } := by
  have hmode : (mode.setWidth 32).toNat = mode.toNat := by
    rw [BitVec.toNat_setWidth, Nat.mod_eq_of_lt (lt_trans mode.isLt (by decide))]
  simp only [reverseBody, hmode, reconstruct_packets hm hfit,
    reassemble_packets fun p hp => ⟨(hfit p hp).1, (hfit p hp).2.2⟩, if_pos (Or.inr hm), List.map_map]
  rfl

end Sys2Proof.Machine

open Sys2Proof Sys2Proof.Machine

/-- Settles O59: the header is read back with the written values, and the body with the written rows. -/
theorem containerRoundTrip : Obligations.ContainerRoundTrip := by
  intro p cfg limit packets text fields container hdim hopen hver hmatch htime hsource hfilter hgate hclose hm hdecl
    hterm hfixed hpackets
  have hstore : ∀ f ∈ fields, ∀ h, ∃ stored, storeField p.strMax f (cfg.fieldVal f) h = some stored :=
    fun f hf h => storeField_isSome h (fun e => htime (e ▸ hf)) (fun e => hsource (e ▸ hf)) (fun e => hfilter (e ▸ hf))
      (fun e => hgate (e ▸ hf))
  obtain ⟨h, hread, hregs⟩ := parseHeader_headerText (t := text) ⟨hdim, hopen, hver, hmatch, hstore, hclose⟩
    ((forwardBody cfg packets).map cfg.format.declLine ++ [cfg.format.terminatorLine])
  rw [← forwardRun_out hm packets] at hread
  have hbpp : h.bpp = cfg.mode.setWidth 32 := hregs .bitsPerPixel (bitsPerPixel_required _)
  refine ⟨?_, h, _, hread, hbpp, hregs .logicGateName, hregs .logicOperand⟩
  rw [reverseRun, hread]
  simp only [readBody_declLines hdecl hterm, hbpp, forwardBody_fixed hfixed]
  rw [reverseBody_packets hm, List.map_map]
  · rfl
  · intro q hq
    obtain ⟨c, hc, rfl⟩ := List.mem_map.1 hq
    exact hpackets c hc

end

section
/-! The header commands on a healthy block (R155 to R164): `HDR.LINE` by what the parser makes of the line, each state
by the lemma that says all that a line can do there. -/

namespace Sys2Proof.Machine

section HeaderLine

variable {s : State}

/-- A line that the parser takes or skips, with the response's data as one number (R156). -/
theorem exec_hdrLine_of_answer {hit : Bool} {h : HdrRegs} (st : HState) {data : Word} (hs : Healthy s)
    (hparse : parseLine Config.params s.mem.lbuf s.hdr = .stepped hit h) (hst : h.hstate = st)
    (hdata : lineData hit st = data) :
    exec .hdrLine s = .next (respond .ok data { s with hdr := h, mem.lbuf := [] }) := by
  subst hst hdata
  exact exec_hdrLine_of_stepped hs hparse

theorem exec_hdrLine_scanDimensions (hs : Healthy s) (hst : s.hdr.hstate = .scanDimensions) :
    exec .hdrLine s = .next
      (if Config.params.dimMatch s.mem.lbuf then
        respond .ok 0x101 { s with hdr.hstate := .scanCommentOpen, mem.lbuf := [] }
      else respond .ok 0x000 { s with mem.lbuf := [] }) := by
  have hparse := parseLine_scanDimensions hst Config.params s.mem.lbuf
  split_ifs at hparse ⊢
  · exact exec_hdrLine_of_answer .scanCommentOpen hs hparse rfl (by decide)
  · exact exec_hdrLine_of_answer .scanDimensions hs hparse hst (by decide)

theorem exec_hdrLine_scanCommentOpen (hs : Healthy s) (hst : s.hdr.hstate = .scanCommentOpen) :
    exec .hdrLine s = .next
      (if Config.params.openMatch s.mem.lbuf then
        respond .ok 0x102 { s with hdr.hstate := .scanVersion, mem.lbuf := [] }
      else respond .ok 0x001 { s with mem.lbuf := [] }) := by
  have hparse := parseLine_scanCommentOpen hst Config.params s.mem.lbuf
  split_ifs at hparse ⊢
  · exact exec_hdrLine_of_answer .scanVersion hs hparse rfl (by decide)
  · exact exec_hdrLine_of_answer .scanCommentOpen hs hparse hst (by decide)

/-- A line that is no field meets the comment-close test (R161). -/
theorem exec_hdrLine_of_scanClose (hs : Healthy s) (hst : s.hdr.hstate = .scanFields)
    (hparse : parseLine Config.params s.mem.lbuf s.hdr = scanClose Config.params s.mem.lbuf s.hdr) :
    exec .hdrLine s = .next
      (if Config.params.closeMatch s.mem.lbuf then
        if s.hdr.fidx.toNat < s.hdr.fcnt.toNat then raise .headerIncompleteError (s.hdr.fidx.setWidth 32) s
        else respond .ok 0x104 { s with hdr.hstate := .done, mem.lbuf := [] }
      else respond .ok 0x003 { s with mem.lbuf := [] }) := by
  rcases scanClose_cases Config.params s.mem.lbuf s.hdr with ⟨hc, e⟩ | ⟨hc, hlt, e⟩ | ⟨hc, hge, e⟩ <;>
    rw [hc] <;> rw [e] at hparse
  · exact exec_hdrLine_of_answer .scanFields hs hparse hst (by decide)
  · rw [if_pos rfl, if_pos (BitVec.lt_def.1 hlt)]
    exact exec_hdrLine_of_raised hs hparse
  · rw [if_pos rfl, if_neg (mt BitVec.lt_def.2 hge)]
    exact exec_hdrLine_of_answer .done hs hparse rfl (by decide)

/-- A field whose value fits is stored and counted (R160, R164). -/
theorem exec_hdrLine_of_stored {f : FieldId} {v : f.Val} {stored : HdrRegs} (hs : Healthy s)
    (hst : s.hdr.hstate = .scanFields) (hstore : storeField Config.params.strMax f v s.hdr = some stored)
    (hparse : parseLine Config.params s.mem.lbuf s.hdr = .stepped true (markStored stored)) :
    exec .hdrLine s = .next (respond .ok 0x103
      { s with hdr := { stored with hvalid := s.hdr.hvalid ||| (1 : BitVec 7) <<< s.hdr.fidx.toNat,
                                    fidx := s.hdr.fidx + 1 },
               mem.lbuf := [] }) := by
  obtain ⟨khs, kfidx, -, -, khv, -⟩ := storeField_keeps hstore
  rw [exec_hdrLine_of_answer (data := 0x103) .scanFields hs hparse (khs.trans hst) (by decide), markStored, khv, kfidx]

end HeaderLine

/-- The version keys are distinct (R152). -/
theorem key_ne (p : Params) {v w : Version} (h : v ≠ w) : p.key v ≠ p.key w := mt p.key_injective h

end Sys2Proof.Machine

open Sys2Proof Sys2Proof.Machine

/-- Settles O39. -/
theorem headerStartArmsTheParser : Obligations.HeaderStartArmsTheParser :=
  fun _ => exec_hdrStart_of_healthy

/-- Settles O40. -/
theorem dimensionAndOpenLinesMoveOn : Obligations.DimensionAndOpenLinesMoveOn :=
  fun _ hs => ⟨exec_hdrLine_scanDimensions hs, exec_hdrLine_scanCommentOpen hs⟩

/-- Settles O41: the keys are distinct, so a version's own key passes the tests before its own. -/
theorem versionLineResolvesOrFails : Obligations.VersionLineResolvesOrFails := by
  intro s hs hst resolved
  have hparse := parseLine_scanVersion hst Config.params s.mem.lbuf
  rcases scanVersion_cases Config.params s.mem.lbuf s.hdr with ⟨hm, e⟩ | ⟨v, hm, hnone, e⟩ | ⟨ver, hm, e⟩ <;>
    rw [e] at hparse <;> simp only [hm]
  · exact exec_hdrLine_of_answer .scanVersion hs hparse hst (by decide)
  · have hno := (lookupVersion_eq_none_iff _ _).1 hnone
    rw [if_neg (hno .c), if_neg (hno .b), if_neg (hno .a)]
    exact exec_hdrLine_of_raised hs hparse
  · have hnext := exec_hdrLine_of_answer (data := 0x103) .scanFields hs hparse rfl (by decide)
    cases ver with
    | a =>
      rw [if_neg (key_ne _ (by decide)), if_neg (key_ne _ (by decide)), if_pos rfl]
      exact hnext
    | b =>
      rw [if_neg (key_ne _ (by decide)), if_pos rfl]
      exact hnext
    | c =>
      rw [if_pos rfl]
      exact hnext

/-- Settles O42: by the three things a line can do in ScanFields. -/
theorem fieldLineStoresOrCloses : Obligations.FieldLineStoresOrCloses := by
  intro s hs hst line notField
  have hparse := parseLine_scanFields hst Config.params s.mem.lbuf
  refine ⟨fun f hlt hf => ?_, fun hge => ?_⟩
  · have hexpected : expectedField s.hdr = some f := expectedField_eq_some.2 ⟨hlt, hf⟩
    rcases scanFields_cases Config.params s.mem.lbuf s.hdr with
      ⟨g, v, stored, hg, hm, hstore, e⟩ | ⟨g, v, hg, hm, hstore, e⟩ | ⟨hm, e⟩ <;> rw [e] at hparse
    · cases hexpected.symm.trans hg
      simp only [line, hm, hstore]
      exact exec_hdrLine_of_stored hs hst hstore hparse
    · cases hexpected.symm.trans hg
      simp only [line, hm, hstore]
      exact exec_hdrLine_of_raised hs hparse
    · simp only [line, hm f hexpected]
      exact exec_hdrLine_of_scanClose hs hst hparse
  · have hexpected : expectedField s.hdr = none := if_neg (Nat.not_lt.2 hge)
    simp only [scanFields, hexpected] at hparse
    exact exec_hdrLine_of_scanClose hs hst hparse

/-- Settles O43. -/
theorem storeWritesItsDestination : Obligations.StoreWritesItsDestination := by
  intro strMax h
  refine ⟨fun _ => rfl, fun _ => rfl, fun _ => rfl, fun v hfits => ?_, fun v hlong => ?_⟩
  · have hlen : ¬ strMax < v.length := Nat.not_lt.2 hfits
    exact ⟨if_neg hlen, if_neg hlen, if_neg hlen, if_neg hlen⟩
  · exact ⟨if_pos hlong, if_pos hlong, if_pos hlong, if_pos hlong⟩

/-- Settles O44. -/
theorem lineInDoneIsIgnored : Obligations.LineInDoneIsIgnored :=
  fun _ hs hd => exec_hdrLine_of_answer .done hs (parseLine_done hd _ _) hd (by decide)

/-- Settles O45. -/
theorem endOfStreamNeedsDone : Obligations.EndOfStreamNeedsDone := by
  intro s hs
  rw [exec_hdrEos, whenHealthy_of_healthy hs]
  rcases endOfStream_cases s with ⟨hd, e⟩ | ⟨hd, e⟩ <;> rw [e]
  · exact ⟨fun _ => rfl, fun hnd => absurd hd hnd⟩
  · exact ⟨fun h => absurd h hd, fun _ => rfl⟩

end

section
/-! The parser only moves forward (R154): a line keeps its state or brings it to the next one, and no other command but
`HDR.START` and `SRST` writes the header registers. -/

namespace Sys2Proof.Machine

theorem scanFields_forward {p : Params} {line : Bytes} {h h' : HdrRegs} {hit : Bool}
    (e : scanFields p line h = .stepped hit h') : h'.hstate = h.hstate ∨ h'.hstate = .done := by
  rcases scanFields_cases p line h with ⟨f, v, stored, -, -, hst, e'⟩ | ⟨f, v, -, -, -, e'⟩ | ⟨-, e'⟩ <;>
    rw [e'] at e
  · cases e
    obtain ⟨khs, -⟩ := storeField_keeps hst
    exact .inl khs
  · cases e
  · rcases scanClose_cases p line h with ⟨-, e'⟩ | ⟨-, -, e'⟩ | ⟨-, -, e'⟩ <;> rw [e'] at e <;> cases e
    · exact .inl rfl
    · exact .inr rfl

/-- A line that is not refused keeps the parser's state or brings it to the next one (R154). -/
theorem parseLine_forward {p : Params} {line : Bytes} {h h' : HdrRegs} {hit : Bool}
    (e : parseLine p line h = .stepped hit h') :
    h'.hstate = h.hstate ∨ h'.hstate.code.toNat = h.hstate.code.toNat + 1 := by
  cases hs : h.hstate with
  | scanDimensions =>
    rw [parseLine_scanDimensions hs] at e
    split_ifs at e <;> cases e
    · exact .inr rfl
    · exact .inl hs
  | scanCommentOpen =>
    rw [parseLine_scanCommentOpen hs] at e
    split_ifs at e <;> cases e
    · exact .inr rfl
    · exact .inl hs
  | scanVersion =>
    rw [parseLine_scanVersion hs] at e
    rcases scanVersion_cases p line h with ⟨-, e'⟩ | ⟨v, -, -, e'⟩ | ⟨ver, -, e'⟩ <;> rw [e'] at e <;> cases e
    · exact .inl hs
    · exact .inr rfl
  | scanFields =>
    rw [parseLine_scanFields hs] at e
    rcases scanFields_forward e with hkept | hdone
    · exact .inl (hkept.trans hs)
    · exact .inr (by rw [hdone]; rfl)
  | done =>
    rw [parseLine_done hs] at e
    cases e
    exact .inl hs

section Commands

variable {s t : State}

/-- `HDR.LINE` keeps the parser's state, as it does where it raises or is dead, or makes one step forward (R154, R156). -/
theorem exec_hdrLine_forward (e : exec .hdrLine s = .next t) :
    t.hdr.hstate = s.hdr.hstate ∨
      (t.fault = false ∧ t.hdr.hstate.code.toNat = s.hdr.hstate.code.toNat + 1) := by
  cases e
  rcases whenHealthy_cases (presentLine Config.params) s with ⟨-, e⟩ | ⟨hs, e⟩ <;> rw [e]
  · exact .inl rfl
  · rcases presentLine_cases Config.params s with ⟨c, info, -, e'⟩ | ⟨hit, h, hparse, e'⟩ <;> rw [e']
    · exact .inl rfl
    · exact (parseLine_forward hparse).imp_right fun hnext => ⟨hs, hnext⟩

theorem exec_hdrStart_hstate (e : exec .hdrStart s = .next t) :
    t.hdr.hstate = s.hdr.hstate ∨ t.hdr.hstate = .scanDimensions := by
  cases e
  rcases whenHealthy_cases startHeader s with ⟨-, e⟩ | ⟨-, e⟩ <;> rw [e]
  · exact .inl rfl
  · exact .inr rfl

theorem exec_hdr_of_unit {i : Instr} (hu : unitOf i = some .hdr) (hstart : i ≠ .hdrStart) (hline : i ≠ .hdrLine)
    (e : exec i s = .next t) : t.hdr = s.hdr := by
  cases i <;> cases hu <;> cases e
  case lbClr => exact whenHealthy_hdr (clearBytes_hdr .lbuf s)
  case lbPush b => exact whenHealthy_hdr (pushByte_hdr .lbuf _ b s)
  case hdrStart => exact absurd rfl hstart
  case hdrLine => exact absurd rfl hline
  case hdrEos => exact whenHealthy_hdr (endOfStream_hdr s)

/-- The commands that write header registers are `SRST`, `HDR.START` and `HDR.LINE`. -/
theorem exec_hdr_of_ne {i : Instr} (hsrst : i ≠ .srst) (hstart : i ≠ .hdrStart) (hline : i ≠ .hdrLine)
    (e : exec i s = .next t) : t.hdr = s.hdr := by
  by_cases hu : unitOf i = some .hdr
  · exact exec_hdr_of_unit hu hstart hline e
  · obtain ⟨-, hhdr⟩ := exec_agreeOn_other hsrst hu e
    exact hhdr.symm

end Commands

end Sys2Proof.Machine

open Sys2Proof Sys2Proof.Machine

/-- Settles O46: only `HDR.LINE` makes a step of the parser, and `HDR.START` and `SRST` begin anew. -/
theorem parserOnlyMovesForward : Obligations.ParserOnlyMovesForward := by
  intro i s t e
  by_cases hline : i = .hdrLine
  · subst hline
    exact (exec_hdrLine_forward e).imp_right fun hnext => .inl ⟨rfl, hnext⟩
  by_cases hstart : i = .hdrStart
  · subst hstart
    exact (exec_hdrStart_hstate e).imp_right fun hanew => .inr ⟨.inl rfl, hanew⟩
  by_cases hsrst : i = .srst
  · subst hsrst
    cases e
    exact .inr (.inr ⟨.inr rfl, rfl⟩)
  exact .inl (congrArg HdrRegs.hstate (exec_hdr_of_ne hsrst hstart hline e))

end

section
/-! A header in the order of the writer (R167, R226): the lines are all read when the parser reaches Done, and the version
that they resolved is the one in its registers there. -/

namespace Sys2Proof.Machine

variable {p : Params}

/-- A header that ends with the last line is what the parser makes of all the lines. -/
theorem parseLines_of_parseHeader {lines : List Bytes} {h r : HdrRegs} (e : parseHeader p lines h = .ok (r, [])) :
    parseLines p lines h = .stepped false r := by
  induction lines generalizing h with
  | nil =>
    rw [parseHeader] at e
    split_ifs at e
    cases e
    rfl
  | cons l lines ih =>
    cases hstep : parseLine p l h with
    | raised c info =>
      rw [parseHeader_raised hstep] at e
      cases e
    | stepped hit h1 =>
      rw [parseHeader_stepped hstep] at e
      simp only [parseLines, hstep]
      split_ifs at e
      · cases e
        rfl
      · exact ih e

/-- After its version line a header's version string is never written again (R159, R160, R162). -/
theorem parseLine_formatVersion {line : Bytes} {h h' : HdrRegs} {hit : Bool} (hs : 3 ≤ h.hstate.code.toNat)
    (e : parseLine p line h = .stepped hit h') : h'.formatVersion = h.formatVersion := by
  cases hst : h.hstate with
  | scanDimensions | scanCommentOpen | scanVersion =>
    rw [hst] at hs
    exact absurd hs (by decide)
  | scanFields =>
    rw [parseLine_scanFields hst] at e
    rcases scanFields_cases p line h with ⟨f, v, stored, -, -, hstore, e'⟩ | ⟨f, v, -, -, -, e'⟩ | ⟨-, e'⟩ <;>
      rw [e'] at e
    · cases e
      obtain ⟨-, -, -, -, -, kfv⟩ := storeField_keeps hstore
      exact kfv
    · cases e
    · rcases scanClose_cases p line h with ⟨-, e'⟩ | ⟨-, -, e'⟩ | ⟨-, -, e'⟩ <;> rw [e'] at e <;> cases e <;> rfl
  | done =>
    rw [parseLine_done hst] at e
    cases e
    rfl

theorem parseHeader_formatVersion {lines rest : List Bytes} {h r : HdrRegs} (hs : 3 ≤ h.hstate.code.toNat)
    (e : parseHeader p lines h = .ok (r, rest)) : r.formatVersion = h.formatVersion := by
  induction lines generalizing h with
  | nil =>
    rw [parseHeader] at e
    split_ifs at e
    cases e
    rfl
  | cons l lines ih =>
    cases hstep : parseLine p l h with
    | raised c info =>
      rw [parseHeader_raised hstep] at e
      cases e
    | stepped hit h1 =>
      have hkept := parseLine_formatVersion hs hstep
      rw [parseHeader_stepped hstep] at e
      split_ifs at e
      · cases e
        exact hkept
      · have hs1 : 3 ≤ h1.hstate.code.toNat := by
          rcases parseLine_forward hstep with hsame | hnext
          · rwa [hsame]
          · omega
        exact (ih hs1 e).trans hkept

/-- In Done the version string tells the version, and with it `VERIDX` and all of `HVALID` (R34, R159, R166). -/
theorem HdrInv.of_done {h : HdrRegs} (hi : HdrInv p h) (hd : h.hstate = .done) {ver : Version}
    (hv : h.formatVersion = p.key ver) :
    h.veridx = versionIndex ver ∧ h.hvalid.toNat = 2 ^ (requiredFields ver).length - 1 := by
  obtain ⟨v, hidx, hcnt, hkey⟩ := hi.version_resolved (by rw [hd]; decide)
  cases p.key_injective (hkey.symm.trans hv)
  exact ⟨hidx, by rw [hi.hvalid_eq, hi.done_full hd, hcnt, requiredFields_length]⟩

theorem scale_required (ver : Version) : .scale ∈ requiredFields ver := by
  cases ver <;> decide

end Sys2Proof.Machine

open Sys2Proof Sys2Proof.Machine

/-- Settles O48: the lines bring the parser to Done with every field in its register, and the invariant there gives the
sequencing registers by the version. -/
theorem writtenHeaderParsesToDone : Obligations.WrittenHeaderParsesToDone := by
  intro p t vals hdim hopen hver hmatch htime hsource hfilter hgate hclose
  have ht : ReadsBack p t vals := ⟨hdim, hopen, hver, hmatch,
    fun f hf h => storeField_isSome h (fun e => htime (e ▸ hf)) (fun e => hsource (e ▸ hf)) (fun e => hfilter (e ▸ hf))
      (fun e => hgate (e ▸ hf)), hclose⟩
  obtain ⟨h, hread, hregs⟩ := parseHeader_headerText ht []
  rw [List.append_nil] at hread
  obtain ⟨hinv, hdone⟩ := parseHeader_hdrInv (hdrInv_armed p) hread
  have hversion : h.formatVersion = p.key t.version := by
    have hafter := hread
    simp only [HeaderText.lines, List.cons_append, List.nil_append] at hafter
    rw [parseHeader_upToVersion ht] at hafter
    exact parseHeader_formatVersion (h := HdrRegs.resolved p t.version) (Nat.le_refl 3) hafter
  obtain ⟨hidx, hvalid⟩ := hinv.of_done hdone hversion
  exact ⟨false, h, parseLines_of_parseHeader hread, hdone, hidx, hversion, hvalid, hregs .scale (scale_required _),
    hregs .bitsPerPixel (bitsPerPixel_required _), hregs .timestamp, hregs .source, hregs .filter,
    hregs .logicGateName, hregs .logicOperand⟩

end

section
/-! The buffer commands (R180 to R187) one by one, and the pushes of a pixel declaration: those that fit append, the
next one faults, and the rest are not executed (R183, R221, R261). -/

namespace Sys2Proof.Machine

section Commands

variable {s : State}

theorem exec_pbClr_of_healthy (hs : Healthy s) : exec .pbClr s = .next (clearPayload s) := by
  rw [exec_pbClr, whenHealthy_of_healthy hs]

/-- A push with room for its byte (R67). -/
theorem exec_push_of_room {sp : ByteSpace} {size : Nat} {b : Byte} {i : Instr}
    (he : exec i s = .next (pushByte sp size b s)) (hroom : (s.mem.bytes sp).length ≠ size) :
    exec i s = .next (respond .ok 0 { s with mem := s.mem.append sp b }) := by
  rw [he, pushByte, if_neg hroom]

/-- A push into a full space (R67). -/
theorem exec_push_of_full {sp : ByteSpace} {size : Nat} {b : Byte} {i : Instr}
    (he : exec i s = .next (pushByte sp size b s)) (hfull : (s.mem.bytes sp).length = size) :
    exec i s = .next (raise .capacityFault sp.bufferId s) := by
  rw [he, pushByte, if_pos hfull]

/-- Bits side by side, as a number. -/
theorem toNat_append_eq_add {m n : Nat} (x : BitVec m) (y : BitVec n) :
    (x ++ y).toNat = x.toNat * 2 ^ n + y.toNat := by
  rw [BitVec.toNat_append, ← Nat.shiftLeft_add_eq_or_of_lt y.isLt, Nat.shiftLeft_eq]

/-- A packed pixel, as a number (R111). -/
theorem Pixel.pack_toNat (px : Pixel) :
    px.pack.toNat = px.nv.toNat * 2 ^ 24 + px.r.toNat * 2 ^ 16 + px.g.toNat * 2 ^ 8 + px.b.toNat := by
  simp only [Pixel.pack, toNat_append_eq_add]
  omega

theorem exec_pqPop_of_nil (hq : s.mem.pixq = []) : exec .pqPop s = .next (respond .empty 0 s) := by
  rw [exec_pqPop, popPixel, hq]

theorem exec_pqPop_of_cons {px : Pixel} {left : List Pixel} (hq : s.mem.pixq = px :: left) :
    exec .pqPop s = .next (respond .ok (px.pack.setWidth 32) { s with mem.pixq := left }) := by
  rw [exec_pqPop, popPixel, hq]

theorem exec_obPop_of_nil (ho : s.mem.obuf = []) : exec .obPop s = .next (respond .empty 0 s) := by
  rw [exec_obPop, popOutput, ho]

theorem exec_abort_of_healthy (c : Cause) (hs : Healthy s) : exec (.abort c.code) s = .next (raise c 0 s) := by
  rw [exec_abort, whenHealthy_of_healthy hs, abortWith, if_neg c.code_ne_zero, raise]

end Commands

/-! ## Runs of pushes -/

section Pushes

variable {s : State} {rest : List PortEvent}

/-- A run goes on from where its first part ends. -/
theorem run_add {j k : Nat} {t : State} (h : Sys2Proof.core.run j s = .next t) :
    Sys2Proof.core.run (j + k) s = Sys2Proof.core.run k t := by
  induction j generalizing s with
  | zero =>
    cases h
    rw [Nat.zero_add]
  | succ j ih =>
    obtain ⟨s', hs'⟩ := step_next s
    rw [run_succ hs'] at h
    rw [Nat.succ_add, run_succ hs', ih h]

/-- A faulted block answers commands that do not survive, and does nothing else (R261). -/
theorem run_dead (is : List Instr) (hdead : ∀ i ∈ is, survivesFault i = false) (hf : s.fault = true)
    (hp : s.port = present is ++ rest) :
    ∃ resp, Sys2Proof.core.run is.length s = .next { s with port := rest, resp := resp } := by
  induction is generalizing s with
  | nil => exact ⟨s.resp, by rw [← show s.port = rest from hp]; rfl⟩
  | cons i is ih =>
    obtain ⟨hi, his⟩ := List.forall_mem_cons.1 hdead
    have hstep := (step_present (decode_encode i) hp).trans (exec_not_executed ((not_executes_iff i _).2 ⟨hf, hi⟩))
    obtain ⟨resp, hrun⟩ :=
      ih his (s := respond .dead (s.err.setWidth 32) { s with port := present is ++ rest }) hf rfl
    exact ⟨resp, (run_succ hstep).trans hrun⟩

/-- Pushes into a full byte space: the first one faults, and those after it are dead (R67, R261). -/
theorem run_pushes_of_full {sp : ByteSpace} {size : Nat} {push : Byte → Instr}
    (he : ∀ b s, Healthy s → exec (push b) s = .next (pushByte sp size b s))
    (hdead : ∀ b, survivesFault (push b) = false) (b : Byte) (more : List Byte) (hs : Healthy s)
    (hfull : (s.mem.bytes sp).length = size) (hp : s.port = present ((b :: more).map push) ++ rest) :
    ∃ resp, Sys2Proof.core.run (b :: more).length s = .next { s with
      port := rest, fault := true, err := 8, errInfo := sp.bufferId, resp := resp } := by
  have hraise : step s = .next (raise .capacityFault sp.bufferId { s with port := present (more.map push) ++ rest }) :=
    (step_present (decode_encode (push b)) hp).trans (exec_push_of_full (he b _ hs) hfull)
  obtain ⟨resp, hrest⟩ := run_dead (more.map push) (List.forall_mem_map.2 fun a _ => hdead a)
    (s := raise .capacityFault sp.bufferId { s with port := present (more.map push) ++ rest }) rfl rfl
  rw [List.length_map] at hrest
  exact ⟨resp, (run_succ hraise).trans hrest⟩

/-- All that pushes into a byte space can do: as many bytes as it has room for are appended, and the block is faulted
exactly where there are more (R67). -/
theorem run_pushes_upto_room {sp : ByteSpace} {size : Nat} {push : Byte → Instr}
    (he : ∀ b s, Healthy s → exec (push b) s = .next (pushByte sp size b s))
    (hdead : ∀ b, survivesFault (push b) = false) (q : List Byte) (hs : Healthy s)
    (hl : (s.mem.bytes sp).length ≤ size) (hp : s.port = present (q.map push) ++ rest) {room : Nat}
    (hroom : room = size - (s.mem.bytes sp).length) :
    ∃ resp, Sys2Proof.core.run q.length s = .next { s with
      mem := s.mem.setBytes (s.mem.bytes sp ++ q.take room) sp, port := rest, fault := decide (room < q.length),
      err := if room < q.length then 8 else s.err, errInfo := if room < q.length then sp.bufferId else s.errInfo,
      resp := resp } := by
  by_cases hover : room < q.length
  · have hsplit : q = q.take room ++ q[room] :: q.drop (room + 1) := by
      rw [← List.drop_eq_getElem_cons hover, List.take_append_drop]
    have hfull : (s.mem.bytes sp).length + (q.take room).length = size := by
      rw [List.length_take_of_le hover.le]
      omega
    rw [hsplit, List.map_append, present_append, List.append_assoc] at hp
    obtain ⟨resp₁, hfits, hhealthy⟩ := healthyRun_pushes he (q.take room) hs hfull.le hp
    obtain ⟨resp, hrest⟩ := run_pushes_of_full he hdead q[room] (q.drop (room + 1)) hhealthy
      (by simpa using hfull) rfl
    have hrun := (run_add hfits).trans hrest
    rw [← List.length_append, ← hsplit] at hrun
    exact ⟨resp, by simpa [hover] using hrun⟩
  · obtain ⟨resp, hrun, -⟩ := healthyRun_pushes he q hs (by omega) hp
    have hf : s.fault = false := hs
    exact ⟨resp, by simpa [hover, hf, List.take_of_length_le (Nat.le_of_not_lt hover)] using hrun⟩

end Pushes

/-! ## A pixel declaration -/

theorem pixelRecipe_of_lt {limit : Nat} {d : PixelDecl} (hx : d.x < limit) :
    pixelRecipe limit d = d.ints.map .cbPush :=
  if_neg (Nat.not_le.2 hx)

theorem pixelRecipe_of_ge {limit : Nat} {d : PixelDecl} (hx : limit ≤ d.x) :
    pixelRecipe limit d = [.abort Cause.boundsError.code] :=
  if_pos hx

end Sys2Proof.Machine

open Sys2Proof Sys2Proof.Machine

/-- Settles O54: below the limit the three pushes by the room that CBUF has, else the one `ABORT 5`. -/
theorem pixelRecipePushesOrAborts : Obligations.PixelRecipePushesOrAborts := by
  intro s limit d rest hs hl hp
  refine ⟨fun hx => ?_, fun hx => ?_⟩
  · rw [pixelRecipe_of_lt hx] at hp
    obtain ⟨resp, hrun⟩ := run_pushes_upto_room exec_cbPush_of_healthy (fun _ => rfl) d.ints hs hl hp rfl
    exact ⟨_, hrun, rfl⟩
  · rw [pixelRecipe_of_ge hx] at hp
    exact run_succ ((step_present (decode_encode _) hp).trans (exec_abort_of_healthy .boundsError (by exact hs)))

/-- Settles O20. -/
theorem clearCommandsEmptyTheirBuffer : Obligations.ClearCommandsEmptyTheirBuffer :=
  fun _ hs => ⟨exec_pbClr_of_healthy hs, exec_cbClr_of_healthy hs, exec_lbClr_of_healthy hs⟩

/-- Settles O21: one push into a byte space, with room and without, for each of the three buffers. -/
theorem pushCommandsAppendOrOverflow : Obligations.PushCommandsAppendOrOverflow := by
  intro s b hs
  have hpb := exec_pbPush_of_healthy b s hs
  have hcb := exec_cbPush_of_healthy b s hs
  have hlb := exec_lbPush_of_healthy b s hs
  exact ⟨exec_push_of_room hpb, exec_push_of_full hpb, exec_push_of_room hcb, exec_push_of_full hcb,
    exec_push_of_room hlb, exec_push_of_full hlb⟩

/-- Settles O23: the numbers written out in the statement are those of the packed pixel and of the byte. -/
theorem popCommandsTakeTheOldest : Obligations.PopCommandsTakeTheOldest := by
  refine fun s => ⟨exec_pqPop_of_nil, fun px rest hq => ?_, exec_obPop_of_nil, fun v rest ho => ?_⟩
  · rw [← px.pack_toNat, BitVec.ofNat_toNat]
    exact exec_pqPop_of_cons hq
  · rw [BitVec.ofNat_toNat]
    exact exec_obPop_of_cons ho

end

section
/-! The system commands (R200 to R203): how an `ABORT` ends, the register map and the string registers as tables, and
what a read of each answers. -/

namespace Sys2Proof.Machine

variable {s : State}

/-! ## ABORT -/

theorem abortWith_zero (s : State) : abortWith 0 s = raise .illegalCommand 0x02000000 s := rfl

theorem abortWith_of_ne_zero {c : BitVec 4} (hc : c ≠ 0) (s : State) : abortWith c s = latch c 0 s := if_neg hc

/-! ## Reads -/

@[simp] theorem respondWith_some (data : Word) (s : State) : respondWith (some data) s = respond .ok data s := rfl

@[simp] theorem respondWith_none (s : State) : respondWith none s = respond .empty 0 s := rfl

theorem exec_rd_of_some {a : BitVec 8} {data : Word} (h : readReg s a = some data) :
    exec (.rd a) s = .next (respond .ok data s) := by
  rw [exec_rd, h, respondWith_some]

theorem exec_rd_of_none {a : BitVec 8} (h : readReg s a = none) : exec (.rd a) s = .next (respond .empty 0 s) := by
  rw [exec_rd, h, respondWith_none]

theorem exec_rdStr_of_some {sel : BitVec 4} {idx : BitVec 16} {b : Byte} (h : readString s.hdr sel idx = some b) :
    exec (.rdStr sel idx) s = .next (respond .ok (b.setWidth 32) s) := by
  rw [exec_rdStr, h, Option.map_some, respondWith_some]

theorem exec_rdStr_of_none {sel : BitVec 4} {idx : BitVec 16} (h : readString s.hdr sel idx = none) :
    exec (.rdStr sel idx) s = .next (respond .empty 0 s) := by
  rw [exec_rdStr, h, Option.map_none, respondWith_none]

/-! ## The register map -/

/-- `STATUS` as a number: each flag has the weight of its bit (R25). -/
def statusNat (s : State) : Nat :=
  (if s.fault then 1 else 0) + (if s.mem.pbuf.length ≤ s.cursor.byteIdx.toNat then 2 else 0) +
    (if s.hdr.hstate = .done then 4 else 0) + (if s.mem.pixq = [] then 0 else 8) + (if s.mem.obuf = [] then 0 else 16)

theorem statusWord_toNat (s : State) : (statusWord s).toNat =
    s.fault.toNat + 2 * (flagEAtEnd s).toNat + 4 * (flagHDone s).toNat + 8 * (flagPqNe s).toNat +
      16 * (flagObNe s).toNat := by
  simp only [statusWord, toNat_append_eq_add, BitVec.toNat_ofBool, BitVec.ofNat_eq_ofNat, BitVec.toNat_zero]
  omega

theorem statusWord_toNat_eq_statusNat (s : State) : (statusWord s).toNat = statusNat s := by
  simp only [statusWord_toNat, statusNat, flagEAtEnd, flagHDone, flagPqNe, flagObNe, Cursor.atEnd, Bool.toNat,
    Bool.cond_eq_ite, decide_eq_true_eq, List.length_pos_iff, ne_eq, ite_not, mul_ite, mul_one, mul_zero]

theorem slen_eq_ofNat (str : Bytes) : slen str = BitVec.ofNat 32 (str.length % 65536) := by
  rw [slen, ← BitVec.ofNat_toNat, BitVec.toNat_ofNat]

/-- The map of R30: each assigned address with the number its register holds. -/
def registerMap (s : State) : List (Byte × Nat) := [
  (0x00, 0x474E5601), (0x01, statusNat s), (0x02, s.err.toNat), (0x03, s.errInfo.toNat), (0x04, s.emode.toNat),
  (0x05, s.cursor.byteIdx.toNat), (0x06, s.cursor.bitIdx.toNat), (0x07, s.mem.pbuf.length),
  (0x08, s.mem.pixq.length), (0x09, s.mem.cbuf.length), (0x0A, s.mem.obuf.length), (0x0B, s.mem.lbuf.length),
  (0x10, s.hdr.hstate.code.toNat), (0x11, s.hdr.fidx.toNat), (0x12, s.hdr.fcnt.toNat), (0x13, s.hdr.veridx.toNat),
  (0x14, s.hdr.hvalid.toNat), (0x15, s.hdr.scale.toNat), (0x16, s.hdr.bpp.toNat), (0x17, s.hdr.operand.toNat),
  (0x22, s.hdr.timestamp.length % 65536), (0x23, s.hdr.source.length % 65536),
  (0x24, s.hdr.filter.length % 65536), (0x25, s.hdr.gateName.length % 65536),
  (0x28, s.hdr.formatVersion.length % 65536)]

/-- The assigned addresses of R30. -/
def mappedAddresses : List Byte := [
  0x00, 0x01, 0x02, 0x03, 0x04, 0x05, 0x06, 0x07, 0x08, 0x09, 0x0A, 0x0B, 0x10, 0x11, 0x12, 0x13, 0x14, 0x15, 0x16,
  0x17, 0x22, 0x23, 0x24, 0x25, 0x28]

theorem registerMap_addresses (s : State) : (registerMap s).map Prod.fst = mappedAddresses := rfl

/-- A mapped address reads as its register, one goal per register: a register of 32 bits as it is, a narrower one
widened, a length cut to its register's width. -/
theorem readReg_of_mem_registerMap : ∀ av ∈ registerMap s, readReg s av.1 = some (BitVec.ofNat 32 av.2) := by
  simp only [registerMap, List.forall_mem_cons, List.not_mem_nil, false_imp_iff, implies_true, and_true,
    BitVec.ofNat_toNat, BitVec.setWidth_eq, ← slen_eq_ofNat, ← statusWord_toNat_eq_statusNat]
  and_intros <;> rfl

/-- An address that `readReg` matches is assigned, so at any other it finds no register. -/
theorem readReg_of_not_mem_mappedAddresses {a : BitVec 8} (ha : a ∉ mappedAddresses) : readReg s a = none := by
  have hnat : a.toNat ∉ mappedAddresses.map BitVec.toNat := fun h =>
    ha ((List.mem_map_of_injective BitVec.toNat_injective).1 h)
  unfold readReg
  split
  case h_26 => rfl
  all_goals
    rename_i haddr
    rw [haddr] at hnat
    exact absurd (by decide) hnat

/-! ## The string registers -/

/-- The string registers with their selectors (R31). -/
def selectedStrings (h : HdrRegs) : List (BitVec 4 × Bytes) :=
  [(2, h.timestamp), (3, h.source), (4, h.filter), (5, h.gateName), (8, h.formatVersion)]

theorem stringReg_of_mem_selectedStrings {h : HdrRegs} : ∀ e ∈ selectedStrings h, stringReg h e.1 = some e.2 := by
  simp only [selectedStrings, List.forall_mem_cons, List.not_mem_nil, false_imp_iff, implies_true, and_true]
  and_intros <;> rfl

theorem mem_selectedStrings_of_stringReg {h : HdrRegs} {sel : BitVec 4} {str : Bytes}
    (hstr : stringReg h sel = some str) : (sel, str) ∈ selectedStrings h := by
  unfold stringReg at hstr
  split at hstr
  case h_6 => cases hstr
  all_goals
    rename_i hsel
    cases hstr
    simp [selectedStrings, ← BitVec.toNat_inj, hsel]

theorem readString_of_stringReg {h : HdrRegs} {sel : BitVec 4} {str : Bytes} (hstr : stringReg h sel = some str)
    (idx : BitVec 16) : readString h sel idx = str[idx.toNat]? := by
  rw [readString, hstr]

theorem readString_of_no_stringReg {h : HdrRegs} {sel : BitVec 4} (hstr : stringReg h sel = none) (idx : BitVec 16) :
    readString h sel idx = none := by
  rw [readString, hstr]

/-- A selector names one string or none, so an index past the strings it names reads nothing (R203). -/
theorem readString_eq_none {h : HdrRegs} {sel : BitVec 4} {idx : BitVec 16}
    (hpast : ∀ str, (sel, str) ∈ selectedStrings h → str.length ≤ idx.toNat) : readString h sel idx = none := by
  cases hstr : stringReg h sel with
  | none => exact readString_of_no_stringReg hstr idx
  | some str =>
    rw [readString_of_stringReg hstr]
    exact List.getElem?_eq_none (hpast str (mem_selectedStrings_of_stringReg hstr))

end Sys2Proof.Machine

open Sys2Proof Sys2Proof.Machine

/-- Settles O12. -/
theorem softResetClearsEverything : Obligations.SoftResetClearsEverything := by
  refine fun s => ⟨_, exec_srst s, respond_resp .ok 0 _, respond_port .ok 0 _, ?_⟩
  simp [Cursor.zero, Memory.empty, HdrRegs.armed]

/-- Settles O17: the two ways of an `ABORT` on a healthy block, and the dead-state test on a faulted one. -/
theorem abortLatchesItsCode : Obligations.AbortLatchesItsCode := by
  refine fun s c => ⟨fun hs hc => ?_, fun hs hc => ?_, fun hf => ?_⟩
  · rw [exec_abort, whenHealthy_of_healthy hs, abortWith_of_ne_zero hc, latch]
  · rw [exec_abort, whenHealthy_of_healthy hs, hc, abortWith_zero]
    rfl
  · rw [exec_abort, whenHealthy_of_faulted hf, respond]

/-- Settles O18: the statement's map is `registerMap`, and its addresses are all that `readReg` knows. -/
theorem readRegisterAnswersTheMap : Obligations.ReadRegisterAnswersTheMap :=
  fun s => ⟨fun av hav => exec_rd_of_some (readReg_of_mem_registerMap (s := s) av hav),
    fun _ ha => exec_rd_of_none (readReg_of_not_mem_mappedAddresses ha)⟩

/-- Settles O19: the selector names at most one string, which has a byte exactly below its length. -/
theorem readStringAnswersItsByte : Obligations.ReadStringAnswersItsByte := by
  refine fun s sel idx => ⟨fun str hmem hidx => ?_, fun hpast => exec_rdStr_of_none (readString_eq_none hpast)⟩
  have hstr : stringReg s.hdr sel = some str := stringReg_of_mem_selectedStrings _ hmem
  rw [BitVec.ofNat_toNat, List.getD_eq_getElem _ _ hidx]
  refine exec_rdStr_of_some ?_
  rw [readString_of_stringReg hstr, List.getElem?_eq_getElem hidx]

end

section
/-! The boundary contract: which transforms undo themselves (R210 to R218), the rows of the read path (R222 to R225),
and the forward recipe run on the block: the payload is loaded, then one `ENC.RUN` queues its whole encode (R236). -/

namespace Sys2Proof.Machine

/-! ## Transforms -/

/-- Each bit is flipped twice by the operand's bits or by `not`, and not at all by `none` (R211, R214, R216). -/
theorem Gate.apply_apply_cancel {g : Gate} (hg : g ∈ [Gate.xor, Gate.not, Gate.none]) (b op : Byte) :
    g.apply (g.apply b op) op = b := by
  simp only [List.mem_cons, List.not_mem_nil, or_false] at hg
  rcases hg with rfl | rfl | rfl
  · simp only [Gate.apply]
    rw [BitVec.xor_assoc, BitVec.xor_self, BitVec.xor_zero]
  · exact BitVec.not_not
  · rfl

theorem transformPayload_transformPayload (g : Gate) (op : Byte) (p : List Byte) :
    transformPayload g op (transformPayload g op p) = p.map fun b => g.apply (g.apply b op) op :=
  List.map_map

/-! ## The forward recipe on the block -/

section Forward

variable {s : State} {q : List Byte} {m : BitVec 24} {rest : List PortEvent}

/-- With room for all the pixels left, `ENC.RUN` queues them all and ends behind the last byte of the payload (R119). -/
theorem runEncode_of_room (h : Encoding s) {size : Nat}
    (hroom : s.mem.pixq.length + (leftToEncode s).length ≤ size) :
    runEncode size s.emode.toNat s = { s with
      cursor := ⟨BitVec.ofNat 32 s.mem.pbuf.length, 0⟩, mem.pixq := s.mem.pixq ++ leftToEncode s,
      resp := some ⟨.ok, BitVec.ofNat 32 (leftToEncode s).length⟩ } := by
  have hrun := runEncode_eq_of_count (s := s) (size := size) (n := (leftToEncode s).length) (by omega)
  rw [List.take_length] at hrun
  have hqueued : (runEncode size s.emode.toNat s).mem.pixq = pendingPixels s := by rw [hrun, pendingPixels]
  have hpending := runEncode_pending h size
  have hleft : leftToEncode (runEncode size s.emode.toNat s) = [] := by
    rwa [pendingPixels, hqueued, List.append_right_eq_self] at hpending
  have hcursor := (runEncode_encoding h size).cursor_at_end (leftToEncode_eq_nil_iff.1 hleft)
  rw [hrun] at hcursor ⊢
  simpa using hcursor

/-- An encode just begun has the pixels of the whole payload left (R112, R120). -/
theorem startEncode_leftToEncode (hm : validMode m.toNat = true) :
    leftToEncode (startEncode m s) = codecEncode s.mem.pbuf m.toNat := by
  rw [startEncode_of_valid hm, codecEncode, ← toNat_setWidth_of_validMode hm]
  rfl

/-- `PB.LOAD q` on the block: the payload is `q` and the cursor is rewound (R88, R180, R181). -/
theorem healthyRun_loadPayload (hs : Healthy s) (hq : q.length ≤ Config.params.pbufSize)
    (hp : s.port = present (.pbClr :: q.map .pbPush) ++ rest) :
    ∃ resp, HealthyRun (q.length + 1) s
      { s with cursor := Cursor.zero, mem.pbuf := q, port := rest, resp := resp } := by
  obtain ⟨resp, hpushes⟩ := healthyRun_pushes exec_pbPush_of_healthy q (rest := rest)
    (s := clearPayload { s with port := present (q.map .pbPush) ++ rest }) hs (by simpa using hq) rfl
  exact ⟨resp, .command hp (exec_pbClr_of_healthy (by exact hs)) hpushes⟩

/-- `ENC.START` and one `ENC.RUN` queue the encode of the payload, where the queue has room for it (R112, R119). -/
theorem healthyRun_encode (hs : Healthy s) (hm : validMode m.toNat = true) (hlen : s.mem.pbuf.length < 2 ^ 32)
    (hroom : s.mem.pixq.length + (codecEncode s.mem.pbuf m.toNat).length ≤ Config.params.pixqSize)
    (hp : s.port = present [.encStart m, .encRun] ++ rest) :
    HealthyRun 2 s { s with
      cursor := ⟨BitVec.ofNat 32 s.mem.pbuf.length, 0⟩, emode := m.setWidth 8,
      mem.pixq := s.mem.pixq ++ codecEncode s.mem.pbuf m.toNat, port := rest,
      resp := some ⟨.ok, BitVec.ofNat 32 (codecEncode s.mem.pbuf m.toNat).length⟩ } := by
  have hstarted : Encoding (startEncode m { s with port := rest }) := startEncode_encoding hs hm hlen
  have hleft : leftToEncode (startEncode m { s with port := rest }) = codecEncode s.mem.pbuf m.toNat :=
    startEncode_leftToEncode hm
  have hqueue : (startEncode m { s with port := rest }).mem.pixq = s.mem.pixq := by rw [startEncode_of_valid hm]; rfl
  have hrun := runEncode_of_room hstarted (size := Config.params.pixqSize) (by rwa [hqueue, hleft])
  rw [hleft] at hrun
  have hexec := (exec_encRun_of_valid hstarted.healthy hstarted.valid).trans (congrArg _ hrun)
  rw [startEncode_of_valid hm] at hexec
  exact .command hp (exec_encStart_of_valid (by exact hs) hm)
    (.command (is := []) (rest := rest) rfl hexec (.refl hs))

end Forward

end Sys2Proof.Machine

open Sys2Proof Sys2Proof.Machine

/-- Settles O53: the payload is loaded, and the two commands after it encode all of it. -/
theorem forwardRecipeQueuesTheEncode : Obligations.ForwardRecipeQueuesTheEncode := by
  intro s q m rest hs hm hq hroom hp
  rw [forwardRecipe, present_append, List.append_assoc] at hp
  obtain ⟨resp, hload⟩ := healthyRun_loadPayload hs hq hp
  have hencode := healthyRun_encode (rest := rest)
    (s := { s with cursor := Cursor.zero, mem.pbuf := q, port := present [.encStart m, .encRun] ++ rest, resp := resp })
    hs hm (Config.params.lt_of_le_pbufSize hq) hroom rfl
  rw [BitVec.ofNat_toNat]
  exact hload.trans hencode

/-- Settles O51: rows numbered from 0 are flushed one by one, and a declaration past the limit flushes none. -/
theorem reassemblerRegainsTheRows : Obligations.ReassemblerRegainsTheRows :=
  ⟨fun _ rows hrows => reassemble_rows rows hrows, fun _ _ rest a hx => reassemble_cons_of_ge hx rest a⟩

/-- Settles O50: the three cancel byte by byte; the other gates, and the table of values, on the spec's own bytes. -/
theorem threeGatesAreInvolutions : Obligations.ThreeGatesAreInvolutions := by
  refine ⟨fun g op p hg => ?_, by decide, by decide⟩
  rw [transformPayload_transformPayload]
  simp only [Gate.apply_apply_cancel hg, List.map_id']

end

section
/-! How faults are raised and left (R250 to R263): the table of causes as a relation, each command against its rows,
what a step that raises leaves unchanged, and what a faulted block keeps. -/

namespace Sys2Proof.Machine

/-- The rows of the table of R250 that the block raises, and the codes that `ABORT` latches (R201, R266): the command,
the state it meets, the code for `ERR` and the word for `ERRINFO`. -/
inductive Raises : Instr → State → BitVec 4 → Word → Prop
  | startMode (m : BitVec 24) (s : State) : Raises (.encStart m) s Cause.formatError.code (m.setWidth 32)
  | pixelMode (s : State) : Raises .encPix s Cause.formatError.code (s.emode.setWidth 32)
  | runMode (s : State) : Raises .encRun s Cause.formatError.code (s.emode.setWidth 32)
  | decodeMode (m : BitVec 24) (s : State) : Raises (.decRun m) s Cause.formatError.code (m.setWidth 32)
  | headerMode (s : State) : Raises .decRunh s Cause.formatError.code (if bppKnown s then s.hdr.bpp else 0)
  | version {s : State} (hs : s.hdr.hstate = .scanVersion) : Raises .hdrLine s Cause.unknownVersionError.code 0
  | closeEarly {s : State} (hs : s.hdr.hstate = .scanFields) :
      Raises .hdrLine s Cause.headerIncompleteError.code (s.hdr.fidx.setWidth 32)
  | endEarly {s : State} (hs : s.hdr.hstate ≠ .done) :
      Raises .hdrEos s Cause.noTerminatorError.code (s.hdr.hstate.code.setWidth 32)
  | pbufFull (b : Byte) (s : State) : Raises (.pbPush b) s Cause.capacityFault.code ByteSpace.pbuf.bufferId
  | cbufFull (v : Byte) (s : State) : Raises (.cbPush v) s Cause.capacityFault.code ByteSpace.cbuf.bufferId
  | lbufFull (b : Byte) (s : State) : Raises (.lbPush b) s Cause.capacityFault.code ByteSpace.lbuf.bufferId
  | obufFull (m : BitVec 24) (s : State) : Raises (.decRun m) s Cause.capacityFault.code ByteSpace.obuf.bufferId
  | obufFullAtHeader (s : State) : Raises .decRunh s Cause.capacityFault.code ByteSpace.obuf.bufferId
  | stringTooLong {s : State} (hs : s.hdr.hstate = .scanFields) : Raises .hdrLine s Cause.capacityFault.code 5
  | abortZero (s : State) : Raises (.abort 0) s Cause.illegalCommand.code 0x02000000
  | abort {c : BitVec 4} (hc : c ≠ 0) (s : State) : Raises (.abort c) s c 0

theorem Raises.code_ne_zero {i : Instr} {s : State} {code : BitVec 4} {info : Word} (h : Raises i s code info) :
    code ≠ 0 := by
  cases h
  case abort hc => exact hc
  all_goals exact Cause.code_ne_zero _

/-- If the command leaves the state faulted, then it latched a row of the table and changed nothing else (R260). -/
def RaisesOnly (i : Instr) (s u : State) : Prop :=
  u.fault = true → ∃ code info, Raises i s code info ∧ u = latch code info s

/-! ## The causes of each operation -/

section Operations

variable {i : Instr} {s : State}

theorem RaisesOnly.of_latch {code : BitVec 4} {info : Word} (h : Raises i s code info) :
    RaisesOnly i s (latch code info s) :=
  fun _ => ⟨code, info, h, rfl⟩

theorem RaisesOnly.of_raise {c : Cause} {info : Word} (h : Raises i s c.code info) :
    RaisesOnly i s (raise c info s) :=
  .of_latch h

theorem RaisesOnly.of_healthy {u : State} (h : Healthy u) : RaisesOnly i s u :=
  fun hf => absurd (h.symm.trans hf) Bool.false_ne_true

theorem raisesOnly_abortWith (s : State) (c : BitVec 4) : RaisesOnly (.abort c) s (abortWith c s) := by
  by_cases hc : c = 0
  · rw [hc, abortWith_zero]
    exact .of_raise (.abortZero s)
  · rw [abortWith_of_ne_zero hc]
    exact .of_latch (.abort hc s)

theorem raisesOnly_respondWith (hs : Healthy s) (found : Option Word) : RaisesOnly i s (respondWith found s) := by
  cases found <;> exact .of_healthy hs

theorem raisesOnly_pushByte (hs : Healthy s) {sp : ByteSpace} (size : Nat) (b : Byte)
    (hfull : Raises i s Cause.capacityFault.code sp.bufferId) : RaisesOnly i s (pushByte sp size b s) := by
  rcases pushByte_cases sp size b s with ⟨-, e⟩ | ⟨-, e⟩ <;> rw [e]
  · exact .of_raise hfull
  · exact .of_healthy hs

theorem raisesOnly_popPixel (hs : Healthy s) : RaisesOnly i s (popPixel s) := by
  rcases popPixel_cases s with ⟨-, e⟩ | ⟨px, rest, -, e⟩ <;> rw [e] <;> exact .of_healthy hs

theorem raisesOnly_popOutput (hs : Healthy s) : RaisesOnly i s (popOutput s) := by
  rcases popOutput_cases s with ⟨-, e⟩ | ⟨v, rest, -, e⟩ <;> rw [e] <;> exact .of_healthy hs

theorem raisesOnly_startEncode (hs : Healthy s) (m : BitVec 24) : RaisesOnly (.encStart m) s (startEncode m s) := by
  rcases startEncode_cases m s with ⟨-, e⟩ | ⟨-, e⟩ <;> rw [e]
  · exact .of_healthy hs
  · exact .of_raise (.startMode m s)

theorem raisesOnly_withMode {f : Nat → State → State} (hf : ∀ m, Healthy (f m s))
    (hmode : Raises i s Cause.formatError.code (s.emode.setWidth 32)) : RaisesOnly i s (withMode f s) := by
  rcases withMode_cases f s with ⟨-, e⟩ | ⟨-, e⟩ <;> rw [e]
  · exact .of_healthy (hf _)
  · exact .of_raise hmode

theorem onePixel_healthy (hs : Healthy s) (m : Nat) : Healthy (onePixel m s) := by
  rcases onePixel_cases m s with ⟨-, e⟩ | ⟨-, e⟩ <;> rw [e] <;> exact hs

theorem raisesOnly_decodeAt {n : Nat} {m : BitVec n} (hs : Healthy s) (size : Nat)
    (hmode : Raises i s Cause.formatError.code (m.setWidth 32))
    (hfull : Raises i s Cause.capacityFault.code ByteSpace.obuf.bufferId) :
    RaisesOnly i s (decodeAt size m.toNat s) := by
  rcases decodeAt_cases size m.toNat s with ⟨-, e⟩ | ⟨-, -, e⟩ | ⟨-, -, e⟩ <;> rw [e]
  · rw [BitVec.ofNat_toNat]
    exact .of_raise hmode
  · exact .of_raise hfull
  · exact .of_healthy hs

/-- `DEC.RUNH` carries the header's mode where the header has one, and 0 where it has none (R132, R251). -/
theorem raisesOnly_decodeAtHeader (hs : Healthy s) (size : Nat) : RaisesOnly .decRunh s (decodeAtHeader size s) := by
  have hmode := Raises.headerMode s
  rcases decodeAtHeader_cases size s with ⟨hb, e⟩ | ⟨hb, e⟩ <;> rw [e] <;> rw [hb] at hmode
  · refine raisesOnly_decodeAt hs size ?_ (.obufFullAtHeader s)
    rwa [BitVec.setWidth_eq]
  · exact .of_raise hmode

/-- A line raises in ScanVersion and in ScanFields alone, there the comment-close test or a string that is too long. -/
theorem raises_of_parseLine {p : Params} {c : Cause} {info : Word}
    (e : parseLine p s.mem.lbuf s.hdr = .raised c info) : Raises .hdrLine s c.code info := by
  cases hs : s.hdr.hstate with
  | scanDimensions => rw [parseLine_scanDimensions hs] at e; split_ifs at e
  | scanCommentOpen => rw [parseLine_scanCommentOpen hs] at e; split_ifs at e
  | scanVersion =>
    rw [parseLine_scanVersion hs] at e
    rcases scanVersion_cases p s.mem.lbuf s.hdr with ⟨-, e'⟩ | ⟨v, -, -, e'⟩ | ⟨ver, -, e'⟩ <;> rw [e'] at e <;> cases e
    exact .version hs
  | scanFields =>
    rw [parseLine_scanFields hs] at e
    rcases scanFields_cases p s.mem.lbuf s.hdr with ⟨f, v, stored, -, -, -, e'⟩ | ⟨f, v, -, -, -, e'⟩ | ⟨-, e'⟩ <;>
      rw [e'] at e
    · cases e
    · cases e
      exact .stringTooLong hs
    · rcases scanClose_cases p s.mem.lbuf s.hdr with ⟨-, e'⟩ | ⟨-, -, e'⟩ | ⟨-, -, e'⟩ <;> rw [e'] at e <;> cases e
      exact .closeEarly hs
  | done => rw [parseLine_done hs] at e; cases e

theorem raisesOnly_presentLine (hs : Healthy s) (p : Params) : RaisesOnly .hdrLine s (presentLine p s) := by
  rcases presentLine_cases p s with ⟨c, info, hline, e⟩ | ⟨hit, h, -, e⟩ <;> rw [e]
  · exact .of_raise (raises_of_parseLine hline)
  · exact .of_healthy hs

theorem raisesOnly_endOfStream (hs : Healthy s) : RaisesOnly .hdrEos s (endOfStream s) := by
  rcases endOfStream_cases s with ⟨-, e⟩ | ⟨hd, e⟩ <;> rw [e]
  · exact .of_healthy hs
  · exact .of_raise (.endEarly hd)

theorem raisesOnly_whenHealthy {f : State → State} (hs : Healthy s) (h : RaisesOnly i s (f s)) :
    RaisesOnly i s (whenHealthy f s) := by
  rwa [whenHealthy_of_healthy hs]

end Operations

/-! ## Every command and every step on a healthy block -/

theorem exec_raisesOnly {s t : State} (hs : Healthy s) (i : Instr) (e : exec i s = .next t) : RaisesOnly i s t := by
  cases i <;> cases e
  case srst => exact .of_healthy rfl
  case abort c => exact raisesOnly_whenHealthy hs (raisesOnly_abortWith s c)
  case rd => exact raisesOnly_respondWith hs _
  case rdStr => exact raisesOnly_respondWith hs _
  case pbClr => exact raisesOnly_whenHealthy hs (.of_healthy hs)
  case pbPush b => exact raisesOnly_whenHealthy hs (raisesOnly_pushByte hs _ b (.pbufFull b s))
  case cbClr => exact raisesOnly_whenHealthy hs (.of_healthy hs)
  case cbPush v => exact raisesOnly_whenHealthy hs (raisesOnly_pushByte hs _ v (.cbufFull v s))
  case lbClr => exact raisesOnly_whenHealthy hs (.of_healthy hs)
  case lbPush b => exact raisesOnly_whenHealthy hs (raisesOnly_pushByte hs _ b (.lbufFull b s))
  case pqPop => exact raisesOnly_popPixel hs
  case obPop => exact raisesOnly_popOutput hs
  case encStart m => exact raisesOnly_whenHealthy hs (raisesOnly_startEncode hs m)
  case encPix => exact raisesOnly_whenHealthy hs (raisesOnly_withMode (onePixel_healthy hs) (.pixelMode s))
  case encRun => exact raisesOnly_whenHealthy hs (raisesOnly_withMode (fun _ => hs) (.runMode s))
  case decRun m => exact raisesOnly_whenHealthy hs (raisesOnly_decodeAt hs _ (.decodeMode m s) (.obufFull m s))
  case decRunh => exact raisesOnly_whenHealthy hs (raisesOnly_decodeAtHeader hs _)
  case hdrStart => exact raisesOnly_whenHealthy hs (.of_healthy hs)
  case hdrLine => exact raisesOnly_whenHealthy hs (raisesOnly_presentLine hs _)
  case hdrEos => exact raisesOnly_whenHealthy hs (raisesOnly_endOfStream hs)

/-- A step that faults a healthy block latches a nonzero code on the state without the event, and nothing else (R260). -/
theorem step_eq_latch_of_fault {s t : State} (hs : Healthy s) (e : step s = .next t) (hf : t.fault = true) :
    ∃ code info, code ≠ 0 ∧ t = latch code info { s with port := s.port.tail } := by
  rcases step_cases s with ⟨-, e'⟩ | ⟨rest, -, e'⟩ | ⟨w, rest, i, hp, -, e'⟩ | ⟨w, rest, why, hp, -, e'⟩ <;>
    rw [e'] at e
  · cases e
    exact absurd (hs.symm.trans hf) Bool.false_ne_true
  · cases e
    cases hf
  · obtain ⟨code, info, hraises, ht⟩ := exec_raisesOnly (s := { s with port := rest }) hs i e hf
    exact ⟨code, info, hraises.code_ne_zero, by rw [hp]; exact ht⟩
  · cases e
    refine ⟨Cause.illegalCommand.code, w, Cause.code_ne_zero _, ?_⟩
    rw [hp]
    exact whenHealthy_of_healthy (s := { s with port := rest }) hs

/-! ## The faulted state -/

section Faulted

variable {s t : State}

theorem AgreeOnFault.refl (s : State) : AgreeOnFault s s := ⟨rfl, rfl, rfl⟩

theorem respondWith_agreeOnFault (s : State) (found : Option Word) : AgreeOnFault s (respondWith found s) := by
  cases found <;> exact .refl s

theorem popPixel_agreeOnFault (s : State) : AgreeOnFault s (popPixel s) := by
  rcases popPixel_cases s with ⟨-, e⟩ | ⟨px, rest, -, e⟩ <;> rw [e] <;> exact .refl s

theorem popOutput_agreeOnFault (s : State) : AgreeOnFault s (popOutput s) := by
  rcases popOutput_cases s with ⟨-, e⟩ | ⟨v, rest, -, e⟩ <;> rw [e] <;> exact .refl s

/-- Of the commands that survive a fault, the two reads and the two pops do not write the fault registers (R262). -/
theorem exec_agreeOnFault_of_survives {i : Instr} (hsurvives : survivesFault i = true) (hi : i ≠ .srst)
    (e : exec i s = .next t) : AgreeOnFault s t := by
  cases i <;> cases hsurvives <;> cases e
  case srst => exact absurd rfl hi
  case rd => exact respondWith_agreeOnFault s _
  case rdStr => exact respondWith_agreeOnFault s _
  case pqPop => exact popPixel_agreeOnFault s
  case obPop => exact popOutput_agreeOnFault s

/-- On a faulted block every command but `SRST` keeps the first fault: it survives, or it is not executed (R261). -/
theorem exec_keeps_first_fault {i : Instr} (hf : s.fault = true) (hi : i ≠ .srst) (e : exec i s = .next t) :
    AgreeOnFault s t := by
  by_cases hsurvives : survivesFault i = true
  · exact exec_agreeOnFault_of_survives hsurvives hi e
  · rw [exec_not_executed ((not_executes_iff i s).2 ⟨hf, Bool.eq_false_iff.2 hsurvives⟩)] at e
    cases e
    exact .refl s

theorem illegalCommand_keeps_first_fault (hf : s.fault = true) (w : Word) : AgreeOnFault s (illegalCommand w s) := by
  rw [illegalCommand, whenHealthy_of_faulted hf]
  exact .refl s

theorem AgreeOnFault.first_fault_kept (h : AgreeOnFault s t) (hf : s.fault = true) :
    t.fault = true ∧ t.err = s.err ∧ t.errInfo = s.errInfo := by
  obtain ⟨hfault, herr, hinfo⟩ := h
  exact ⟨hfault.symm.trans hf, herr.symm, hinfo.symm⟩

end Faulted

end Sys2Proof.Machine

open Sys2Proof Sys2Proof.Machine

/-- Settles O6: step 3 of R86 for the word, and for `ABORT 0` the clause of `abortLatchesItsCode` at code 0. -/
theorem illegalCommandCarriesTheWord : Obligations.IllegalCommandCarriesTheWord := by
  refine ⟨fun s w rest hs hp hno => step_illegal_of_healthy hp hs hno, fun s hs => ?_⟩
  obtain ⟨-, hzero, -⟩ := abortLatchesItsCode s 0
  exact hzero hs rfl

/-- Settles O9. -/
theorem faultEntryChangesNothingElse : Obligations.FaultEntryChangesNothingElse := by
  intro s t hs e hf
  obtain ⟨code, info, hcode, rfl⟩ := step_eq_latch_of_fault hs e hf
  exact ⟨hcode, rfl⟩

/-- Settles O10: by the event the step takes; of the commands `SRST` alone leaves the faulted state, and it has one
word. -/
theorem onlyResetLeavesTheFaultedState : Obligations.OnlyResetLeavesTheFaultedState := by
  intro s t hf e
  rcases step_cases s with ⟨-, e'⟩ | ⟨rest, hp, e'⟩ | ⟨w, rest, i, hp, hi, e'⟩ | ⟨w, rest, why, -, -, e'⟩ <;>
    rw [e'] at e
  · cases e
    exact .inl ⟨hf, rfl, rfl⟩
  · cases e
    exact .inr ⟨.inl ⟨rest, hp⟩, rfl⟩
  · by_cases hsrst : i = .srst
    · subst hsrst
      obtain rfl := eq_encode_of_decode hi
      cases e
      exact .inr ⟨.inr ⟨rest, hp⟩, rfl⟩
    · exact .inl ((exec_keeps_first_fault (s := { s with port := rest }) hf hsrst e).first_fault_kept hf)
  · cases e
    exact .inl ((illegalCommand_keeps_first_fault (s := { s with port := rest }) hf w).first_fault_kept hf)

/-- Settles O11: row by row of the table. -/
theorem eachCauseIsRaisedOnlyByItsCommands : Obligations.EachCauseIsRaisedOnlyByItsCommands := by
  intro i s t hs e hf habort
  obtain ⟨code, info, hraises, rfl⟩ := exec_raisesOnly hs i e hf
  cases hraises
  case abortZero => exact absurd rfl (habort 0)
  case abort => exact absurd rfl (habort _)
  case startMode m => exact .inl ⟨rfl, .inl ⟨m, rfl, rfl⟩⟩
  case pixelMode => exact .inl ⟨rfl, .inr (.inl ⟨rfl, rfl⟩)⟩
  case runMode => exact .inl ⟨rfl, .inr (.inr (.inl ⟨rfl, rfl⟩))⟩
  case decodeMode m => exact .inl ⟨rfl, .inr (.inr (.inr (.inl ⟨m, rfl, rfl⟩)))⟩
  case headerMode => exact .inl ⟨rfl, .inr (.inr (.inr (.inr ⟨rfl, rfl⟩)))⟩
  case version hv => exact .inr (.inl ⟨rfl, rfl, hv, rfl⟩)
  case closeEarly hv => exact .inr (.inr (.inl ⟨rfl, rfl, hv, rfl⟩))
  case endEarly hv => exact .inr (.inr (.inr (.inl ⟨rfl, rfl, hv, rfl⟩)))
  all_goals refine .inr (.inr (.inr (.inr ⟨rfl, ?_⟩)))
  case pbufFull b => exact .inl ⟨b, rfl, rfl⟩
  case cbufFull v => exact .inr (.inl ⟨v, rfl, rfl⟩)
  case lbufFull b => exact .inr (.inr (.inl ⟨b, rfl, rfl⟩))
  case obufFull m => exact .inr (.inr (.inr (.inl ⟨m, rfl, rfl⟩)))
  case obufFullAtHeader => exact .inr (.inr (.inr (.inr (.inl ⟨rfl, rfl⟩))))
  case stringTooLong hv => exact .inr (.inr (.inr (.inr (.inr ⟨rfl, hv, rfl⟩))))

end

section
/-! Reset and the idle block (R280, R281, R290): what a host reads of `STATUS` and `ID` after reset, the `RESET` input
against `SRST`, and the step that finds no event. -/

namespace Sys2Proof.Machine

/-! ## The reset state -/

/-- After reset `STATUS` has the end-of-payload flag alone: the payload buffer is empty, so the cursor at 0 is past it,
and every other flag is low (R25). -/
theorem statusNat_reset : statusNat State.reset = 2 := by
  simp [statusNat, State.reset, Memory.empty, Cursor.zero, HdrRegs.armed]

theorem exec_rd_status_reset : exec (.rd 0x01) State.reset = .next (respond .ok 2 State.reset) :=
  exec_rd_of_some (readReg_of_mem_registerMap (0x01, 2) (by simp [registerMap, statusNat_reset]))

theorem exec_rd_id (s : State) : exec (.rd 0x00) s = .next (respond .ok 0x474E5601 s) :=
  exec_rd_of_some (readReg_of_mem_registerMap (0x00, 0x474E5601) (by simp [registerMap]))

/-! ## The `RESET` input -/

theorem hardReset_eq_reset (s : State) : hardReset s = { State.reset with port := s.port } := rfl

/-- `SRST` leaves the block as the `RESET` input does, but for its response (R280). -/
theorem softReset_eq_hardReset (s : State) : { respond .ok 0 (resetBlock s) with resp := none } = hardReset s := rfl

/-! ## The idle block -/

theorem step_idle {s : State} (h : s.port = []) : step s = .next s := by
  rw [step, takeEvent_nil h]

end Sys2Proof.Machine

open Sys2Proof Sys2Proof.Machine

/-- Settles O13: `STATUS` and `ID` by the register map, the invariants by O15, and each register by its value in
`State.reset`. -/
theorem resetStateHasTheTablesValues : Obligations.ResetStateHasTheTablesValues := by
  unfold Obligations.ResetStateHasTheTablesValues
  intro s
  and_intros
  rotate_right 3
  · exact exec_rd_status_reset
  · exact exec_rd_id State.reset
  · exact invariantHoldsAtReset
  all_goals rfl

/-- Settles O14: the step is `hardReset`, and so is `SRST` once its response is left out. -/
theorem resetInputRestoresResetState : Obligations.ResetInputRestoresResetState := by
  intro s rest hp
  refine ⟨?_, _, exec_srst _, ?_⟩
  · rw [step_reset hp, hardReset_eq_reset]
  · rw [softReset_eq_hardReset, hardReset_eq_reset]

/-- Settles O8: with no event to take, the step has nothing to do. -/
theorem idleBlockWaits : Obligations.IdleBlockWaits :=
  fun _ => step_idle

end
